-- ==== Sys2Proof/Word.lean ====
section
/-! DEFINITION. The three word types of KUPYNA-CORE (spec/00_scope.md R10): a byte is 8 bits, a word is
32 bits, and the 64-bit values are MSG_BITS, DATA_NBYTES and the column integer of the Q round constant.
Everything is unsigned (R10, R11). -/

namespace Sys2Proof

/-- A byte: 8 bits, unsigned (R10). -/
abbrev Byte := BitVec 8

/-- A word: 32 bits, unsigned (R10); a register, a bus word, a command word. -/
abbrev Word := BitVec 32

/-- A 64-bit unsigned value: MSG_BITS (R36), DATA_NBYTES (R34), a Q column (R132). -/
abbrev DWord := BitVec 64

end Sys2Proof
end

