-- ==== Sys2Proof/Syntax.lean ====
section
/-! DEFINITION. Syntax: `Instr`, one constructor per row of spec/opcode_table.json (R93), and the syntax of
host programs (spec/30_encoding.md R97, R98, R99): register names, transaction lines and the
pseudo-instructions. -/

namespace Sys2Proof

/-- A command of KUPYNA-CORE (R93). The round index of the four commands that use RND is the number `i` of
R98's `<MNEMONIC> <i>`; `WellFormed` asks for 0 ≤ i ≤ 255. -/
inductive Instr where
  /-- INIT, OPC 0x01 (R240). -/
  | init
  /-- HASH, OPC 0x02 (R242). -/
  | hash
  /-- MAC, OPC 0x03 (R244). -/
  | mac
  /-- GFMUL, OPC 0x10 (R122). -/
  | gfmul
  /-- ARC_P i, OPC 0x11 (R140). -/
  | arcP (i : Nat)
  /-- ARC_Q i, OPC 0x12 (R141). -/
  | arcQ (i : Nat)
  /-- SUB, OPC 0x13 (R142). -/
  | sub
  /-- SHIFT, OPC 0x14 (R143). -/
  | shift
  /-- MIX, OPC 0x15 (R144). -/
  | mix
  /-- RND_P i, OPC 0x16 (R145). -/
  | rndP (i : Nat)
  /-- RND_Q i, OPC 0x17 (R146). -/
  | rndQ (i : Nat)
  /-- PERM_P, OPC 0x18 (R147). -/
  | permP
  /-- PERM_Q, OPC 0x19 (R148). -/
  | permQ
  /-- IVLOAD, OPC 0x20 (R190). -/
  | ivload
  /-- PAD, OPC 0x21 (R178). -/
  | pad
  /-- COMPRESS_BLK, OPC 0x22 (R193). -/
  | compressBlk
  /-- COMPRESS_PAD, OPC 0x23 (R194). -/
  | compressPad
  /-- OUTXF, OPC 0x24 (R210). -/
  | outxf
  /-- TRUNC, OPC 0x25 (R211). -/
  | trunc
  /-- KMAC_BUILD, OPC 0x30 (R226). -/
  | kmacBuild
deriving DecidableEq, Repr

/-- A place of the register space: a register of R66 by name, or the word of a window that starts at byte
index k of the window (`STATE+k`, `PADBUF+k`, `DIGEST+k`; R97). -/
inductive Reg where
  | ctrl | cmd | status | cfg
  | argOutbits | msgAddr | msgBitsLo | msgBitsHi
  | keyAddr | keyBits | synAddr | blkAddr
  | gfOps | gfRes | synNbytes | padInfo
  | dataNbytesLo | dataNbytesHi
  | stateWin (k : Nat)
  | padbufWin (k : Nat)
  | digestWin (k : Nat)
deriving DecidableEq, Repr

/-- The two register pairs SET64 names (R99). -/
inductive RegPair where
  | msgBits | dataNbytes
deriving DecidableEq, Repr

/-- One line of a host program (R97, R98, R99). Numbers are naturals, as written; `WellFormed` asks that they
fit. `wait n` and `doCmd i n` are the polling loop WAIT; a command that runs when it is entered ends after n reads that
find BUSY = 1: the number the spec leaves unspecified (R305; DESIGN CHOICE: log entry 1). -/
inductive Line where
  /-- `WR <reg>, <value>`. -/
  | wr (r : Reg) (v : Nat)
  /-- `WRB <reg>, <value>, <strb>`. -/
  | wrb (r : Reg) (v : Nat) (strb : Nat)
  /-- `RD <reg>`. -/
  | rd (r : Reg)
  /-- `DW <addr>, <value>`. -/
  | dw (addr : Nat) (v : Nat)
  /-- `DWB <addr>, <value>, <strb>`. -/
  | dwb (addr : Nat) (v : Nat) (strb : Nat)
  /-- `DR <addr>`. -/
  | dr (addr : Nat)
  /-- `<MNEMONIC> [<i>]`. -/
  | cmd (i : Instr)
  /-- `WAIT`. -/
  | wait (polls : Nat)
  /-- `DO <MNEMONIC> [<i>]`. -/
  | doCmd (i : Instr) (polls : Nat)
  /-- `CLR`. -/
  | clr
  /-- `SET64 <reg>, <v>`. -/
  | set64 (p : RegPair) (v : Nat)
  /-- `LOADB <addr>, <b0> <b1> ...`. -/
  | loadb (addr : Nat) (bytes : List Nat)
deriving DecidableEq, Repr

end Sys2Proof
end

