-- ==== Sys2Proof/WellFormed.lean ====
section
/-! DEFINITION. Well-formedness: what a command and a host-program line must satisfy to have an encoding
(spec/30_encoding.md R92, R97, R98, R99; spec/20_memory.md R66). -/

namespace Sys2Proof

/-- R98: for ARC_P, ARC_Q, RND_P and RND_Q the index satisfies `0 ≤ i ≤ 255`; the other commands have no
operand. -/
def Instr.wellFormed : Instr → Bool
  | .arcP i => decide (i < 256)
  | .arcQ i => decide (i < 256)
  | .rndP i => decide (i < 256)
  | .rndQ i => decide (i < 256)
  | .init | .hash | .mac | .gfmul | .sub | .shift | .mix | .permP | .permQ | .ivload | .pad
  | .compressBlk | .compressPad | .outxf | .trunc | .kmacBuild => true

/-- A window of n bytes has a word at byte index k when k is a multiple of 4 (R97) inside it (R66). -/
def windowIndexOk (n k : Nat) : Bool := decide (k % 4 = 0) && decide (k < n)

/-- R66, R97: STATE has bytes 0..127, PADBUF 0..255, DIGEST 0..63, and a window index is a multiple of 4. -/
def Reg.wellFormed : Reg → Bool
  | .stateWin k => windowIndexOk 128 k
  | .padbufWin k => windowIndexOk 256 k
  | .digestWin k => windowIndexOk 64 k
  | .ctrl | .cmd | .status | .cfg | .argOutbits | .msgAddr | .msgBitsLo | .msgBitsHi | .keyAddr | .keyBits
  | .synAddr | .blkAddr | .gfOps | .gfRes | .synNbytes | .padInfo | .dataNbytesLo | .dataNbytesHi => true

/-- A number that fits a 32-bit word (R10, R60). -/
def fitsWord (v : Nat) : Bool := decide (v < 2 ^ 32)

/-- Four byte enables (R60). -/
def fitsStrb (v : Nat) : Bool := decide (v < 16)

/-- A host-program line has bus transactions when its register exists, its values fit a word (SET64: two
words, for either pair, R99), its byte enables are four bits, its index fits RND, and LOADB's bytes are bytes at
a word-aligned address (DEDUCED: LOADB writes by DW, which ignores bits 1:0 of its address, so an unaligned LOADB
would put its bytes elsewhere; log entry 14). A DMEM address, LOADB's last one too, fits 32 bits (DEDUCED: R97 and
R61 state no width for the host's DMEM address; log entry 21). -/
def Line.wellFormed : Line → Bool
  | .wr r v => r.wellFormed && fitsWord v
  | .wrb r v strb => r.wellFormed && fitsWord v && fitsStrb strb
  | .rd r => r.wellFormed
  | .dw addr v => fitsWord addr && fitsWord v
  | .dwb addr v strb => fitsWord addr && fitsWord v && fitsStrb strb
  | .dr addr => fitsWord addr
  | .cmd i => i.wellFormed
  | .wait _ => true
  | .doCmd i _ => i.wellFormed
  | .clr => true
  | .set64 _ v => decide (v < 2 ^ 64)
  | .loadb addr bytes =>
    decide (addr % 4 = 0) && decide (addr + bytes.length ≤ 2 ^ 32) && bytes.all fun b => decide (b < 256)

end Sys2Proof
end

