-- ==== Sys2Proof/Decode.lean ====
section
/-! DEFINITION. The decoder and the encoder of command words (spec/30_encoding.md R90 to R98,
spec/opcode_table.json). A command is one 32-bit word: OPC in bits 7:0, RND in bits 15:8, bits 31:16 ignored
(R91). Decoding is by OPC alone and total on all 2^32 words: one of the 20 commands, or `none` for an
illegal OPC (R94, R96). -/

namespace Sys2Proof

/-- OPC, bits 7:0 of a command word (R91). -/
def opcField (w : Word) : Byte := w.extractLsb' 0 8

/-- RND, bits 15:8 of a command word, an unsigned round index (R91, R92). -/
def rndField (w : Word) : Byte := w.extractLsb' 8 8

/-- The opcode map of R93 read from OPC and RND; every OPC outside it is illegal (R94). -/
def decodeFields (opc rnd : Byte) : Option Instr :=
  match opc.toNat with
  | 0x01 => some .init
  | 0x02 => some .hash
  | 0x03 => some .mac
  | 0x10 => some .gfmul
  | 0x11 => some (.arcP rnd.toNat)
  | 0x12 => some (.arcQ rnd.toNat)
  | 0x13 => some .sub
  | 0x14 => some .shift
  | 0x15 => some .mix
  | 0x16 => some (.rndP rnd.toNat)
  | 0x17 => some (.rndQ rnd.toNat)
  | 0x18 => some .permP
  | 0x19 => some .permQ
  | 0x20 => some .ivload
  | 0x21 => some .pad
  | 0x22 => some .compressBlk
  | 0x23 => some .compressPad
  | 0x24 => some .outxf
  | 0x25 => some .trunc
  | 0x30 => some .kmacBuild
  | _ => none

/-- R96: `cmd = table[w[7:0]]`, and `i = w[15:8]` for the four commands that use RND. -/
def decode (w : Word) : Option Instr := decodeFields (opcField w) (rndField w)

/-- The OPC of a command (R93). -/
def Instr.opc : Instr → Byte
  | .init => 0x01
  | .hash => 0x02
  | .mac => 0x03
  | .gfmul => 0x10
  | .arcP _ => 0x11
  | .arcQ _ => 0x12
  | .sub => 0x13
  | .shift => 0x14
  | .mix => 0x15
  | .rndP _ => 0x16
  | .rndQ _ => 0x17
  | .permP => 0x18
  | .permQ => 0x19
  | .ivload => 0x20
  | .pad => 0x21
  | .compressBlk => 0x22
  | .compressPad => 0x23
  | .outxf => 0x24
  | .trunc => 0x25
  | .kmacBuild => 0x30

/-- The round index of a command; `i = 0` when absent (R98). -/
def Instr.index : Instr → Nat
  | .arcP i => i
  | .arcQ i => i
  | .rndP i => i
  | .rndQ i => i
  | .init | .hash | .mac | .gfmul | .sub | .shift | .mix | .permP | .permQ | .ivload | .pad
  | .compressBlk | .compressPad | .outxf | .trunc | .kmacBuild => 0

/-- R98: the command word `(i << 8) | OPC`; bits 31:16 are written 0. -/
def encode (i : Instr) : Word := 0#16 ++ BitVec.ofNat 8 i.index ++ i.opc

/-- The instruction the decoder reads from the word whose bits are w, bit 0 the least significant bit of the
command word, every bit at and above nbits read as 0. The command word is not stored in a memory: it is the
value of a write to CMD (R90), so it is handed to the decoder as it stands (DEDUCED: log entry 19). -/
def decodeTableWord (nbits w : Nat) : Option Instr := decode (BitVec.ofNat 32 (w % 2 ^ nbits))

end Sys2Proof
end

