-- ==== Sys2Proof/Config.lean ====
section
/-! DEFINITION. What the spec leaves open as a parameter of the hardware (spec/00_scope.md R9,
spec/93_implementation_defined.md I1, I2, I3, I5), and the free values it asks a model to draw (I6, I7).
A free value is an opaque constant with no body: no proof can see what it is. The parameters are one plain
record, `Params`, and the constant tables one plain record, `Rom`; the machine's state carries both (as
constants that no step changes), so every statement holds for every value of them. -/

namespace Sys2Proof

/-- ROT_DIR, the direction of the row rotation (R9, R134; spec/90_conflicts.md C3): the spec leaves the
orientation of "left" open, with TOWARD_LOWER as its default reading. -/
inductive RotDir where
  /-- The byte at column c + δ moves to column c. -/
  | towardLower
  /-- The byte at column c moves to column c + δ. -/
  | towardHigher
deriving DecidableEq, Repr, Inhabited

/-- The ROM (R40, R62): the four 256-byte substitution tables and the 8 × 8 mixing matrix, 1088 bytes,
read by the core alone. Their contents are not validated (I10). -/
structure Rom where
  /-- `SBOX[t][x]` for t in 0..3 and x in 0..255. -/
  sbox : Vector (Vector Byte 256) 4
  /-- `MDS[r][b]` for r, b in 0..7. -/
  mds : Vector (Vector Byte 8) 8
deriving DecidableEq, Repr, Inhabited

/-- The parameters an instance of the hardware is built with (R9, R74; DESIGN CHOICE: log entry 8). -/
structure Params where
  /-- ROT_DIR (R134). -/
  rotDir : RotDir
  /-- The address of the last byte of DMEM, so that DMEM_BYTES is this plus one: exactly the values
  1 ≤ DMEM_BYTES ≤ 2^32 the spec allows (R9, R61). -/
  dmemTop : Word
  /-- REG_BASE: where REG stands on the host's bus (R74); no rule reads it. -/
  regBase : Nat
  /-- DMEM_BASE: where DMEM stands on the host's bus (R74); no rule reads it. -/
  dmemBase : Nat
deriving DecidableEq, Repr

/-- FREE VALUE. The tables of DSTU 7564:2014, which no source gives (I1). -/
opaque Config.sbox : Vector (Vector Byte 256) 4

/-- FREE VALUE. The mixing matrix of DSTU 7564:2014, which no source gives (I2). -/
opaque Config.mds : Vector (Vector Byte 8) 8

/-- FREE VALUE. ROT_DIR of the machine after reset (I3). -/
opaque Config.rotDir : RotDir

/-- FREE VALUE. DMEM_BYTES - 1 of the machine after reset (I5). -/
opaque Config.dmemTop : Word

/-- FREE VALUE. REG_BASE of the machine after reset (I5). -/
opaque Config.regBase : Nat

/-- FREE VALUE. DMEM_BASE of the machine after reset (I5). -/
opaque Config.dmemBase : Nat

/-- FREE VALUE. What a DMEM byte that nothing has written holds: "a free function from address to byte"
(I6, R76, R291). -/
opaque Config.dmemInit : Nat → Byte

/-- FREE VALUE. What the n-th read of a result register, a data window or DMEM returns while BUSY = 1:
"an unspecified 32-bit value", drawn independently at each read (I7, R65). -/
opaque Config.busyRead : Nat → Word

/-- KMAC_KEY_EQ_OUT is false in this hardware (R9, R220; spec/92_eei_decisions.md D18). -/
def Config.kmacKeyEqOut : Bool := false

/-- The ROM of the machine after reset (R291: the SBOX and MDS constants). -/
def Config.rom : Rom := { sbox := Config.sbox, mds := Config.mds }

/-- The parameters of the machine after reset (R9). -/
def Config.params : Params :=
  { rotDir := Config.rotDir, dmemTop := Config.dmemTop, regBase := Config.regBase, dmemBase := Config.dmemBase }

end Sys2Proof
end

