-- ==== Sys2Proof/Machine/State.lean ====
section
/-! DEFINITION. The machine's state as plain data: every piece of state of spec/10_state.md R23, the host's
side of the port (the accesses still to come, the value last read), and the state after reset
(spec/70_reset_and_hazards.md R291). -/

namespace Sys2Proof.Machine

open Sys2Proof

/-- DMEM as (address, byte) pairs, addresses strictly rising; an unlisted address holds no written byte
(R61, R76; log entry 3). -/
abbrev Memory := List Host.Cell

/-- The error codes of STATUS.ERRCODE (R261). Codes 8 to 15 are reserved and never produced, so they have no
constructor. -/
inductive ErrCode where
  /-- 0: no error. -/
  | noError
  /-- 1: ARG_OUTBITS is not a multiple of 8, or is 0, or is above 512. -/
  | cfgOutbits
  /-- 2: CFG.OUT_BITS is not 256, 384 or 512. -/
  | macOutbits
  /-- 3: KEY_BITS is not 256, 384 or 512. -/
  | macKeybits
  /-- 4: CFG.VALID = 0. -/
  | notInit
  /-- 5: OPC not in the opcode map. -/
  | illegalCmd
  /-- 6: a DMEM region is not inside DMEM. -/
  | range
  /-- 7: the synthetic buffer overlaps the key or the message. -/
  | overlap
deriving DecidableEq, Repr

/-- CFG, field by field (R28); the reserved fields 15:10 and 19:18 are 0 always and are not stored (DEDUCED: log
entry 17). -/
structure Cfg where
  /-- OUT_BITS, bits 9:0. -/
  outBits : BitVec 10
  /-- VALID, bit 16. -/
  valid : Bool
  /-- LARGE, bit 17. -/
  large : Bool
  /-- ROUNDS, bits 23:20. -/
  rounds : BitVec 4
  /-- NB, bits 31:24. -/
  nb : BitVec 8
deriving DecidableEq, Repr

/-- The phase (R39): IDLE, or RUNNING with the accepted command word. -/
inductive Phase where
  | idle
  | running (w : Word)
deriving DecidableEq, Repr

/-- What the outside world does to the core: one host access (R60, R61), or the reset input (R290). -/
inductive Input where
  /-- A host write of the word at offset `off` of REG. -/
  | regWrite (off : BitVec 12) (data : Word) (strb : BitVec 4)
  /-- A host read of the word at offset `off` of REG. -/
  | regRead (off : BitVec 12)
  /-- A host write of the DMEM word at `addr`, a 32-bit address (DEDUCED: log entry 21). -/
  | dmemWrite (addr : Word) (data : Word) (strb : BitVec 4)
  /-- A host read of the DMEM word at `addr`, a 32-bit address (DEDUCED: log entry 21). -/
  | dmemRead (addr : Word)
  /-- The reset input is asserted. -/
  | resetAssert
  /-- The reset input is released. -/
  | resetRelease
deriving DecidableEq, Repr

/-- Whose turn a step is: an input from outside, the core's (the end step of the running command; an idle core
does nothing), or the host's in the loop WAIT (R99). The order of turns is data, so a command's duration, in host
accesses, is any number (R278, R305; DESIGN CHOICE: log entry 1). -/
inductive Turn where
  /-- One host access, or an edge of the reset input. -/
  | input (x : Input)
  /-- The core's turn. -/
  | core
  /-- The loop WAIT: it reads STATUS until a read returns BUSY = 0. A command that is still running after `polls`
  reads ends before the next one. -/
  | wait (polls : Nat)
deriving DecidableEq, Repr

/-- The state of KUPYNA-CORE (R23), its constants, and the host's side of its port. -/
structure State where
  /-- CTRL.IE (R24). -/
  ie : Bool
  /-- STATUS.DONE (R26, R38). STATUS.BUSY is the phase. -/
  done : Bool
  /-- STATUS.ERR (R26, R38). -/
  err : Bool
  /-- STATUS.DROP (R26, R38). -/
  drop : Bool
  /-- STATUS.ERRCODE (R26, R261). -/
  errCode : ErrCode
  /-- CFG (R28). -/
  cfg : Cfg
  /-- ARG_OUTBITS (R36). -/
  argOutbits : Word
  /-- MSG_ADDR (R36). -/
  msgAddr : Word
  /-- MSG_BITS_LO (R36). -/
  msgBitsLo : Word
  /-- MSG_BITS_HI (R36). -/
  msgBitsHi : Word
  /-- KEY_ADDR (R36). -/
  keyAddr : Word
  /-- KEY_BITS (R36). -/
  keyBits : Word
  /-- SYN_ADDR (R36). -/
  synAddr : Word
  /-- BLK_ADDR (R36). -/
  blkAddr : Word
  /-- GF_OPS, bits 15:0: A in 7:0, B in 15:8 (R36); bits 31:16 are reserved and read 0. -/
  gfOps : BitVec 16
  /-- GF_RES, bits 7:0 (R37); bits 31:8 are reserved and read 0. -/
  gfRes : Byte
  /-- SYN_NBYTES (R37). -/
  synNbytes : Word
  /-- PAD_INFO.PAD_NBYTES, bits 8:0 (R33); bits 31:9 are reserved and read 0. -/
  padNbytes : BitVec 9
  /-- DATA_NBYTES, read as two registers (R34). -/
  dataNbytes : DWord
  /-- STATE, the 128-byte state array (R30, R31). -/
  hashState : Vector Byte 128
  /-- PADBUF (R33). -/
  padbuf : Vector Byte 256
  /-- DIGEST (R35). -/
  digest : Vector Byte 64
  /-- DMEM (R61). -/
  dmem : Memory
  /-- ROM (R40); no step changes it. -/
  rom : Rom
  /-- The phase (R39). -/
  phase : Phase
  /-- The level of the reset input (R290). -/
  resetHeld : Bool
  /-- The parameters of the instance (R9); no step changes them. -/
  params : Params
  /-- The model's own: the turns still to come, the next one first (log entry 1). -/
  schedule : List Turn
  /-- The model's own: the word the host's last read returned, none before the first read (log entry 2). -/
  rdata : Option Word
  /-- The model's own: how many unspecified words have been drawn (R65; log entry 4). -/
  draws : Nat
deriving DecidableEq, Repr

/-- Why the machine stops. This hardware never stops: every access and every command word has an effect
(R67, R96, R261), so there is no fault, and no step can answer one (DEDUCED: log entry 20). -/
inductive Fault where
deriving DecidableEq, Repr

/-- Why an instruction has no meaning. -/
inductive Refusal where
  /-- Raised only by a dispatch arm of an instruction the model has no meaning for (safe: it says nothing of
  the hardware). No arm raises it: all 20 commands are modelled. -/
  | notModelled (mnemonic : String)
deriving DecidableEq, Repr

/-- What the unit functions read besides their operands: NB and ROUNDS of CFG, the tables and ROT_DIR
(spec/41_permutation.md section 1; R40, R134). COLS is NB div 8 (R28). -/
structure Engine where
  nb : Nat
  rounds : Nat
  rom : Rom
  rotDir : RotDir
deriving DecidableEq, Repr

/-- What the padding function returns (R170): the byte length of the full-block prefix, and the padding
string. -/
structure Padding where
  dataN : Nat
  bytes : List Byte
deriving DecidableEq, Repr

/-- What the hash function returns (R241): the hash code, the state after the output transformation, and the
padding. -/
structure HashOut where
  code : List Byte
  state : List Byte
  padding : Padding
deriving DecidableEq, Repr

/-- CFG after reset: all zero, VALID = 0 (R28, R291). -/
def Cfg.zero : Cfg := { outBits := 0, valid := false, large := false, rounds := 0, nb := 0 }

/-- The machine after reset, for given parameters and tables (R291): every register and window zero, IDLE,
nothing written in DMEM, and no turn scheduled. -/
def State.resetWith (p : Params) (rom : Rom) : State :=
  { ie := false, done := false, err := false, drop := false, errCode := .noError, cfg := Cfg.zero,
    argOutbits := 0, msgAddr := 0, msgBitsLo := 0, msgBitsHi := 0, keyAddr := 0, keyBits := 0, synAddr := 0,
    blkAddr := 0, gfOps := 0, gfRes := 0, synNbytes := 0, padNbytes := 0, dataNbytes := 0,
    hashState := Vector.replicate 128 0, padbuf := Vector.replicate 256 0, digest := Vector.replicate 64 0,
    dmem := [], rom := rom, phase := .idle, resetHeld := false, params := p,
    schedule := [], rdata := none, draws := 0 }

/-- The machine right after reset (R291), with the parameters and tables the spec leaves open. -/
def State.reset : State := State.resetWith Config.params Config.rom

end Sys2Proof.Machine
end

