-- ==== Sys2Proof/Machine/Flags.lean ====
section
/-! DEFINITION. The flags: the STATUS bits BUSY, DONE, ERR, DROP and ERRCODE (spec/10_state.md R26, R38), the
words CTRL and STATUS show, the W1C acknowledgement, and the IRQ output (R41, spec/60_exceptions.md R267).
There is no other flag or condition code (R38). -/

namespace Sys2Proof.Machine

open Sys2Proof

/-- The value of STATUS.ERRCODE (R261). -/
def ErrCode.code : ErrCode → BitVec 4
  | .noError => 0
  | .cfgOutbits => 1
  | .macOutbits => 2
  | .macKeybits => 3
  | .notInit => 4
  | .illegalCmd => 5
  | .range => 6
  | .overlap => 7

/-- STATUS.BUSY: 1 while the phase is RUNNING (R26, R39). -/
def State.busy (s : State) : Bool :=
  match s.phase with
  | .idle => false
  | .running _ => true

/-- A bit as a one-bit vector. -/
def bit (b : Bool) : BitVec 1 := BitVec.ofBool b

/-- STATUS (R26): BUSY 0, DONE 1, ERR 2, DROP 3, ERRCODE 11:8, the other bits 0. -/
def statusWord (s : State) : Word :=
  0#20 ++ s.errCode.code ++ 0#4 ++ bit s.drop ++ bit s.err ++ bit s.done ++ bit s.busy

/-- CTRL (R24): IE in bit 0, the other bits 0. -/
def ctrlWord (s : State) : Word := 0#31 ++ bit s.ie

/-- The IRQ output: `CTRL.IE & STATUS.DONE` (R41, R267). -/
def State.irq (s : State) : Bool := s.ie && s.done

/-- The host's acknowledgement (R26, R270): a write of 1 to STATUS bit 1, 2 or 3 clears it, 0 leaves it;
ERRCODE and BUSY are not changed. -/
def ackStatus (d : Word) (s : State) : State :=
  { s with
    done := s.done && !d.getLsbD 1
    err := s.err && !d.getLsbD 2
    drop := s.drop && !d.getLsbD 3 }

end Sys2Proof.Machine
end

