-- ==== Sys2Proof/Machine/Ops.lean ====
section
/-! DEFINITION. The shared operations: byte strings (spec/00_scope.md R13), the data memory (R16, R61, R76),
the register arrays, how a command is accepted and how it ends: by `commit` (spec/60_exceptions.md R265) or by
`raise Error(code)` (R263), which is what this hardware has in the place of taking an exception (R260, R269).
There is no return operation (R270): the host's acknowledgement is `ackStatus` of Flags.lean, and the next
acceptance clears the report itself. -/

namespace Sys2Proof.Machine

open Sys2Proof

/-! ## Byte strings (R13) -/

/-- `zeros(n)`. -/
def zeros (n : Nat) : List Byte := List.replicate n 0

/-- `s[i .. i+n)`. -/
def slice (s : List Byte) (i n : Nat) : List Byte := (s.drop i).take n

/-- The exclusive or of two byte strings of one length (R12). -/
def xorBytes (a b : List Byte) : List Byte := List.zipWith (· ^^^ ·) a b

/-- `~b` on every byte (R12, R223). -/
def complement (s : List Byte) : List Byte := s.map fun b => b ^^^ 0xFF

/-- The array of n bytes whose byte k is f k. -/
def fillBytes (n : Nat) (f : Nat → Byte) : Vector Byte n := ⟨((List.range n).map f).toArray, by simp⟩

/-- An array that holds the string v from index 0 on and 0x00 above it: `v ++ zeros(n - len(v))`. -/
def zeroFill (n : Nat) (v : List Byte) : Vector Byte n := fillBytes n fun k => v.getD k 0

/-- `W[0 .. len(v)) <- v`: the bytes above keep what they held. -/
def overwrite {n : Nat} (w : Vector Byte n) (v : List Byte) : Vector Byte n :=
  fillBytes n fun k => v.getD k (w.toList.getD k 0)

/-! ## DMEM -/

/-- What an address that nothing has written reads as: a free function from address to byte (R76, R291). -/
def Memory.unwritten (a : Nat) : Byte := Config.dmemInit a

/-- The byte written at an address, none where nothing has written. -/
def Memory.written : Memory → Nat → Option Byte
  | [], _ => none
  | (k, v) :: rest, a => if k = a then some v else Memory.written rest a

/-- `DMEM[a]` (R61, R76). -/
def Memory.byte (m : Memory) (a : Nat) : Byte := (Memory.written m a).getD (Memory.unwritten a)

/-- `DMEM[a] <- b`, keeping the addresses strictly rising. -/
def Memory.set : Memory → Nat → Byte → Memory
  | [], a, b => [(a, b)]
  | (k, v) :: rest, a, b =>
    if a < k then (a, b) :: (k, v) :: rest
    else if a = k then (a, b) :: rest
    else (k, v) :: Memory.set rest a b

/-- The addresses of a memory all lie above a bound and rise strictly. -/
def Memory.risingFrom : Nat → Memory → Bool
  | _, [] => true
  | lo, (k, _) :: rest => decide (lo ≤ k) && Memory.risingFrom (k + 1) rest

/-- The canonical form of a memory: addresses strictly rising. -/
def Memory.wf (m : Memory) : Bool := Memory.risingFrom 0 m

/-- `MemRead(addr, n)` (R16): the byte string `DMEM[addr .. addr+n)`. -/
def memRead (m : Memory) (a n : Nat) : List Byte := (List.range n).map fun i => Memory.byte m (a + i)

/-- `MemWrite(addr, n, v)` (R16): byte v[i] to address addr+i. -/
def memWrite : Memory → Nat → List Byte → Memory
  | m, _, [] => m
  | m, a, b :: rest => memWrite (Memory.set m a b) (a + 1) rest

/-! ## Arrays of registers -/

/-- STATE[0..len(v)) <- v. -/
def State.putHashState (v : List Byte) (s : State) : State := { s with hashState := overwrite s.hashState v }

/-- STATE[0..128) <- v ++ zeros(128 - len(v)). -/
def State.loadHashState (v : List Byte) (s : State) : State := { s with hashState := zeroFill 128 v }

/-- PADBUF <- p ++ zeros(256 - len(p)), PAD_NBYTES <- len(p), DATA_NBYTES <- data_n (R178). -/
def State.putPadding (p : Padding) (s : State) : State :=
  { s with
    padbuf := zeroFill 256 p.bytes
    padNbytes := BitVec.ofNat 9 p.bytes.length
    dataNbytes := BitVec.ofNat 64 p.dataN }

/-- DIGEST <- h ++ zeros(64 - len(h)) (R211). -/
def State.putDigest (h : List Byte) (s : State) : State := { s with digest := zeroFill 64 h }

/-- What HASH and MAC write of a hash (R242, R244): STATE, PADBUF, PAD_INFO, DATA_NBYTES, DIGEST. -/
def State.putHash (h : HashOut) (s : State) : State :=
  State.putDigest h.code (State.putPadding h.padding (State.loadHashState h.state s))

/-! ## The life of a command -/

/-- Acceptance (R264): the word is latched, BUSY <- 1, DONE, ERR and ERRCODE are cleared, DROP is kept. -/
def accept (w : Word) (s : State) : State :=
  { s with phase := .running w, done := false, err := false, errCode := .noError }

/-- `commit` (R16, R265): DONE <- 1, BUSY <- 0, the phase returns to IDLE; ERR and ERRCODE stay. -/
def commit (s : State) : State := { s with done := true, phase := .idle }

/-- `raise Error(code)` (R16, R263): ERR <- 1, ERRCODE <- code, DONE <- 1, BUSY <- 0, nothing else. -/
def raiseError (c : ErrCode) (s : State) : State :=
  { s with err := true, errCode := c, done := true, phase := .idle }

/-- How every command ends: by the first error its checks found, with no effect but STATUS (R263, R266), or
by the commit of its result (R265). -/
def finish (check : Option ErrCode) (result s : State) : Host.Outcome State Fault Refusal :=
  match check with
  | some c => .next (raiseError c s)
  | none => .next (commit result)

/-- What an illegal OPC does (R94): it ends at once by `raise Error(ILLEGAL_CMD)`. -/
def illegalCommand (s : State) : Host.Outcome State Fault Refusal := .next (raiseError .illegalCmd s)

/-! ## Reset -/

/-- Asserting the reset input (R290, R291, R292): every register and window at its reset value at once,
whatever the phase; a running command is abandoned; DMEM (DEDUCED for written bytes: log entry 7), ROM and the
parameters are not changed. The turns
to come and what the host has read are the host's. -/
def assertReset (s : State) : State :=
  { State.resetWith s.params s.rom with
    dmem := s.dmem
    resetHeld := true
    schedule := s.schedule
    rdata := s.rdata
    draws := s.draws }

/-- Releasing the reset input (R290): the core is IDLE. -/
def releaseReset (s : State) : State := { s with resetHeld := false, phase := .idle }

end Sys2Proof.Machine
end

