-- ==== Sys2Proof/Machine/Operands.lean ====
section
/-! DEFINITION. What a command reads: the fields of CFG (spec/10_state.md R27, R28), the argument registers
(R36), the engine's parameters, the range and overlap checks of DMEM regions (spec/20_memory.md R72, R73), and
the context check (spec/60_exceptions.md R266). -/

namespace Sys2Proof.Machine

open Sys2Proof

/-! ## The hash context (R27, R28) -/

/-- R27: an output length is valid when `n mod 8 = 0` and `8 ≤ n ≤ 512`. -/
def outLengthValid (n : Nat) : Bool := decide (n % 8 = 0) && decide (8 ≤ n) && decide (n ≤ 512)

/-- R27: the large mode is for 256 < n ≤ 512. -/
def isLarge (n : Nat) : Bool := decide (256 < n)

/-- CFG of a valid output length n (R27, R28, R240). -/
def Cfg.ofLength (n : Nat) : Cfg :=
  { outBits := BitVec.ofNat 10 n
    valid := true
    large := isLarge n
    rounds := if isLarge n then 14 else 10
    nb := if isLarge n then 128 else 64 }

/-- R28: the legal values of CFG are those of R27's table and, with VALID = 0, all zero. -/
def Cfg.legal (c : Cfg) : Bool :=
  decide (c = Cfg.zero) || (outLengthValid c.outBits.toNat && decide (c = Cfg.ofLength c.outBits.toNat))

/-- The CFG word (R28): OUT_BITS 9:0, VALID 16, LARGE 17, ROUNDS 23:20, NB 31:24, the other bits 0. -/
def Cfg.word (c : Cfg) : Word :=
  c.nb ++ c.rounds ++ 0#2 ++ bit c.large ++ bit c.valid ++ 0#6 ++ c.outBits

/-- NB, the state and block size in bytes (R27). -/
def State.nb (s : State) : Nat := s.cfg.nb.toNat

/-- OUT_BITS (R28). -/
def State.outBits (s : State) : Nat := s.cfg.outBits.toNat

/-- The byte length of the hash code, `h = OUT_BITS div 8` (R211). -/
def State.outBytes (s : State) : Nat := State.outBits s / 8

/-- The permutation engine in the mode of CFG, with the tables of the ROM. -/
def State.engine (s : State) : Engine :=
  { nb := State.nb s, rounds := s.cfg.rounds.toNat, rom := s.rom, rotDir := s.params.rotDir }

/-- COLS is NB div 8 (R28). -/
def Engine.cols (E : Engine) : Nat := E.nb / 8

/-- The hash state, `STATE[0..NB)` (R30). -/
def State.hashBytes (s : State) : List Byte := s.hashState.toList.take (State.nb s)

/-! ## Argument registers (R36) -/

/-- MSG_BITS = MSG_BITS_HI · 2^32 + MSG_BITS_LO. -/
def State.msgBits (s : State) : DWord := s.msgBitsHi ++ s.msgBitsLo

/-- KEY_BITS as the bit length of a message (R221). -/
def State.keyLen (s : State) : DWord := s.keyBits.setWidth 64

/-- A = GF_OPS[7:0]. -/
def State.gfA (s : State) : Byte := s.gfOps.extractLsb' 0 8

/-- B = GF_OPS[15:8]. -/
def State.gfB (s : State) : Byte := s.gfOps.extractLsb' 8 8

/-- `⌈L/8⌉` (R12). -/
def ceilBytes (L : DWord) : Nat := (L.toNat + 7) / 8

/-! ## Checks -/

/-- DMEM_BYTES (R61). -/
def State.dmemBytes (s : State) : Nat := s.params.dmemTop.toNat + 1

/-- `in_range(a, n)` (R72), in unbounded integers. -/
def inRange (size a n : Nat) : Bool := decide (n = 0) || decide (a + n ≤ size)

/-- `overlap(a1, n1, a2, n2)` (R73), in unbounded integers. -/
def overlap (a1 n1 a2 n2 : Nat) : Bool :=
  decide (0 < n1) && decide (0 < n2) && decide (a1 < a2 + n2) && decide (a2 < a1 + n1)

/-- The check that raises `c` when `ok` is false. -/
def require (ok : Bool) (c : ErrCode) : Option ErrCode := if ok then none else some c

/-- Every command but INIT and GFMUL needs CFG.VALID = 1 (R29, R266). -/
def checkContext (s : State) : Option ErrCode := require s.cfg.valid .notInit

/-- The range check of one DMEM region (R72). -/
def checkRange (s : State) (a n : Nat) : Option ErrCode := require (inRange (State.dmemBytes s) a n) .range

/-- The message region `[MSG_ADDR, MSG_ADDR + ⌈MSG_BITS/8⌉)` is inside DMEM (R178, R242). -/
def checkMessage (s : State) : Option ErrCode :=
  checkRange s s.msgAddr.toNat (ceilBytes (State.msgBits s))

end Sys2Proof.Machine
end

