-- ==== Sys2Proof/Machine/Pad.lean ====
section
/-! DEFINITION. The message padding unit (spec/42_padding.md). L is the message's bit length, 64 bits, and nb
the block size. -/

namespace Sys2Proof.Machine

open Sys2Proof

/-- `m = L div 8`, the whole message bytes (R171). -/
def wholeBytes (L : DWord) : Nat := L.toNat / 8

/-- `e = L mod 8`, the bits in the partial byte (R171). -/
def partialBits (L : DWord) : Nat := L.toNat % 8

/-- `r = m mod NB`, the remainder bytes (R171). -/
def remLen (nb : Nat) (L : DWord) : Nat := wholeBytes L % nb

/-- `data_n = m - r`, the byte length of the full-block prefix (R171). -/
def prefixLen (nb : Nat) (L : DWord) : Nat := wholeBytes L - remLen nb L

/-- The partial byte q, masked to its e message bits (bits 7 .. 8-e), with the terminator at bit 7-e; for
e = 0 a new byte 0x80 (R172). -/
def terminator (e : Nat) (q : Byte) : Byte :=
  if e = 0 then 0x80 else (q &&& ((0xFF#8 <<< (8 - e)) &&& 0xFF#8)) ||| (1#8 <<< (7 - e))

/-- The number of zero bytes, `z = ((-L - 97) mod (8 · NB)) div 8` (R173). -/
def zeroCount (nb : Nat) (L : DWord) : Nat := ((-(L.toNat : Int) - 97) % ((8 * nb : Nat) : Int)).toNat / 8

/-- The 96-bit length field, least significant byte first, its high four bytes 0x00 (R175). -/
def lengthField (L : DWord) : List Byte :=
  ((List.range 8).map fun j => L.extractLsb' (8 * j) 8) ++ zeros 4

/-- `pad_n = r + 1 + z + 12`, the length of the padding string (R176). -/
def padLen (nb : Nat) (L : DWord) : Nat := remLen nb L + 1 + zeroCount nb L + 12

/-- The padding string: remainder ++ terminator byte ++ zeros(z) ++ length field (R176). -/
def padString (m : Memory) (nb : Nat) (L : DWord) (a : Nat) : List Byte :=
  memRead m (a + prefixLen nb L) (remLen nb L)
    ++ [terminator (partialBits L) (Memory.byte m (a + wholeBytes L))]
    ++ zeros (zeroCount nb L)
    ++ lengthField L

/-- `pad_fn(L, a)` (R170). -/
def padFn (m : Memory) (nb : Nat) (L : DWord) (a : Nat) : Padding :=
  { dataN := prefixLen nb L, bytes := padString m nb L a }

/-- PAD (R178). -/
def execPad (s : State) : Host.Outcome State Fault Refusal :=
  finish ((checkContext s).or (checkMessage s))
    (State.putPadding (padFn s.dmem (State.nb s) (State.msgBits s) s.msgAddr.toNat) s) s

end Sys2Proof.Machine
end

