-- ==== Sys2Proof/Machine/Gf.lean ====
section
/-! DEFINITION. The GF(2^8) multiplier (spec/40_gf_multiplier.md). -/

namespace Sys2Proof.Machine

open Sys2Proof

/-- The multiplicand shifted left once, reduced by 0x1D when bit 7 was lost (R120). -/
def gfDouble (x : Byte) : Byte := if x.getLsbD 7 then (x <<< 1) ^^^ 0x1D else x <<< 1

/-- n rounds of the shift-and-reduce loop of R120, from bit 0 of the multiplier upward: x the multiplicand,
y the multiplier, r the accumulator. -/
def gfLoop : Nat → Byte → Byte → Byte → Byte
  | 0, _, _, r => r
  | n + 1, x, y, r => gfLoop n (gfDouble x) (y >>> 1) (if y.getLsbD 0 then r ^^^ x else r)

/-- `gfmul(a, b)`: a the multiplicand, b the multiplier (R120). -/
def gfmul (a b : Byte) : Byte := gfLoop 8 a b 0

/-- GFMUL (R122): GF_RES <- zext_32(gfmul(A, B)); no context is needed and no error is raised. -/
def execGfmul (s : State) : Host.Outcome State Fault Refusal :=
  finish none { s with gfRes := gfmul (State.gfA s) (State.gfB s) } s

end Sys2Proof.Machine
end

