-- ==== Sys2Proof/Machine/Permutation.lean ====
section
/-! DEFINITION. The permutation engine (spec/41_permutation.md). A state string has NB bytes, column-major:
`S(r, c) = s[8c + r]` (R14, R31). -/

namespace Sys2Proof.Machine

open Sys2Proof

/-! ## Sub-transforms -/

/-- `S(r, c)` of a state string (R14, R31). -/
def cell (s : List Byte) (r : Fin 8) (c : Nat) : Byte := s.getD (8 * c + r.val) 0

/-- The row of byte k, `k mod 8` (R31). -/
def rowOf (k : Nat) : Fin 8 := ⟨k % 8, Nat.mod_lt k (by decide)⟩

/-- The state string whose byte at row r and column c is f r c, for all NB bytes. -/
def tabulate (E : Engine) (f : Fin 8 → Nat → Byte) : List Byte :=
  (List.range E.nb).map fun k => f (rowOf k) (k / 8)

/-- P round-constant injection `arc_p(s, i)` (R131): row 0 of column c is XORed with (c · 0x10) ⊕ i. -/
def arcP (E : Engine) (i : Byte) (s : List Byte) : List Byte :=
  tabulate E fun r c => if r = 0 then cell s r c ^^^ (BitVec.ofNat 8 (c * 0x10) ^^^ i) else cell s r c

/-- A column as a 64-bit integer, row 0 least significant (R132). -/
def columnWord (s : List Byte) (c : Nat) : DWord :=
  cell s 7 c ++ cell s 6 c ++ cell s 5 c ++ cell s 4 c ++ cell s 3 c ++ cell s 2 c ++ cell s 1 c ++ cell s 0 c

/-- The Q round constant of column c (R132):
`0x00F0F0F0F0F0F0F3 ⊕ ((((COLS - c - 1) · 0x10) ⊕ zext_64(i)) << 56)`. -/
def constantQ (cols c : Nat) (i : Byte) : DWord :=
  0x00F0F0F0F0F0F0F3#64 ^^^ ((BitVec.ofNat 64 ((cols - c - 1) * 0x10) ^^^ i.setWidth 64) <<< 56)

/-- Q round-constant injection `arc_q(s, i)` (R132): an addition modulo 2^64 in every column. -/
def arcQ (E : Engine) (i : Byte) (s : List Byte) : List Byte :=
  tabulate E fun r c => (columnWord s c + constantQ (Engine.cols E) c i).extractLsb' (8 * r.val) 8

/-- `ROM.SBOX[t][x]` (R40). -/
def sboxAt (rom : Rom) (t : Fin 4) (x : Byte) : Byte := rom.sbox[t][x.toNat]'x.isLt

/-- `ROM.MDS[r][b]` (R40). -/
def mdsAt (rom : Rom) (r b : Fin 8) : Byte := rom.mds[r][b]

/-- Row r uses the substitution table r mod 4 (R133). -/
def tableOf (r : Fin 8) : Fin 4 := ⟨r.val % 4, Nat.mod_lt _ (by decide)⟩

/-- Byte substitution `sub(s)` (R133). -/
def subBytes (E : Engine) (s : List Byte) : List Byte :=
  tabulate E fun r c => sboxAt E.rom (tableOf r) (cell s r c)

/-- The shift amount δ_r (R134): r, but 11 for row 7 of the large state. -/
def rowShift (cols : Nat) (r : Fin 8) : Nat := if cols = 16 ∧ r = 7 then 11 else r.val

/-- The column that the byte of row r, column c of the rotated state comes from (R134). -/
def sourceColumn (dir : RotDir) (cols : Nat) (r : Fin 8) (c : Nat) : Nat :=
  match dir with
  | .towardLower => (c + rowShift cols r) % cols
  | .towardHigher => (((c : Int) - (rowShift cols r : Int)) % (cols : Int)).toNat

/-- Row rotation `shift(s)` (R134). -/
def shiftRows (E : Engine) (s : List Byte) : List Byte :=
  tabulate E fun r c => cell s r (sourceColumn E.rotDir (Engine.cols E) r c)

/-- The sum over all rows b of `gfmul(MDS[r][b], S(b, c))` (R135). -/
def mixCell (rom : Rom) (s : List Byte) (r : Fin 8) (c : Nat) : Byte :=
  [(0 : Fin 8), 1, 2, 3, 4, 5, 6, 7].foldl (fun acc b => acc ^^^ gfmul (mdsAt rom r b) (cell s b c)) 0

/-- Column mixing `mix(s)` (R135). -/
def mixColumns (E : Engine) (s : List Byte) : List Byte := tabulate E (mixCell E.rom s)

/-! ## Rounds and permutations -/

/-- `round_P(s, i) = mix(shift(sub(arc_p(s, i))))` (R136, R137). -/
def roundP (E : Engine) (i : Byte) (s : List Byte) : List Byte :=
  mixColumns E (shiftRows E (subBytes E (arcP E i s)))

/-- `round_Q(s, i) = mix(shift(sub(arc_q(s, i))))` (R136, R137). -/
def roundQ (E : Engine) (i : Byte) (s : List Byte) : List Byte :=
  mixColumns E (shiftRows E (subBytes E (arcQ E i s)))

/-- ROUNDS rounds with the indices 0, 1, ..., ROUNDS-1 in that order (R138). -/
def allRounds (rounds : Nat) (round : Byte → List Byte → List Byte) (s : List Byte) : List Byte :=
  (List.range rounds).foldl (fun t i => round (BitVec.ofNat 8 i) t) s

/-- `perm_P(s)` (R138). -/
def permP (E : Engine) (s : List Byte) : List Byte := allRounds E.rounds (roundP E) s

/-- `perm_Q(s)` (R138). -/
def permQ (E : Engine) (s : List Byte) : List Byte := allRounds E.rounds (roundQ E) s

/-! ## Commands (section 3) -/

/-- What every command of section 3 does: with a valid context, `STATE[0..NB) <- f(STATE[0..NB))`. -/
def onHashState (f : Engine → List Byte → List Byte) (s : State) : Host.Outcome State Fault Refusal :=
  finish (checkContext s) (State.putHashState (f (State.engine s) (State.hashBytes s)) s) s

/-- ARC_P (R140). -/
def execArcP (i : Nat) (s : State) : Host.Outcome State Fault Refusal :=
  onHashState (fun E => arcP E (BitVec.ofNat 8 i)) s

/-- ARC_Q (R141). -/
def execArcQ (i : Nat) (s : State) : Host.Outcome State Fault Refusal :=
  onHashState (fun E => arcQ E (BitVec.ofNat 8 i)) s

/-- SUB (R142). -/
def execSub (s : State) : Host.Outcome State Fault Refusal := onHashState subBytes s

/-- SHIFT (R143). -/
def execShift (s : State) : Host.Outcome State Fault Refusal := onHashState shiftRows s

/-- MIX (R144). -/
def execMix (s : State) : Host.Outcome State Fault Refusal := onHashState mixColumns s

/-- RND_P (R145): one P round with index i. -/
def execRndP (i : Nat) (s : State) : Host.Outcome State Fault Refusal :=
  onHashState (fun E => roundP E (BitVec.ofNat 8 i)) s

/-- RND_Q (R146): one Q round with index i. -/
def execRndQ (i : Nat) (s : State) : Host.Outcome State Fault Refusal :=
  onHashState (fun E => roundQ E (BitVec.ofNat 8 i)) s

/-- PERM_P (R147): the whole permutation P. -/
def execPermP (s : State) : Host.Outcome State Fault Refusal := onHashState permP s

/-- PERM_Q (R148): the whole permutation Q. -/
def execPermQ (s : State) : Host.Outcome State Fault Refusal := onHashState permQ s

end Sys2Proof.Machine
end

