-- ==== Sys2Proof/Machine/Compress.lean ====
section
/-! DEFINITION. The Davies-Meyer compression driver (spec/43_compression.md). -/

namespace Sys2Proof.Machine

open Sys2Proof

/-- `iv() = [NB] ++ zeros(NB - 1)` (R190). -/
def initialValue (nb : Nat) : List Byte := BitVec.ofNat 8 nb :: zeros (nb - 1)

/-- `compress(s, blk) = s ⊕ perm_P(s ⊕ blk) ⊕ perm_Q(blk)` (R191). -/
def compress (E : Engine) (s blk : List Byte) : List Byte :=
  xorBytes (xorBytes s (permP E (xorBytes s blk))) (permQ E blk)

/-- The blocks 0 .. n-1 of NB bytes at DMEM address a, compressed in order (R195). -/
def compressMem (E : Engine) (m : Memory) (a n : Nat) (s : List Byte) : List Byte :=
  (List.range n).foldl (fun t j => compress E t (memRead m (a + j * E.nb) E.nb)) s

/-- The blocks 0 .. n-1 of NB bytes of a byte string, compressed in order (R194, R195); what it does in states no run
reaches is the model's own (log entry 18). -/
def compressBytes (E : Engine) (p : List Byte) (n : Nat) (s : List Byte) : List Byte :=
  (List.range n).foldl (fun t j => compress E t (slice p (j * E.nb) E.nb)) s

/-- `compress_all(s, a, data_n, p)` (R195): the full-block prefix in DMEM, then the padding string. -/
def compressAll (E : Engine) (m : Memory) (a : Nat) (p : Padding) (s : List Byte) : List Byte :=
  compressBytes E p.bytes (p.bytes.length / E.nb) (compressMem E m a (p.dataN / E.nb) s)

/-- IVLOAD (R190): STATE[0..128) <- zeros(128), then STATE[0] <- NB. -/
def execIvload (s : State) : Host.Outcome State Fault Refusal :=
  finish (checkContext s) (State.loadHashState (initialValue (State.nb s)) s) s

/-- COMPRESS_BLK (R193): one block from DMEM at BLK_ADDR. -/
def execCompressBlk (s : State) : Host.Outcome State Fault Refusal :=
  finish ((checkContext s).or (checkRange s s.blkAddr.toNat (State.nb s)))
    (State.putHashState
      (compress (State.engine s) (State.hashBytes s) (memRead s.dmem s.blkAddr.toNat (State.nb s))) s) s

/-- COMPRESS_PAD (R194): every block of the padding buffer; PADBUF and PAD_INFO are not consumed. -/
def execCompressPad (s : State) : Host.Outcome State Fault Refusal :=
  finish (checkContext s)
    (State.putHashState
      (compressBytes (State.engine s) s.padbuf.toList (s.padNbytes.toNat / State.nb s) (State.hashBytes s)) s) s

end Sys2Proof.Machine
end

