-- ==== Sys2Proof/Machine/Output.lean ====
section
/-! DEFINITION. The output transformation and truncation unit (spec/44_output.md). -/

namespace Sys2Proof.Machine

open Sys2Proof

/-- `outxf(s) = s ⊕ perm_P(s)` (R210). -/
def outputTransform (E : Engine) (s : List Byte) : List Byte := xorBytes s (permP E s)

/-- `trunc(s) = s[NB - h .. NB)` (R211). -/
def truncate (nb h : Nat) (s : List Byte) : List Byte := slice s (nb - h) h

/-- OUTXF (R210). -/
def execOutxf (s : State) : Host.Outcome State Fault Refusal := onHashState outputTransform s

/-- TRUNC (R211): DIGEST[0..h) <- STATE[NB - h .. NB), DIGEST[h..64) <- zeros(64 - h). -/
def execTrunc (s : State) : Host.Outcome State Fault Refusal :=
  finish (checkContext s)
    (State.putDigest (truncate (State.nb s) (State.outBytes s) (State.hashBytes s)) s) s

end Sys2Proof.Machine
end

