-- ==== Sys2Proof/Machine/Kmac.lean ====
section
/-! DEFINITION. The KMAC preprocessor (spec/45_kmac.md). -/

namespace Sys2Proof.Machine

open Sys2Proof

/-- The lengths the MAC admits, for the output and for the key: 256, 384 and 512 bits (R220). -/
def macLength (n : Nat) : Bool := decide (n = 256) || decide (n = 384) || decide (n = 512)

/-- `kb = KEY_BITS div 8` (R221). -/
def State.keyBytes (s : State) : Nat := s.keyBits.toNat / 8

/-- `kmac_check()` (R220): the context, the output length, the key length, in this order. -/
def kmacCheck (s : State) : Option ErrCode :=
  (checkContext s).or
    ((require (macLength (State.outBits s)) .macOutbits).or
      ((require (macLength s.keyBits.toNat) .macKeybits).or
        (require (!Config.kmacKeyEqOut || decide (s.keyBits.toNat = State.outBits s)) .macKeybits)))

/-- `syn_n = kd + len(kp) + md + len(mp) + kb`, from the lengths alone (R224). -/
def State.synLen (s : State) : Nat :=
  prefixLen (State.nb s) (State.keyLen s) + padLen (State.nb s) (State.keyLen s)
    + prefixLen (State.nb s) (State.msgBits s) + padLen (State.nb s) (State.msgBits s)
    + State.keyBytes s

/-- `kmac_regions()` (R225): the key, the message and the synthetic buffer are inside DMEM, then the buffer
overlaps neither the key nor the message, in this order. -/
def kmacRegions (s : State) : Option ErrCode :=
  (checkRange s s.keyAddr.toNat (State.keyBytes s)).or
    ((checkMessage s).or
      ((checkRange s s.synAddr.toNat (State.synLen s)).or
        ((require (!overlap s.synAddr.toNat (State.synLen s) s.keyAddr.toNat (State.keyBytes s)) .overlap).or
          (require
            (!overlap s.synAddr.toNat (State.synLen s) s.msgAddr.toNat (ceilBytes (State.msgBits s)))
            .overlap))))

/-- The padded key, `pad_fn(KEY_BITS, KEY_ADDR)` (R221). -/
def keyPadding (s : State) : Padding := padFn s.dmem (State.nb s) (State.keyLen s) s.keyAddr.toNat

/-- The padded message, `pad_fn(MSG_BITS, MSG_ADDR)` (R222). -/
def messagePadding (s : State) : Padding := padFn s.dmem (State.nb s) (State.msgBits s) s.msgAddr.toNat

/-- The synthetic buffer (R223): the key's full-block prefix, its padding string, the message's full-block
prefix, its padding string, and the whole key again with every byte complemented. -/
def synBuffer (s : State) : List Byte :=
  memRead s.dmem s.keyAddr.toNat (keyPadding s).dataN
    ++ (keyPadding s).bytes
    ++ memRead s.dmem s.msgAddr.toNat (messagePadding s).dataN
    ++ (messagePadding s).bytes
    ++ complement (memRead s.dmem s.keyAddr.toNat (State.keyBytes s))

/-- `MemWrite(SYN_ADDR, syn_n, syn)` and `SYN_NBYTES <- syn_n` (R226). -/
def State.putSynthetic (syn : List Byte) (s : State) : State :=
  { s with
    dmem := memWrite s.dmem s.synAddr.toNat syn
    synNbytes := BitVec.ofNat 32 (State.synLen s) }

/-- KMAC_BUILD (R226): PADBUF is left holding the message's padding. -/
def execKmacBuild (s : State) : Host.Outcome State Fault Refusal :=
  finish ((kmacCheck s).or (kmacRegions s))
    (State.putPadding (messagePadding s) (State.putSynthetic (synBuffer s) s)) s

end Sys2Proof.Machine
end

