-- ==== Sys2Proof/Machine/Entry.lean ====
section
/-! DEFINITION. The entry commands INIT, HASH and MAC (spec/46_top_level.md). -/

namespace Sys2Proof.Machine

open Sys2Proof

/-- What INIT writes (R240): CFG, STATE with the IV, PADBUF all zero, PAD_NBYTES and DATA_NBYTES 0. -/
def State.initContext (n : Nat) (s : State) : State :=
  State.putPadding { dataN := 0, bytes := [] }
    (State.loadHashState (initialValue (Cfg.ofLength n).nb.toNat) { s with cfg := Cfg.ofLength n })

/-- INIT (R240): the whole register ARG_OUTBITS is the output length. -/
def execInit (s : State) : Host.Outcome State Fault Refusal :=
  finish (require (outLengthValid s.argOutbits.toNat) .cfgOutbits)
    (State.initContext s.argOutbits.toNat s) s

/-- `hash_fn(L, a)` (R241) over a data memory, for h bytes of hash code. -/
def hashFn (E : Engine) (m : Memory) (h : Nat) (L : DWord) (a : Nat) : HashOut :=
  let p := padFn m E.nb L a
  let t := outputTransform E (compressAll E m a p (initialValue E.nb))
  { code := truncate E.nb h t, state := t, padding := p }

/-- HASH (R242). -/
def execHash (s : State) : Host.Outcome State Fault Refusal :=
  finish ((checkContext s).or (checkMessage s))
    (State.putHash
      (hashFn (State.engine s) s.dmem (State.outBytes s) (State.msgBits s) s.msgAddr.toNat) s) s

/-- `mac_fn()` (R243): the hash of the synthetic buffer, `hash_fn(8 · syn_n, SYN_ADDR)`, read from the DMEM it
was just written to. -/
def macFn (s : State) : HashOut :=
  hashFn (State.engine s) (memWrite s.dmem s.synAddr.toNat (synBuffer s)) (State.outBytes s)
    (BitVec.ofNat 64 (8 * State.synLen s)) s.synAddr.toNat

/-- MAC (R244). -/
def execMac (s : State) : Host.Outcome State Fault Refusal :=
  finish ((kmacCheck s).or (kmacRegions s))
    (State.putHash (macFn s) (State.putSynthetic (synBuffer s) s)) s

end Sys2Proof.Machine
end

