-- ==== Sys2Proof/Machine/Dispatch.lean ====
section
/-! DEFINITION. The dispatch: one arm per command (spec/30_encoding.md R93). -/

namespace Sys2Proof.Machine

open Sys2Proof

def exec (i : Instr) (s : State) : Host.Outcome State Fault Refusal :=
  match i with
  | .init => Sys2Proof.Machine.execInit s
  | .hash => Sys2Proof.Machine.execHash s
  | .mac => Sys2Proof.Machine.execMac s
  | .gfmul => Sys2Proof.Machine.execGfmul s
  | .arcP k => Sys2Proof.Machine.execArcP k s
  | .arcQ k => Sys2Proof.Machine.execArcQ k s
  | .sub => Sys2Proof.Machine.execSub s
  | .shift => Sys2Proof.Machine.execShift s
  | .mix => Sys2Proof.Machine.execMix s
  | .rndP k => Sys2Proof.Machine.execRndP k s
  | .rndQ k => Sys2Proof.Machine.execRndQ k s
  | .permP => Sys2Proof.Machine.execPermP s
  | .permQ => Sys2Proof.Machine.execPermQ s
  | .ivload => Sys2Proof.Machine.execIvload s
  | .pad => Sys2Proof.Machine.execPad s
  | .compressBlk => Sys2Proof.Machine.execCompressBlk s
  | .compressPad => Sys2Proof.Machine.execCompressPad s
  | .outxf => Sys2Proof.Machine.execOutxf s
  | .trunc => Sys2Proof.Machine.execTrunc s
  | .kmacBuild => Sys2Proof.Machine.execKmacBuild s

end Sys2Proof.Machine
end

