-- ==== Sys2Proof/Machine/HostBus.lean ====
section
/-! DEFINITION. The host's port (spec/20_memory.md): the register map (R66), word reads and writes of REG and
DMEM with byte enables (R60, R61), little-endian windows (R63), unmapped offsets and read-only registers (R67),
the drop of writes and the unspecified reads while BUSY = 1 (R64, R65), and accesses while the reset input is
asserted (spec/70_reset_and_hazards.md R290). -/

namespace Sys2Proof.Machine

open Sys2Proof

/-! ## The register map (R66) -/

/-- The byte offset of a register or window word (R66). -/
def regOffset : Reg → Nat
  | .ctrl => 0x000
  | .cmd => 0x004
  | .status => 0x008
  | .cfg => 0x00C
  | .argOutbits => 0x010
  | .msgAddr => 0x014
  | .msgBitsLo => 0x018
  | .msgBitsHi => 0x01C
  | .keyAddr => 0x020
  | .keyBits => 0x024
  | .synAddr => 0x028
  | .blkAddr => 0x02C
  | .gfOps => 0x030
  | .gfRes => 0x034
  | .synNbytes => 0x038
  | .padInfo => 0x03C
  | .dataNbytesLo => 0x040
  | .dataNbytesHi => 0x044
  | .stateWin k => 0x100 + k
  | .padbufWin k => 0x200 + k
  | .digestWin k => 0x300 + k

/-- The word an offset names: bits 1:0 are ignored (R60), and an offset outside the map is `none` (R67). -/
def regAt (off : BitVec 12) : Option Reg :=
  let a := off.toNat / 4 * 4
  match off.toNat / 4 with
  | 0 => some .ctrl
  | 1 => some .cmd
  | 2 => some .status
  | 3 => some .cfg
  | 4 => some .argOutbits
  | 5 => some .msgAddr
  | 6 => some .msgBitsLo
  | 7 => some .msgBitsHi
  | 8 => some .keyAddr
  | 9 => some .keyBits
  | 10 => some .synAddr
  | 11 => some .blkAddr
  | 12 => some .gfOps
  | 13 => some .gfRes
  | 14 => some .synNbytes
  | 15 => some .padInfo
  | 16 => some .dataNbytesLo
  | 17 => some .dataNbytesHi
  | _ =>
    if 0x100 ≤ a ∧ a < 0x180 then some (.stateWin (a - 0x100))
    else if 0x200 ≤ a ∧ a < 0x300 then some (.padbufWin (a - 0x200))
    else if 0x300 ≤ a ∧ a < 0x340 then some (.digestWin (a - 0x300))
    else none

/-- Where the word at an offset of REG stands on the platform's bus (R74). -/
def regBusAddress (p : Params) (off : BitVec 12) : Nat := p.regBase + off.toNat

/-- Where a DMEM address stands on the platform's bus (R74). -/
def dmemBusAddress (p : Params) (a : Word) : Nat := p.dmemBase + a.toNat

/-! ## Byte lanes -/

/-- A word from its bytes, b0 in bits 7:0 (R63). -/
def wordOfBytes (b0 b1 b2 b3 : Byte) : Word := b3 ++ b2 ++ b1 ++ b0

/-- The bits of the byte lanes that are enabled: lane i is bits 8i+7 : 8i (R60). -/
def laneMask (strb : BitVec 4) : Word :=
  wordOfBytes (if strb.getLsbD 0 then 0xFF else 0) (if strb.getLsbD 1 then 0xFF else 0)
    (if strb.getLsbD 2 then 0xFF else 0) (if strb.getLsbD 3 then 0xFF else 0)

/-- A word after a write: the enabled lanes take the data, the others keep what they held (R60). -/
def mergeLanes (old data : Word) (strb : BitVec 4) : Word :=
  (old &&& ~~~laneMask strb) ||| (data &&& laneMask strb)

/-- The written data with the disabled byte lanes read as 0x00 (R90; DEDUCED for STATUS, and for CMD with no lane
enabled: log entries 10 and 11). -/
def maskLanes (data : Word) (strb : BitVec 4) : Word := data &&& laneMask strb

/-- Byte lane j of a word. -/
def laneByte (w : Word) (j : Nat) : Byte := w.extractLsb' (8 * j) 8

/-- The word of a window at byte index k: byte `W[k + j]` in bits 8j+7 : 8j (R63). -/
def windowWord {n : Nat} (w : Vector Byte n) (k : Nat) : Word :=
  wordOfBytes (w.toList.getD k 0) (w.toList.getD (k + 1) 0) (w.toList.getD (k + 2) 0) (w.toList.getD (k + 3) 0)

/-- A window after a word write at byte index k: the enabled lanes are written (R60, R63). -/
def writeWindow {n : Nat} (w : Vector Byte n) (k : Nat) (data : Word) (strb : BitVec 4) : Vector Byte n :=
  fillBytes n fun x =>
    if k ≤ x ∧ x < k + 4 ∧ strb.getLsbD (x - k) then laneByte data (x - k) else w.toList.getD x 0

/-! ## Register reads -/

/-- The value of a register or window word by the normal rules (R60, R63, R67). -/
def readReg (s : State) : Reg → Word
  | .ctrl => ctrlWord s
  | .cmd => 0
  | .status => statusWord s
  | .cfg => Cfg.word s.cfg
  | .argOutbits => s.argOutbits
  | .msgAddr => s.msgAddr
  | .msgBitsLo => s.msgBitsLo
  | .msgBitsHi => s.msgBitsHi
  | .keyAddr => s.keyAddr
  | .keyBits => s.keyBits
  | .synAddr => s.synAddr
  | .blkAddr => s.blkAddr
  | .gfOps => s.gfOps.setWidth 32
  | .gfRes => s.gfRes.setWidth 32
  | .synNbytes => s.synNbytes
  | .padInfo => s.padNbytes.setWidth 32
  | .dataNbytesLo => s.dataNbytes.extractLsb' 0 32
  | .dataNbytesHi => s.dataNbytes.extractLsb' 32 32
  | .stateWin k => windowWord s.hashState k
  | .padbufWin k => windowWord s.padbuf k
  | .digestWin k => windowWord s.digest k

/-- The registers and windows whose reads are unspecified while BUSY = 1 (R65). -/
def isResult : Reg → Bool
  | .gfRes | .synNbytes | .padInfo | .dataNbytesLo | .dataNbytesHi => true
  | .stateWin _ | .padbufWin _ | .digestWin _ => true
  | .ctrl | .cmd | .status | .cfg | .argOutbits | .msgAddr | .msgBitsLo | .msgBitsHi | .keyAddr | .keyBits
  | .synAddr | .blkAddr | .gfOps => false

/-- The host's read returns w. -/
def answer (w : Word) (s : State) : State := { s with rdata := some w }

/-- The host's read returns an unspecified word, drawn anew (R65). -/
def answerUnspecified (s : State) : State :=
  { s with rdata := some (Config.busyRead s.draws), draws := s.draws + 1 }

/-- A host read of REG (R60, R65, R67, R290). DEDUCED: an unmapped offset reads 0 while BUSY = 1 too (log entry
12). -/
def hostReadReg (off : BitVec 12) (s : State) : State :=
  if s.resetHeld then answer 0 s
  else
    match regAt off with
    | none => answer 0 s
    | some r => if State.busy s && isResult r then answerUnspecified s else answer (readReg s r) s

/-! ## DMEM accesses -/

/-- The address of the word a DMEM access covers: bits 1:0 are ignored (R61). -/
def wordBase (a : Word) : Nat := a.toNat / 4 * 4

/-- A byte of DMEM as the host reads it: 0x00 at and above DMEM_BYTES (R61). -/
def hostByte (s : State) (a : Nat) : Byte := if a < State.dmemBytes s then Memory.byte s.dmem a else 0

/-- The DMEM word at a, little-endian (R63). -/
def hostWord (s : State) (a : Nat) : Word :=
  wordOfBytes (hostByte s a) (hostByte s (a + 1)) (hostByte s (a + 2)) (hostByte s (a + 3))

/-- A host read of DMEM (R61, R65, R290). While BUSY = 1 a word of DMEM reads as an unspecified value; a word
with no byte inside DMEM is no word of DMEM and reads 0 (DEDUCED: log entry 6). -/
def hostReadDmem (addr : Word) (s : State) : State :=
  if s.resetHeld then answer 0 s
  else if State.busy s && decide (wordBase addr < State.dmemBytes s) then answerUnspecified s
  else answer (hostWord s (wordBase addr)) s

/-- The write of one byte lane of a DMEM word: ignored when the lane is disabled, or its byte is at or above
DMEM_BYTES (R61). -/
def writeLane (size a : Nat) (data : Word) (strb : BitVec 4) (j : Nat) (m : Memory) : Memory :=
  if strb.getLsbD j && decide (a + j < size) then Memory.set m (a + j) (laneByte data j) else m

/-- The write of a DMEM word with its byte enables (R61, R63). -/
def writeDmemWord (size a : Nat) (data : Word) (strb : BitVec 4) (m : Memory) : Memory :=
  writeLane size a data strb 3 (writeLane size a data strb 2 (writeLane size a data strb 1
    (writeLane size a data strb 0 m)))

/-! ## Writes -/

/-- A host write's fate (R64, R290): ignored while the reset input is asserted, dropped (setting DROP) while
BUSY = 1, taken otherwise. -/
def hostWrite (effect : State → State) (s : State) : State :=
  if s.resetHeld then s else if State.busy s then { s with drop := true } else effect s

/-- What a write to a register or window word does while the core is idle (R24, R25, R26, R36, R60, R67): CMD
starts the command its enabled lanes spell, STATUS is W1C, the read-only ones ignore it. -/
def writeReg (r : Reg) (data : Word) (strb : BitVec 4) (s : State) : State :=
  match r with
  | .ctrl => { s with ie := (mergeLanes (ctrlWord s) data strb).getLsbD 0 }
  | .cmd => accept (maskLanes data strb) s
  | .status => ackStatus (maskLanes data strb) s
  | .argOutbits => { s with argOutbits := mergeLanes s.argOutbits data strb }
  | .msgAddr => { s with msgAddr := mergeLanes s.msgAddr data strb }
  | .msgBitsLo => { s with msgBitsLo := mergeLanes s.msgBitsLo data strb }
  | .msgBitsHi => { s with msgBitsHi := mergeLanes s.msgBitsHi data strb }
  | .keyAddr => { s with keyAddr := mergeLanes s.keyAddr data strb }
  | .keyBits => { s with keyBits := mergeLanes s.keyBits data strb }
  | .synAddr => { s with synAddr := mergeLanes s.synAddr data strb }
  | .blkAddr => { s with blkAddr := mergeLanes s.blkAddr data strb }
  | .gfOps => { s with gfOps := (mergeLanes (s.gfOps.setWidth 32) data strb).setWidth 16 }
  | .stateWin k => { s with hashState := writeWindow s.hashState k data strb }
  | .cfg | .gfRes | .synNbytes | .padInfo | .dataNbytesLo | .dataNbytesHi | .padbufWin _ | .digestWin _ => s

/-- A host write of REG (R60, R64, R67). -/
def hostWriteReg (off : BitVec 12) (data : Word) (strb : BitVec 4) (s : State) : State :=
  hostWrite (fun t => match regAt off with | none => t | some r => writeReg r data strb t) s

/-- A host write of DMEM (R61, R64). -/
def hostWriteDmem (addr : Word) (data : Word) (strb : BitVec 4) (s : State) : State :=
  hostWrite (fun t => { t with dmem := writeDmemWord (State.dmemBytes t) (wordBase addr) data strb t.dmem }) s

/-- What one input from outside does. DEDUCED: releasing a reset input that is not
asserted is no event (log entry 13). -/
def applyInput (x : Input) (s : State) : State :=
  match x with
  | .regWrite off data strb => hostWriteReg off data strb s
  | .regRead off => hostReadReg off s
  | .dmemWrite addr data strb => hostWriteDmem addr data strb s
  | .dmemRead addr => hostReadDmem addr s
  | .resetAssert => assertReset s
  | .resetRelease => if s.resetHeld then releaseReset s else s

end Sys2Proof.Machine
end

