-- ==== Sys2Proof/Machine/Turns.lean ====
section
/-! DEFINITION. The core's turn, the host's turn in the loop WAIT (spec/30_encoding.md R99), and the loading of a
command word, which Step.lean calls. -/

namespace Sys2Proof.Machine

open Sys2Proof

/-- What an accepted command word does at its end step: the command it encodes, or ILLEGAL_CMD (R94, R96). -/
def runWord (w : Word) (s : State) : Host.Outcome State Fault Refusal :=
  match decode w with
  | some i => exec i s
  | none => illegalCommand s

/-- The core's turn (R22, R39, R265, R277): the end step of the running command, which computes all of it (R39 lets
a model; log entry 9); an idle core does nothing. -/
def coreTurn (s : State) : Host.Outcome State Fault Refusal :=
  match s.phase with
  | .idle => .next s
  | .running w => runWord w s

/-- R99's test `(result & 1) ≠ 0` on the word the host's last read returned. -/
def resultBusy (s : State) : Bool := (s.rdata.getD 0).getLsbD 0

/-- One turn of the loop `L: RD STATUS; if (result & 1) ≠ 0 goto L` (R99): a read of STATUS, after which the loop
goes on, with one poll fewer before the command ends, or is left. -/
def pollStatus (polls : Nat) (rest : List Turn) (s : State) : State :=
  let t := hostReadReg (BitVec.ofNat 12 (regOffset .status)) s
  { t with schedule := if resultBusy t then .wait (polls - 1) :: rest else rest }

/-- A turn in the loop WAIT (R99): a poll, but the core's turn where a command still runs after the last poll that
the schedule lets find BUSY = 1 (DESIGN CHOICE: log entry 1). -/
def waitTurn (polls : Nat) (rest : List Turn) (s : State) : Host.Outcome State Fault Refusal :=
  if decide (polls = 0) && State.busy s then coreTurn s else .next (pollStatus polls rest s)

/-- The state in which the word w has been accepted and the very next turn is the core's. -/
def loadWord (w : Word) (s : State) : State := { accept w s with schedule := .core :: s.schedule }

end Sys2Proof.Machine
end

