-- ==== Sys2Proof/Machine/Step.lean ====
section
/-! DEFINITION. One step of the machine: the next turn of the schedule is taken, or the core's turn when no
input is left (spec/20_memory.md R77, spec/60_exceptions.md R278: a command runs from its acceptance to its end
step with any number of host accesses between them). -/

namespace Sys2Proof.Machine

open Sys2Proof

/-- The state with the next turn taken off the schedule. -/
def State.popTurn (s : State) : State := { s with schedule := s.schedule.tail }

/-- One step. -/
def step (s : State) : Host.Outcome State Fault Refusal :=
  match s.schedule with
  | [] => coreTurn s
  | .core :: _ => coreTurn (State.popTurn s)
  | .input x :: _ => .next (applyInput x (State.popTurn s))
  | .wait polls :: rest => waitTurn polls rest s

/-- s with the command word whose bits are w (the bits at and above nbits zero) accepted, so that the very
next step ends it. There is no program counter and no fetch (R22, R293): the word is what a host write to CMD
would have latched (R264; DESIGN CHOICE: log entry 5). -/
def State.withFetchWord (s : State) (nbits w : Nat) : State := loadWord (BitVec.ofNat 32 (w % 2 ^ nbits)) s

end Sys2Proof.Machine
end

