-- ==== Sys2Proof/Machine/HostProgram.lean ====
section
/-! DEFINITION. Host programs: the turns each line of spec/30_encoding.md R97, R98 and R99 stands for. -/

namespace Sys2Proof.Machine

open Sys2Proof

/-- A 32-bit write of a register or window word with byte enables (R97). -/
def writeTurn (r : Reg) (v strb : Nat) : Turn :=
  .input (.regWrite (BitVec.ofNat 12 (regOffset r)) (BitVec.ofNat 32 v) (BitVec.ofNat 4 strb))

/-- A 32-bit read of a register or window word (R97). -/
def readTurn (r : Reg) : Turn := .input (.regRead (BitVec.ofNat 12 (regOffset r)))

/-- A 32-bit DMEM write at `addr & ~3` with byte enables (R97). -/
def dmemWriteTurn (addr v strb : Nat) : Turn :=
  .input (.dmemWrite (BitVec.ofNat 32 (addr / 4 * 4)) (BitVec.ofNat 32 v) (BitVec.ofNat 4 strb))

/-- The number four bytes spell, the first least significant (R63, R99). -/
def littleEndian : List Nat → Nat
  | [] => 0
  | b :: rest => b + 256 * littleEndian rest

/-- LOADB (R99): the bytes from addr on, four per DW, and a DWB for a tail of fewer than four. -/
def loadBytes : Nat → List Nat → List Turn
  | _, [] => []
  | addr, b0 :: b1 :: b2 :: b3 :: rest =>
    dmemWriteTurn addr (littleEndian [b0, b1, b2, b3]) 0b1111 :: loadBytes (addr + 4) rest
  | addr, tail => [dmemWriteTurn addr (littleEndian tail) (2 ^ tail.length - 1)]

/-- `<MNEMONIC> [<i>]` (R98): the write `WR CMD, (i << 8) | OPC`. -/
def commandTurn (i : Instr) : Turn := writeTurn .cmd (encode i).toNat 0b1111

/-- The low and the high register of a pair (R99). -/
def pairLow : RegPair → Reg
  | .msgBits => .msgBitsLo
  | .dataNbytes => .dataNbytesLo

/-- The high register of a pair (R99). -/
def pairHigh : RegPair → Reg
  | .msgBits => .msgBitsHi
  | .dataNbytes => .dataNbytesHi

/-- The turns of one line (R97, R98, R99). WAIT is the turn of the loop, which tests BUSY at every read. -/
def lineTurns : Line → List Turn
  | .wr r v => [writeTurn r v 0b1111]
  | .wrb r v strb => [writeTurn r v strb]
  | .rd r => [readTurn r]
  | .dw addr v => [dmemWriteTurn addr v 0b1111]
  | .dwb addr v strb => [dmemWriteTurn addr v strb]
  | .dr addr => [.input (.dmemRead (BitVec.ofNat 32 addr))]
  | .cmd i => [commandTurn i]
  | .wait polls => [.wait polls]
  | .doCmd i polls => [commandTurn i, .wait polls]
  | .clr => [writeTurn .status 0x0000000E 0b1111]
  | .set64 p v => [writeTurn (pairLow p) (v % 2 ^ 32) 0b1111, writeTurn (pairHigh p) (v / 2 ^ 32) 0b1111]
  | .loadb addr bytes => loadBytes addr bytes

/-- A machine whose host is about to run a program. -/
def State.withProgram (lines : List Line) (s : State) : State :=
  { s with schedule := lines.flatMap lineTurns ++ s.schedule }

end Sys2Proof.Machine
end

