-- ==== Sys2Proof/Safety.lean ====
section
/-! DEFINITION. The terms claims use: how a byte of STATE, PADBUF and DIGEST is read, a context that is
initialised, regions of DMEM, the invariant of every run (`Inv`), and sequences of commands
(spec/46_top_level.md R247). -/

namespace Sys2Proof.Machine

open Sys2Proof

/-! ## Reading arrays -/

/-- `STATE[k]` (R30). -/
def State.stateByte (s : State) (k : Nat) : Byte := s.hashState.toList.getD k 0

/-- `PADBUF[k]` (R33). -/
def State.padByte (s : State) (k : Nat) : Byte := s.padbuf.toList.getD k 0

/-- `DIGEST[k]` (R35). -/
def State.digestByte (s : State) (k : Nat) : Byte := s.digest.toList.getD k 0

/-- `DMEM[a]` (R61). -/
def State.dmemByte (s : State) (a : Nat) : Byte := Memory.byte s.dmem a

/-- `S(r, c)` of STATE (R31). -/
def State.cellAt (s : State) (r : Fin 8) (c : Nat) : Byte := State.stateByte s (8 * c + r.val)

/-- COLS = NB div 8 (R28). -/
def State.cols (s : State) : Nat := State.nb s / 8

/-- Column c of STATE as the integer `Σ_{r=0..7} S(r, c) · 2^(8r)` (R132). -/
def State.columnValue (s : State) (c : Nat) : Nat :=
  ((List.finRange 8).map fun r => (State.cellAt s r c).toNat * 2 ^ (8 * r.val)).sum

/-- s with byte k of STATE set to f k, for every k. -/
def State.withBytes (s : State) (f : Nat → Byte) : State := { s with hashState := fillBytes 128 f }

/-! ## Contexts and regions -/

/-- A hash context is initialised, with one of the values of CFG that R28 lists. -/
abbrev State.HasContext (s : State) : Prop := s.cfg.valid = true ∧ Cfg.legal s.cfg = true

/-- The region `[a, a+n)` is inside DMEM, or empty (R72). -/
abbrev State.RegionInside (s : State) (a n : Nat) : Prop := n = 0 ∨ a + n ≤ State.dmemBytes s

/-- The regions `[a1, a1+n1)` and `[a2, a2+n2)` have no byte in common (R73). -/
abbrev RegionsApart (a1 n1 a2 n2 : Nat) : Prop := n1 = 0 ∨ n2 = 0 ∨ a1 + n1 ≤ a2 ∨ a2 + n2 ≤ a1

/-- The message region `[MSG_ADDR, MSG_ADDR + ⌈MSG_BITS/8⌉)` is inside DMEM. -/
abbrev State.MessageInside (s : State) : Prop :=
  State.RegionInside s s.msgAddr.toNat (((State.msgBits s).toNat + 7) / 8)

/-- Everything MAC and KMAC_BUILD ask for holds (R220, R225). -/
abbrev State.MacReady (s : State) : Prop :=
  State.HasContext s
    ∧ State.outBits s ∈ [256, 384, 512]
    ∧ s.keyBits.toNat ∈ [256, 384, 512]
    ∧ State.RegionInside s s.keyAddr.toNat (s.keyBits.toNat / 8)
    ∧ State.MessageInside s
    ∧ State.RegionInside s s.synAddr.toNat (State.synLen s)
    ∧ RegionsApart s.synAddr.toNat (State.synLen s) s.keyAddr.toNat (s.keyBits.toNat / 8)
    ∧ RegionsApart s.synAddr.toNat (State.synLen s) s.msgAddr.toNat (((State.msgBits s).toNat + 7) / 8)

/-- The first error of MAC and KMAC_BUILD in the order of R266: the context, the output length, the key
length, the key, message and synthetic regions, the overlap with the key, then with the message. -/
def firstMacError (s : State) : Option ErrCode :=
  if s.cfg.valid = false then some .notInit
  else if State.outBits s ∉ [256, 384, 512] then some .macOutbits
  else if s.keyBits.toNat ∉ [256, 384, 512] then some .macKeybits
  else if ¬State.RegionInside s s.keyAddr.toNat (s.keyBits.toNat / 8) then some .range
  else if ¬State.MessageInside s then some .range
  else if ¬State.RegionInside s s.synAddr.toNat (State.synLen s) then some .range
  else if ¬RegionsApart s.synAddr.toNat (State.synLen s) s.keyAddr.toNat (s.keyBits.toNat / 8) then some .overlap
  else if ¬RegionsApart s.synAddr.toNat (State.synLen s) s.msgAddr.toNat (((State.msgBits s).toNat + 7) / 8) then
    some .overlap
  else none

/-- The error codes a command can raise (the rows of R262). -/
def mayRaise : Instr → List ErrCode
  | .init => [.cfgOutbits]
  | .gfmul => []
  | .mac | .kmacBuild => [.macOutbits, .macKeybits, .notInit, .range, .overlap]
  | .hash | .pad | .compressBlk => [.notInit, .range]
  | .arcP _ | .arcQ _ | .sub | .shift | .mix | .rndP _ | .rndQ _ | .permP | .permQ | .ivload | .compressPad
  | .outxf | .trunc => [.notInit]

/-! ## The invariant -/

/-- STATUS: while a command runs DONE, ERR and ERRCODE are clear (R264), and ERR = 1 comes with a code
(R263). -/
abbrev State.StatusOk (s : State) : Prop :=
  (State.busy s = true → s.done = false ∧ s.err = false ∧ s.errCode = .noError)
    ∧ (s.err = true → s.errCode ≠ .noError)

/-- The hash context: CFG holds a legal value (R28), PAD_NBYTES is 0, NB or 2·NB (R194), DATA_NBYTES is a
multiple of NB (R34), and PADBUF is 0x00 at PAD_NBYTES and above (R33). -/
abbrev State.ContextOk (s : State) : Prop :=
  Cfg.legal s.cfg = true
    ∧ s.padNbytes.toNat ∈ [0, State.nb s, 2 * State.nb s]
    ∧ s.dataNbytes.toNat % State.nb s = 0
    ∧ ∀ k, k < 256 → s.padNbytes.toNat ≤ k → State.padByte s k = 0

/-- DMEM is in canonical form and lists only addresses below DMEM_BYTES (R61). -/
abbrev State.MemoryOk (s : State) : Prop :=
  Memory.wf s.dmem = true ∧ ∀ c ∈ s.dmem, c.1 < State.dmemBytes s

/-- While the reset input is asserted the core is in the reset state (R290). -/
abbrev State.ResetOk (s : State) : Prop := s.resetHeld = true → s = assertReset s

/-- What every step keeps. -/
abbrev State.Inv (s : State) : Prop :=
  State.StatusOk s ∧ State.ContextOk s ∧ State.MemoryOk s ∧ State.ResetOk s

/-! ## Sequences -/

/-- f after the next state of an outcome. -/
def andThen (o : Host.Outcome State Fault Refusal) (f : State → Host.Outcome State Fault Refusal) :
    Host.Outcome State Fault Refusal :=
  match o with
  | .next s => f s
  | .fault r => .fault r
  | .refused r => .refused r

/-- Commands run one after another. -/
def execAll : List Instr → State → Host.Outcome State Fault Refusal
  | [], s => .next s
  | i :: rest, s => andThen (exec i s) (execAll rest)

/-- For each j of the list in order: BLK_ADDR <- a + j·NB, then COMPRESS_BLK (R247). -/
def compressPrefix (a nb : Nat) : List Nat → State → Host.Outcome State Fault Refusal
  | [], s => .next s
  | j :: rest, s =>
    andThen (exec .compressBlk { s with blkAddr := BitVec.ofNat 32 (a + j * nb) }) (compressPrefix a nb rest)

/-- The unit commands that make a HASH (R247): IVLOAD, PAD, one COMPRESS_BLK per full block with BLK_ADDR set
before each, COMPRESS_PAD, OUTXF, TRUNC. -/
def hashByUnits (s : State) : Host.Outcome State Fault Refusal :=
  andThen (execAll [.ivload, .pad] s) fun p =>
    andThen
      (compressPrefix s.msgAddr.toNat (State.nb s) (List.range (p.dataNbytes.toNat / State.nb s)) p)
      (execAll [.compressPad, .outxf, .trunc])

/-- v is the Davies-Meyer compression of STATE with the block blk (R191), the permutations being those the
commands PERM_P and PERM_Q compute. -/
def Compresses (s : State) (blk v : Nat → Byte) : Prop :=
  ∃ x y, exec .permP (State.withBytes s fun k => State.stateByte s k ^^^ blk k) = .next x
    ∧ exec .permQ (State.withBytes s blk) = .next y
    ∧ ∀ k, k < State.nb s → v k = State.stateByte s k ^^^ State.stateByte x k ^^^ State.stateByte y k

/-- The most steps a turn takes: the loop WAIT takes its polls, the end of the command and the last read. -/
def Turn.steps : Turn → Nat
  | .input _ => 1
  | .core => 1
  | .wait polls => polls + 2

/-- v is what a 32-bit word holds after a write of data over old: each bit from data where its byte lane is enabled,
from old where it is not (R60). -/
def LanesWritten (old data : Word) (strb : BitVec 4) (v : Word) : Prop :=
  ∀ j, j < 32 → v.getLsbD j = if strb.getLsbD (j / 8) then data.getLsbD j else old.getLsbD j

/-- A host access that writes. -/
def Input.isWrite : Input → Bool
  | .regWrite _ _ _ | .dmemWrite _ _ _ => true
  | .regRead _ | .dmemRead _ | .resetAssert | .resetRelease => false

/-- A host access that reads. -/
def Input.isRead : Input → Bool
  | .regRead _ | .dmemRead _ => true
  | .regWrite _ _ _ | .dmemWrite _ _ _ | .resetAssert | .resetRelease => false

end Sys2Proof.Machine
end

