-- ==== Sys2Proof/Certificates/Slice0/Obligations.lean ====
section
/-! DEFINITION. The statements for the provers. A statement about a command runs `exec` on the state at the
command's end step, which is the state at its acceptance (R39); "t = { s with ... }" says that every field not
listed is unchanged. -/

open Sys2Proof Sys2Proof.Machine

/-! ## Encoding -/

/-- R98: a command line is the write `WR CMD, (i << 8) | OPC`, and the decoder reads the command back. -/
def Obligations.CommandLineEncodesAndDecodes : Prop :=
  (∀ i : Instr, i.wellFormed = true →
    decode (encode i) = some i
      ∧ (encode i).toNat = (i.index <<< 8) ||| i.opc.toNat
      ∧ lineTurns (.cmd i) = [.input (.regWrite 0x004 (encode i) 0b1111)])
  ∧ encode (.arcQ 3) = 0x00000312

/-- R96: decoding is by OPC alone, with RND for the four commands that use it, and total. -/
def Obligations.DecodeReadsOpcAndRnd : Prop :=
  (∀ (w : Word) (i : Instr), decode w = some i →
    i.wellFormed = true
      ∧ i.opc.toNat = w.toNat % 256
      ∧ (i = .arcP i.index ∨ i = .arcQ i.index ∨ i = .rndP i.index ∨ i = .rndQ i.index →
          i.index = w.toNat / 256 % 256))
  ∧ ∀ w : Word, decode w = none ↔ ∀ i : Instr, i.opc.toNat ≠ w.toNat % 256

/-- R95, R91: bits 31:16, and RND for commands that do not use it, are ignored. -/
def Obligations.IgnoredBitsSelectSameCommand : Prop :=
  ∀ w v : Word, w.toNat % 256 = v.toNat % 256 →
    (w.toNat % 65536 = v.toNat % 65536 ∨ w.toNat % 256 ∉ [0x11, 0x12, 0x16, 0x17]) →
    decode w = decode v

/-- R94: the illegal OPC values; such a word is accepted like any other, and ends at once with ILLEGAL_CMD and no
change but to STATUS. -/
def Obligations.IllegalOpcodeRaisesIllegalCmd : Prop :=
  (∀ w : Word, decode w = none ↔
    (w.toNat % 256 = 0x00 ∨ (0x04 ≤ w.toNat % 256 ∧ w.toNat % 256 ≤ 0x0F)
      ∨ (0x1A ≤ w.toNat % 256 ∧ w.toNat % 256 ≤ 0x1F) ∨ (0x26 ≤ w.toNat % 256 ∧ w.toNat % 256 ≤ 0x2F)
      ∨ (0x31 ≤ w.toNat % 256 ∧ w.toNat % 256 ≤ 0xFF)))
  ∧ ∀ (w : Word) (s : State), decode w = none → s.phase = .idle → s.resetHeld = false →
      applyInput (.regWrite 0x004 w 0b1111) s =
          { s with phase := .running w, done := false, err := false, errCode := .noError }
        ∧ coreTurn (applyInput (.regWrite 0x004 w 0b1111) s) =
          .next { s with err := true, errCode := .illegalCmd, done := true, phase := .idle }

/-- R93, a sanity check: a word written from each of the 20 rows of the opcode map decodes to its command. -/
def Obligations.OpcodeMapWordsDecode : Prop :=
  decode 0x00000001 = some .init ∧ decode 0x00000002 = some .hash ∧ decode 0x00000003 = some .mac
    ∧ decode 0x00000010 = some .gfmul ∧ decode 0x00003511 = some (.arcP 0x35)
    ∧ decode 0x00000312 = some (.arcQ 3) ∧ decode 0xABCD0313 = some .sub
    ∧ decode 0x00000014 = some .shift ∧ decode 0x00000015 = some .mix
    ∧ decode 0x0000FF16 = some (.rndP 255) ∧ decode 0x00008017 = some (.rndQ 128)
    ∧ decode 0x00000018 = some .permP ∧ decode 0x00000019 = some .permQ
    ∧ decode 0x00000020 = some .ivload ∧ decode 0x00000021 = some .pad
    ∧ decode 0x00000022 = some .compressBlk ∧ decode 0x00000023 = some .compressPad
    ∧ decode 0x00000024 = some .outxf ∧ decode 0x00000025 = some .trunc ∧ decode 0x00000030 = some .kmacBuild
    ∧ decode 0xFFFF001A = none ∧ decode 0x00000000 = none ∧ decode 0x000000FF = none

/-! ## Steps -/

/-- The model's choice (log entries 1 and 9): when the head of the schedule is the core's turn, or nothing is
scheduled, the step of a machine that runs a command word is that command's end step, its `exec`. -/
def Obligations.StepRunsDecodedCommand : Prop :=
  ∀ (s : State) (w : Word) (i : Instr), s.phase = .running w → decode w = some i →
    (s.schedule.head? = some .core ∨ s.schedule = []) →
    step s = exec i { s with schedule := s.schedule.tail }

/-- The model's choice (log entry 1): the head of the schedule decides the step, and with an empty schedule it is
the core's turn. A step takes the input that is due; an idle core's turn changes nothing. -/
def Obligations.StepTakesInputOrIdles : Prop :=
  (∀ (s : State) (x : Input) (rest : List Turn), s.schedule = .input x :: rest →
    step s = .next (applyInput x { s with schedule := rest }))
  ∧ ∀ s : State, s.phase = .idle → (s.schedule.head? = some .core ∨ s.schedule = []) →
    step s = .next { s with schedule := s.schedule.tail }

/-- The model's choice (log entry 5): a table word placed by `withFetchWord` is accepted as R264 says and the
next step runs it. -/
def Obligations.PlacedWordRunsNext : Prop :=
  ∀ (s : State) (nbits w : Nat) (i : Instr), decodeTableWord nbits w = some i →
    step (s.withFetchWord nbits w) =
      exec i
        { s with
          phase := .running (BitVec.ofNat 32 (w % 2 ^ nbits)), done := false, err := false, errCode := .noError }

/-- R264: a write to CMD while BUSY = 0 is accepted in one step; DROP and everything else are kept. R90: disabled
lanes are read as 0x00. That this holds of a write with no lane enabled too, which is then accepted as word 0, is the
model's reading (DEDUCED: log entry 10). -/
def Obligations.CmdWriteIsAccepted : Prop :=
  ∀ (s : State) (off : BitVec 12) (data : Word) (strb : BitVec 4),
    s.phase = .idle → s.resetHeld = false → off.toNat / 4 = 1 →
    ∃ w : Word,
      applyInput (.regWrite off data strb) s =
          { s with phase := .running w, done := false, err := false, errCode := .noError }
        ∧ ∀ j, j < 32 → w.getLsbD j = (data.getLsbD j && strb.getLsbD (j / 8))

/-- R265, R263: every command ends, from every state, with DONE = 1 and the phase IDLE; its errors are those of
R262's table, and it changes no state but STATUS when it raises one. -/
def Obligations.EveryCommandEndsOrRaises : Prop :=
  ∀ (i : Instr) (s : State), ∃ t,
    exec i s = .next t ∧ t.done = true ∧ t.phase = .idle
      ∧ ((t.err = s.err ∧ t.errCode = s.errCode)
        ∨ ∃ c, c ∈ mayRaise i ∧ t = { s with err := true, errCode := c, done := true, phase := .idle })

/-- R270: a command that failed fails again with the same code when nothing has changed: accepted again after it
(R264 clears DONE, ERR and ERRCODE), with whatever word, it ends in the same state, error code and all. -/
def Obligations.FailedCommandFailsAgain : Prop :=
  ∀ (i : Instr) (s t : State) (w : Word), s.err = false → exec i s = .next t → t.err = true →
    exec i { t with done := false, err := false, errCode := .noError, phase := .running w } = .next t

/-- R29: VALID is 0 after reset and becomes 1 at an INIT that succeeds, a failed INIT leaves CFG as it was, and
every command other than INIT and GFMUL needs VALID = 1 and raises NOT_INIT otherwise. -/
def Obligations.CommandsNeedContext : Prop :=
  State.reset.cfg.valid = false
  ∧ (∀ s t : State, s.err = false → exec .init s = .next t →
      (t.err = false → t.cfg.valid = true) ∧ (t.err = true → t.cfg = s.cfg))
  ∧ ∀ (i : Instr) (s : State), i ≠ .init → i ≠ .gfmul → s.cfg.valid = false →
      exec i s = .next { s with err := true, errCode := .notInit, done := true, phase := .idle }

/-- R72, R178, R193, R242: PAD, HASH and COMPRESS_BLK raise RANGE when their region is not inside DMEM. -/
def Obligations.RegionOutsideDmemRaisesRange : Prop :=
  ∀ s : State, s.cfg.valid = true →
    (¬State.MessageInside s →
      exec .pad s = .next { s with err := true, errCode := .range, done := true, phase := .idle }
        ∧ exec .hash s = .next { s with err := true, errCode := .range, done := true, phase := .idle })
    ∧ (¬State.RegionInside s s.blkAddr.toNat (State.nb s) →
      exec .compressBlk s = .next { s with err := true, errCode := .range, done := true, phase := .idle })

/-- R266, R220, R225: MAC and KMAC_BUILD raise the first error in the order of R266, and none when every check
passes. -/
def Obligations.MacErrorsInOrder : Prop :=
  ∀ s : State,
    (∀ c, firstMacError s = some c →
      exec .mac s = .next { s with err := true, errCode := c, done := true, phase := .idle }
        ∧ exec .kmacBuild s = .next { s with err := true, errCode := c, done := true, phase := .idle })
    ∧ (firstMacError s = none →
      ∃ t u, exec .mac s = .next t ∧ exec .kmacBuild s = .next u
        ∧ t.err = s.err ∧ t.errCode = s.errCode ∧ u.err = s.err ∧ u.errCode = s.errCode)

/-- R278: whatever the schedule (log entry 1), the core is IDLE again after at most as many steps as the turns
scheduled take, and one more. -/
def Obligations.EveryRunReachesIdle : Prop :=
  ∀ s : State, ∃ k, k ≤ (s.schedule.map Turn.steps).sum + 1 ∧ ∃ t, Host.Core.run Sys2Proof.core k s = .next t ∧ t.phase = .idle

/-- R70, R39: host accesses between a command's acceptance and its end change nothing of what it computes; they
leave only DROP (set by a write), the word last read and the count of draws. The schedule that holds the accesses
and the core's turn is the model's own (log entry 1), as are the word read and the draws (log entries 2 and 4). -/
def Obligations.CommandIsAtomic : Prop :=
  ∀ (s : State) (w : Word) (xs : List Input) (rest : List Turn),
    s.phase = .running w → s.resetHeld = false → (∀ x ∈ xs, x.isRead = true ∨ x.isWrite = true) →
    ∃ t u,
      coreTurn s = .next t
        ∧ Host.Core.run Sys2Proof.core (xs.length + 1)
            { s with schedule := xs.map Turn.input ++ Turn.core :: rest } = .next u
        ∧ u = { t with drop := s.drop || xs.any Input.isWrite, schedule := rest, rdata := u.rdata, draws := u.draws }

/-! ## Invariants and whole-machine rules -/

/-- The invariant holds at reset. -/
def Obligations.InvariantHoldsAtReset : Prop := State.Inv State.reset

/-- Every step keeps the invariant. -/
def Obligations.StepKeepsInvariant : Prop :=
  ∀ s t : State, State.Inv s → step s = .next t → State.Inv t

/-- R28, R29: CFG is written only by INIT and by reset, and a successful INIT is the one way VALID becomes 1. -/
def Obligations.OnlyInitAndResetWriteCfg : Prop :=
  ∀ s t : State, step s = .next t → t.cfg ≠ s.cfg →
    (∃ w, s.phase = .running w ∧ decode w = some .init ∧ t.cfg.valid = true)
      ∨ (s.schedule.head? = some (.input .resetAssert) ∧ t.cfg.valid = false)

/-- R303: DROP is sticky: only a host write to STATUS while the core is idle, or reset, makes it 0 again. That the
write must enable byte lane 0 is the model's reading (DEDUCED: log entry 11). -/
def Obligations.DropIsSticky : Prop :=
  ∀ s t : State, step s = .next t → s.drop = true → t.drop = false →
    s.schedule.head? = some (.input .resetAssert)
      ∨ (s.phase = .idle ∧ ∃ off data strb, s.schedule.head? = some (.input (.regWrite off data strb))
          ∧ off.toNat / 4 = 2 ∧ data.getLsbD 3 = true ∧ strb.getLsbD 0 = true)

/-- R40, R291: no step changes the ROM or the parameters. -/
def Obligations.RomNeverChanges : Prop :=
  ∀ s t : State, step s = .next t → t.rom = s.rom ∧ t.params = s.params

/-- R245: no command changes an argument register or CTRL, and the synthetic buffer region is the only DMEM
region a command writes. -/
def Obligations.CommandsKeepArguments : Prop :=
  ∀ (i : Instr) (s t : State), exec i s = .next t →
    t.ie = s.ie ∧ t.argOutbits = s.argOutbits ∧ t.msgAddr = s.msgAddr ∧ t.msgBitsLo = s.msgBitsLo
      ∧ t.msgBitsHi = s.msgBitsHi ∧ t.keyAddr = s.keyAddr ∧ t.keyBits = s.keyBits ∧ t.synAddr = s.synAddr
      ∧ t.blkAddr = s.blkAddr ∧ t.gfOps = s.gfOps
      ∧ (i ≠ .mac → i ≠ .kmacBuild → t.dmem = s.dmem)
      ∧ ∀ a, a < s.synAddr.toNat ∨ s.synAddr.toNat + State.synLen s ≤ a → State.dmemByte t a = State.dmemByte s a

/-- R32: in the small mode INIT, IVLOAD, HASH and MAC set STATE[64..127] to 0x00, every other command leaves
those bytes unchanged, and no command reads them; a host write of them is kept. -/
def Obligations.SmallModeUpperState : Prop :=
  (∀ (s : State) (off : BitVec 12) (data : Word) (j : Nat), s.phase = .idle → s.resetHeld = false →
    0x140 ≤ off.toNat → off.toNat < 0x180 → j < 4 →
    State.stateByte (applyInput (.regWrite off data 0b1111) s) (off.toNat / 4 * 4 - 0x100 + j) =
      data.extractLsb' (8 * j) 8)
  ∧ (∀ (i : Instr) (s t : State), State.HasContext s → s.cfg.large = false → s.err = false →
    exec i s = .next t →
    ∀ k, 64 ≤ k → k < 128 →
      State.stateByte t k =
        if (i = .init ∨ i = .ivload ∨ i = .hash ∨ i = .mac) ∧ t.err = false then 0 else State.stateByte s k)
  ∧ ∀ (i : Instr) (s : State) (f : Nat → Byte) (t u : State), State.HasContext s → s.cfg.large = false →
    (∀ k, k < 64 → f k = State.stateByte s k) →
    exec i s = .next t → exec i (State.withBytes s f) = .next u →
    u = { t with hashState := u.hashState } ∧ ∀ k, k < 64 → State.stateByte u k = State.stateByte t k

/-- R246: HASH depends only on CFG, its argument registers, DMEM and ROM (and the parameters). -/
def Obligations.HashDependsOnlyOnItsInputs : Prop :=
  ∀ s t u v : State, s.cfg = t.cfg → s.msgAddr = t.msgAddr → s.msgBitsLo = t.msgBitsLo →
    s.msgBitsHi = t.msgBitsHi → s.rom = t.rom → s.params = t.params →
    (∀ a, State.dmemByte s a = State.dmemByte t a) →
    State.HasContext s → State.MessageInside s →
    exec .hash s = .next u → exec .hash t = .next v →
    u.hashState = v.hashState ∧ u.padbuf = v.padbuf ∧ u.padNbytes = v.padNbytes
      ∧ u.dataNbytes = v.dataNbytes ∧ u.digest = v.digest

/-! ## GF(2^8) -/

/-- R122: GFMUL completes from every state, writes GF_RES alone, and its corner cases. -/
def Obligations.GfmulWritesProduct : Prop :=
  (∀ s : State,
    exec .gfmul s =
      .next
        { s with
          gfRes := gfmul (s.gfOps.setWidth 8) ((s.gfOps >>> 8).setWidth 8), done := true, phase := .idle })
  ∧ (∀ b : Byte, gfmul 0 b = 0 ∧ gfmul b 0 = 0 ∧ gfmul 1 b = b)
  ∧ gfmul 0x80 0x02 = 0x1D ∧ gfmul 0xFF 0xFF = 0xE2 ∧ gfmul 0x57 0x83 = 0x31

/-- R121: the laws of the product: commutative, distributive over ⊕, 1 and 0x02, inverses, and 0x02 of order
255; associative too, being a product of polynomials modulo 0x11D. -/
def Obligations.GfmulFieldLaws : Prop :=
  (∀ a b : Byte, gfmul a b = gfmul b a)
  ∧ (∀ a b c : Byte, gfmul a (b ^^^ c) = gfmul a b ^^^ gfmul a c)
  ∧ (∀ a b c : Byte, gfmul a (gfmul b c) = gfmul (gfmul a b) c)
  ∧ (∀ a : Byte, gfmul a 0 = 0 ∧ gfmul a 1 = a
      ∧ gfmul a 0x02 = (a <<< 1) ^^^ (if a.getLsbD 7 then 0x1D else 0x00))
  ∧ (∀ a : Byte, a ≠ 0 → ∃ b, gfmul a b = 1)
  ∧ ∀ n, 0 < n → n ≤ 255 → ((gfmul 0x02)^[n] 1 = 1 ↔ n = 255)

/-! ## Permutation engine -/

/-- R131, R140: ARC_P. -/
def Obligations.ArcPXorsRowZero : Prop :=
  ∀ (s : State) (i : Nat), State.HasContext s →
    ∃ t, exec (.arcP i) s = .next t
      ∧ t = { s with hashState := t.hashState, done := true, phase := .idle }
      ∧ (∀ c, c < State.cols s →
          State.cellAt t 0 c = State.cellAt s 0 c ^^^ (BitVec.ofNat 8 (c * 0x10) ^^^ BitVec.ofNat 8 i)
            ∧ ∀ r : Fin 8, r ≠ 0 → State.cellAt t r c = State.cellAt s r c)
      ∧ (∀ k, State.nb s ≤ k → State.stateByte t k = State.stateByte s k)
      ∧ ∃ u, exec (.arcP i) t = .next u ∧ u.hashState = s.hashState

/-- R132, R141: ARC_Q adds the constant to every column modulo 2^64. -/
def Obligations.ArcQAddsToColumns : Prop :=
  ∀ (s : State) (i : Nat), State.HasContext s → i < 256 →
    ∃ t, exec (.arcQ i) s = .next t
      ∧ t = { s with hashState := t.hashState, done := true, phase := .idle }
      ∧ (∀ c, c < State.cols s →
          State.columnValue t c =
            (State.columnValue s c
              + (0x00F0F0F0F0F0F0F3 ^^^ ((((State.cols s - c - 1) * 0x10) ^^^ i) * 2 ^ 56))) % 2 ^ 64)
      ∧ ∀ k, State.nb s ≤ k → State.stateByte t k = State.stateByte s k

/-- R133, R142: SUB replaces the byte at row r by its entry in table r mod 4. -/
def Obligations.SubUsesTableOfRow : Prop :=
  ∀ s : State, State.HasContext s →
    ∃ t, exec .sub s = .next t
      ∧ t = { s with hashState := t.hashState, done := true, phase := .idle }
      ∧ (∀ (r : Fin 8) (c : Nat), c < State.cols s →
          State.cellAt t r c = sboxAt s.rom ⟨r.val % 4, Nat.mod_lt r.val (Nat.succ_pos 3)⟩ (State.cellAt s r c))
      ∧ ∀ k, State.nb s ≤ k → State.stateByte t k = State.stateByte s k

/-- R134, R143: SHIFT rotates row r by δ_r columns, in the direction ROT_DIR. -/
def Obligations.ShiftRotatesRows : Prop :=
  ∀ s : State, State.HasContext s →
    ∃ t, exec .shift s = .next t
      ∧ t = { s with hashState := t.hashState, done := true, phase := .idle }
      ∧ (∀ (r : Fin 8) (c d : Nat), c < State.cols s →
          d = (if s.cfg.large = true ∧ r = 7 then 11 else r.val) →
          (s.params.rotDir = .towardLower → State.cellAt t r c = State.cellAt s r ((c + d) % State.cols s))
            ∧ (s.params.rotDir = .towardHigher → State.cellAt t r ((c + d) % State.cols s) = State.cellAt s r c))
      ∧ ∀ k, State.nb s ≤ k → State.stateByte t k = State.stateByte s k

/-- R135, R144: MIX replaces every column by its product with the matrix, from the column's input bytes. -/
def Obligations.MixMultipliesColumns : Prop :=
  ∀ s : State, State.HasContext s →
    ∃ t, exec .mix s = .next t
      ∧ t = { s with hashState := t.hashState, done := true, phase := .idle }
      ∧ (∀ (r : Fin 8) (c : Nat), c < State.cols s →
          State.cellAt t r c =
            gfmul (mdsAt s.rom r 0) (State.cellAt s 0 c) ^^^ gfmul (mdsAt s.rom r 1) (State.cellAt s 1 c)
              ^^^ gfmul (mdsAt s.rom r 2) (State.cellAt s 2 c) ^^^ gfmul (mdsAt s.rom r 3) (State.cellAt s 3 c)
              ^^^ gfmul (mdsAt s.rom r 4) (State.cellAt s 4 c) ^^^ gfmul (mdsAt s.rom r 5) (State.cellAt s 5 c)
              ^^^ gfmul (mdsAt s.rom r 6) (State.cellAt s 6 c) ^^^ gfmul (mdsAt s.rom r 7) (State.cellAt s 7 c))
      ∧ (∀ c, c < State.cols s → (∀ r : Fin 8, State.cellAt s r c = 0) → ∀ r : Fin 8, State.cellAt t r c = 0)
      ∧ ∀ k, State.nb s ≤ k → State.stateByte t k = State.stateByte s k

/-- R137, R145, R146: one round is the injection, SUB, SHIFT, MIX, in that order. -/
def Obligations.RoundIsFourSubTransforms : Prop :=
  ∀ (s : State) (i : Nat), State.HasContext s →
    (∃ t, exec (.rndP i) s = .next t
      ∧ t = { s with hashState := t.hashState, done := true, phase := .idle }
      ∧ execAll [.arcP i, .sub, .shift, .mix] s = .next t)
    ∧ ∃ t, exec (.rndQ i) s = .next t
      ∧ t = { s with hashState := t.hashState, done := true, phase := .idle }
      ∧ execAll [.arcQ i, .sub, .shift, .mix] s = .next t

/-- R138, R147, R148: the permutations are the rounds 0, 1, ..., ROUNDS-1, ten in the small mode and fourteen in
the large. -/
def Obligations.PermutationIsAllRounds : Prop :=
  ∀ s : State, State.HasContext s →
    (∃ t, exec .permP s = .next t
      ∧ t = { s with hashState := t.hashState, done := true, phase := .idle }
      ∧ execAll ((List.range (if s.cfg.large then 14 else 10)).map Instr.rndP) s = .next t)
    ∧ ∃ t, exec .permQ s = .next t
      ∧ t = { s with hashState := t.hashState, done := true, phase := .idle }
      ∧ execAll ((List.range (if s.cfg.large then 14 else 10)).map Instr.rndQ) s = .next t

/-- R139: PERM_P and PERM_Q lose nothing of STATE when every substitution table is injective and the matrix is
invertible over GF(2^8). -/
def Obligations.PermutationsAreInjective : Prop :=
  ∀ (s t u v : State) (inv : Fin 8 → Fin 8 → Byte),
    State.HasContext s → t = { s with hashState := t.hashState } →
    (∀ (k : Fin 4) (x y : Byte), sboxAt s.rom k x = sboxAt s.rom k y → x = y) →
    (∀ r c : Fin 8,
      (List.finRange 8).foldl (fun acc b => acc ^^^ gfmul (inv r b) (mdsAt s.rom b c)) 0 =
        if r = c then 1 else 0) →
    ((exec .permP s = .next u ∧ exec .permP t = .next v) ∨ (exec .permQ s = .next u ∧ exec .permQ t = .next v)) →
    u.hashState = v.hashState → s.hashState = t.hashState

/-! ## Padding -/

/-- R174, R176, R177: the count of zero bytes in closed form, and the length of the padding string: one block up
to a remainder of NB - 13 bytes, two blocks from NB - 12 on. -/
def Obligations.PaddingIsOneOrTwoBlocks : Prop :=
  ∀ (L : DWord) (nb : Nat), nb = 64 ∨ nb = 128 →
    zeroCount nb L = nb - (L.toNat / 8 + 12) % nb - 1
      ∧ padLen nb L = (if L.toNat / 8 % nb + 13 ≤ nb then nb else 2 * nb)
      ∧ (prefixLen nb L + padLen nb L) % nb = 0
      ∧ (L.toNat + 7) / 8 < prefixLen nb L + padLen nb L

/-- R171, R172, R175, R176: what PAD leaves in PADBUF, PAD_NBYTES and DATA_NBYTES. -/
def Obligations.PadBuildsPaddingString : Prop :=
  ∀ (s : State) (nb m e r p : Nat) (q : Byte),
    State.HasContext s → State.MessageInside s →
    nb = State.nb s → m = (State.msgBits s).toNat / 8 → e = (State.msgBits s).toNat % 8 → r = m % nb →
    q = State.dmemByte s (s.msgAddr.toNat + m) → p = (if r + 13 ≤ nb then nb else 2 * nb) →
    ∃ t, exec .pad s = .next t
      ∧ t = { s with
              padbuf := t.padbuf, padNbytes := t.padNbytes, dataNbytes := t.dataNbytes,
              done := true, phase := .idle }
      ∧ t.dataNbytes.toNat = m - r
      ∧ t.padNbytes.toNat = p
      ∧ (∀ k, k < r → State.padByte t k = State.dmemByte s (s.msgAddr.toNat + (m - r) + k))
      ∧ (∀ j, j < 8 →
          (State.padByte t r).getLsbD j = ((decide (8 ≤ j + e) && q.getLsbD j) || decide (j = 7 - e)))
      ∧ (∀ k, r < k → k + 12 < p → State.padByte t k = 0)
      ∧ (∀ j, j < 8 → State.padByte t (p - 12 + j) = (State.msgBits s).extractLsb' (8 * j) 8)
      ∧ ∀ k, p - 4 ≤ k → State.padByte t k = 0

/-- R179: PAD reads only the remainder bytes, and of the partial byte only its e most significant bits count
(R172). -/
def Obligations.PadReadsOnlyTheTail : Prop :=
  ∀ (s t u v : State) (d : Nat), State.HasContext s → State.MessageInside s → t = { s with dmem := t.dmem } →
    exec .pad s = .next u → exec .pad t = .next v → d = u.dataNbytes.toNat →
    (∀ k, k < (State.msgBits s).toNat / 8 - d →
      State.dmemByte s (s.msgAddr.toNat + d + k) = State.dmemByte t (s.msgAddr.toNat + d + k)) →
    (∀ j, j < 8 → 8 ≤ j + (State.msgBits s).toNat % 8 →
      (State.dmemByte s (s.msgAddr.toNat + (State.msgBits s).toNat / 8)).getLsbD j
        = (State.dmemByte t (s.msgAddr.toNat + (State.msgBits s).toNat / 8)).getLsbD j) →
    v = { u with dmem := t.dmem }

/-! ## Compression and output -/

/-- R190: IVLOAD clears all 128 bytes of STATE and sets byte 0 to NB; without a context it raises NOT_INIT. -/
def Obligations.IvloadLoadsInitialValue : Prop :=
  (∀ s : State, State.HasContext s →
    ∃ t, exec .ivload s = .next t
      ∧ t = { s with hashState := t.hashState, done := true, phase := .idle }
      ∧ State.stateByte t 0 = s.cfg.nb
      ∧ ∀ k, 0 < k → State.stateByte t k = 0)
  ∧ ∀ s : State, s.cfg.valid = false →
    exec .ivload s = .next { s with err := true, errCode := .notInit, done := true, phase := .idle }

/-- R191, R193: COMPRESS_BLK folds the block at BLK_ADDR into STATE[0..NB); without a context it raises NOT_INIT,
and RANGE when `b + NB > DMEM_BYTES`. -/
def Obligations.CompressBlkFoldsBlock : Prop :=
  (∀ s : State, State.HasContext s → s.blkAddr.toNat + State.nb s ≤ State.dmemBytes s →
    ∃ t, exec .compressBlk s = .next t
      ∧ t = { s with hashState := t.hashState, done := true, phase := .idle }
      ∧ Compresses s (fun k => State.dmemByte s (s.blkAddr.toNat + k)) (State.stateByte t)
      ∧ ∀ k, State.nb s ≤ k → State.stateByte t k = State.stateByte s k)
  ∧ (∀ s : State, State.HasContext s → State.dmemBytes s < s.blkAddr.toNat + State.nb s →
    exec .compressBlk s = .next { s with err := true, errCode := .range, done := true, phase := .idle })
  ∧ ∀ s : State, s.cfg.valid = false →
    exec .compressBlk s = .next { s with err := true, errCode := .notInit, done := true, phase := .idle }

/-- R194: COMPRESS_PAD compresses the blocks of PADBUF: none, one or two (PAD_NBYTES is 0, NB or 2·NB in every
state that meets the invariant); without a context it raises NOT_INIT. -/
def Obligations.CompressPadFoldsPadding : Prop :=
  (∀ s : State, State.HasContext s → s.padNbytes.toNat ∈ [0, State.nb s, 2 * State.nb s] →
    ∃ t, exec .compressPad s = .next t
      ∧ t = { s with hashState := t.hashState, done := true, phase := .idle }
      ∧ (s.padNbytes.toNat = 0 → t.hashState = s.hashState)
      ∧ (s.padNbytes.toNat = State.nb s → Compresses s (State.padByte s) (State.stateByte t))
      ∧ (s.padNbytes.toNat = 2 * State.nb s →
          ∃ v : Nat → Byte, Compresses s (State.padByte s) v
            ∧ Compresses (State.withBytes s v) (fun k => State.padByte s (State.nb s + k)) (State.stateByte t))
      ∧ ∀ k, State.nb s ≤ k → State.stateByte t k = State.stateByte s k)
  ∧ ∀ s : State, s.cfg.valid = false →
    exec .compressPad s = .next { s with err := true, errCode := .notInit, done := true, phase := .idle }

/-- R210: OUTXF XORs STATE with P of it; without a context it raises NOT_INIT. -/
def Obligations.OutxfXorsWithPermutation : Prop :=
  (∀ s : State, State.HasContext s →
    ∃ t x, exec .outxf s = .next t ∧ exec .permP s = .next x
      ∧ t = { s with hashState := t.hashState, done := true, phase := .idle }
      ∧ (∀ k, k < State.nb s → State.stateByte t k = State.stateByte s k ^^^ State.stateByte x k)
      ∧ ∀ k, State.nb s ≤ k → State.stateByte t k = State.stateByte s k)
  ∧ ∀ s : State, s.cfg.valid = false →
    exec .outxf s = .next { s with err := true, errCode := .notInit, done := true, phase := .idle }

/-- R211: TRUNC copies the trailing OUT_BITS/8 bytes of the hash state to DIGEST and clears the rest; without a
context it raises NOT_INIT. -/
def Obligations.TruncCopiesTrailingBytes : Prop :=
  (∀ (s : State) (h : Nat), State.HasContext s → h = s.cfg.outBits.toNat / 8 →
    ∃ t, exec .trunc s = .next t
      ∧ t = { s with digest := t.digest, done := true, phase := .idle }
      ∧ 2 * h ≤ State.nb s
      ∧ (∀ k, k < h → State.digestByte t k = State.stateByte s (State.nb s - h + k))
      ∧ ∀ k, h ≤ k → State.digestByte t k = 0)
  ∧ ∀ s : State, s.cfg.valid = false →
    exec .trunc s = .next { s with err := true, errCode := .notInit, done := true, phase := .idle }

/-! ## KMAC -/

/-- R224, R227: the length of the synthetic buffer, from the lengths alone; it is below 2^32 whenever the checks
pass, and the key's prefix is empty unless a 512-bit key meets the small mode. -/
def Obligations.SyntheticLengthBounds : Prop :=
  ∀ s : State, State.MacReady s →
    State.synLen s < 2 ^ 32
      ∧ 2 * State.nb s + 32 ≤ State.synLen s
      ∧ (State.synLen s - s.keyBits.toNat / 8) % State.nb s = 0
      ∧ prefixLen (State.nb s) (State.keyLen s) = (if s.keyBits.toNat = 512 ∧ State.nb s = 64 then 64 else 0)
      ∧ padLen (State.nb s) (State.keyLen s) = State.nb s

/-- R221, R222, R223, R226: KMAC_BUILD writes the five parts of the synthetic buffer, leaves every other byte of
DMEM alone, and leaves the message's padding in PADBUF. The paddings are those PAD makes of the key and of the
message. -/
def Obligations.KmacBuildWritesSyntheticBuffer : Prop :=
  ∀ (s : State) (kb kd nb md mp base : Nat), State.MacReady s →
    kb = s.keyBits.toNat / 8 → nb = State.nb s → kd = (if kb = nb then nb else 0) →
    base = s.synAddr.toNat →
    ∃ t x y,
      exec .kmacBuild s = .next t
        ∧ exec .pad { s with msgAddr := s.keyAddr, msgBitsLo := s.keyBits, msgBitsHi := 0 } = .next x
        ∧ exec .pad s = .next y
        ∧ (md = y.dataNbytes.toNat → mp = y.padNbytes.toNat →
            (∀ k, k < kd → State.dmemByte t (base + k) = State.dmemByte s (s.keyAddr.toNat + k))
              ∧ (∀ k, k < nb → State.dmemByte t (base + kd + k) = State.padByte x k)
              ∧ (∀ k, k < md →
                  State.dmemByte t (base + kd + nb + k) = State.dmemByte s (s.msgAddr.toNat + k))
              ∧ (∀ k, k < mp → State.dmemByte t (base + kd + nb + md + k) = State.padByte y k)
              ∧ (∀ k, k < kb →
                  State.dmemByte t (base + kd + nb + md + mp + k) =
                    State.dmemByte s (s.keyAddr.toNat + k) ^^^ 0xFF)
              ∧ (∀ a, a < base ∨ base + (kd + nb + md + mp + kb) ≤ a → State.dmemByte t a = State.dmemByte s a)
              ∧ t.synNbytes.toNat = kd + nb + md + mp + kb)
        ∧ t = { s with
                dmem := t.dmem, synNbytes := t.synNbytes, padbuf := y.padbuf, padNbytes := y.padNbytes,
                dataNbytes := y.dataNbytes, done := true, phase := .idle }

/-! ## Entry commands -/

/-- R240: INIT with a valid length loads the context (W-1: CFG is `0x40A10000 | n` up to 256 bits and
`0x80E30000 | n` above); with an invalid one it raises CFG_OUTBITS and keeps the old context. -/
def Obligations.InitLoadsContextOrRejects : Prop :=
  (∀ (s : State) (n : Nat), n = s.argOutbits.toNat → n % 8 = 0 → 8 ≤ n → n ≤ 512 →
    ∃ t, exec .init s = .next t
      ∧ t = { s with
              cfg := t.cfg, hashState := t.hashState, padbuf := t.padbuf, padNbytes := 0, dataNbytes := 0,
              done := true, phase := .idle }
      ∧ (Cfg.word t.cfg).toNat = (if n ≤ 256 then 0x40A10000 else 0x80E30000) + n
      ∧ t.cfg.valid = true ∧ t.cfg.outBits.toNat = n ∧ (t.cfg.large = true ↔ 256 < n)
      ∧ t.cfg.rounds.toNat = (if n ≤ 256 then 10 else 14) ∧ t.cfg.nb.toNat = (if n ≤ 256 then 64 else 128)
      ∧ State.stateByte t 0 = t.cfg.nb
      ∧ (∀ k, 0 < k → State.stateByte t k = 0)
      ∧ ∀ k, State.padByte t k = 0)
  ∧ ∀ s : State, s.argOutbits.toNat % 8 ≠ 0 ∨ s.argOutbits.toNat < 8 ∨ 512 < s.argOutbits.toNat →
      exec .init s = .next { s with err := true, errCode := .cfgOutbits, done := true, phase := .idle }

/-- R247, R242: HASH gives what the unit commands give, one after another; BLK_ADDR alone differs. -/
def Obligations.HashEqualsUnitCommands : Prop :=
  ∀ s : State, State.HasContext s → State.MessageInside s →
    ∃ t u, exec .hash s = .next t
      ∧ t = { s with
              hashState := t.hashState, padbuf := t.padbuf, padNbytes := t.padNbytes,
              dataNbytes := t.dataNbytes, digest := t.digest, done := true, phase := .idle }
      ∧ hashByUnits s = .next u
      ∧ t = { u with blkAddr := s.blkAddr }

/-- R243, R244, R247: MAC gives what KMAC_BUILD and then HASH of the synthetic buffer give; only MSG_ADDR and
MSG_BITS differ. Its padding is always one block. -/
def Obligations.MacEqualsBuildThenHash : Prop :=
  ∀ s : State, State.MacReady s →
    ∃ t b u, exec .mac s = .next t
      ∧ exec .kmacBuild s = .next b
      ∧ exec .hash
          { b with
            msgAddr := s.synAddr
            msgBitsLo := BitVec.ofNat 32 (8 * b.synNbytes.toNat % 2 ^ 32)
            msgBitsHi := BitVec.ofNat 32 (8 * b.synNbytes.toNat / 2 ^ 32) } = .next u
      ∧ t = { u with msgAddr := s.msgAddr, msgBitsLo := s.msgBitsLo, msgBitsHi := s.msgBitsHi }
      ∧ t.padNbytes.toNat = State.nb s

/-! ## Reset -/

/-- R291: what reset leaves: every register the host can read is 0 at every offset, the core is idle, and IRQ
is 0; DMEM is a free function from address to byte. That asserting reset keeps every byte of DMEM, the written ones
included, is the model's reading (DEDUCED: log entry 7; R291 calls DMEM after reset unspecified as well). -/
def Obligations.ResetClearsRegisters : Prop :=
  (∀ off : BitVec 12, (applyInput (.regRead off) State.reset).rdata = some 0)
  ∧ State.reset.phase = .idle ∧ State.irq State.reset = false ∧ State.reset.cfg.valid = false
  ∧ State.reset.rom = Config.rom
  ∧ (∀ a, State.dmemByte State.reset a = Config.dmemInit a)
  ∧ ∀ (s : State) (a : Nat), State.dmemByte (applyInput .resetAssert s) a = State.dmemByte s a

/-- R290, R292: asserting the reset input puts the core in the reset state at once, whatever the phase, abandons a
running command, and keeps DMEM and ROM; while it is held writes do nothing and reads return 0; releasing it
leaves the core IDLE. The model's own readings: DMEM keeps its written bytes (DEDUCED: log entry 7); an access under
reset sets no DROP and draws nothing, and only an asserted reset is released (DEDUCED: log entry 13); the schedule, the
word last read and the count of draws, which are the model's fields, are kept (log entries 1, 2 and 4). -/
def Obligations.ResetInputHolds : Prop :=
  (∀ s : State,
    applyInput .resetAssert s =
      { State.resetWith s.params s.rom with
        dmem := s.dmem, resetHeld := true, schedule := s.schedule, rdata := s.rdata, draws := s.draws })
  ∧ (∀ (s : State) (x : Input), s.resetHeld = true →
      (x.isWrite = true → applyInput x s = s)
        ∧ (x.isRead = true → applyInput x s = { s with rdata := some 0 }))
  ∧ ∀ s : State, s.resetHeld = true → applyInput .resetRelease s = { s with resetHeld := false, phase := .idle }

/-! ## The host's port -/

/-- R64: a host write to any offset of REG or any address of DMEM while BUSY = 1 is dropped and sets DROP. -/
def Obligations.BusyWritesAreDropped : Prop :=
  ∀ (s : State) (w : Word) (x : Input), s.phase = .running w → s.resetHeld = false → x.isWrite = true →
    applyInput x s = { s with drop := true }

/-- R65: while BUSY = 1 the result registers, the windows and DMEM read as a fresh unspecified word; CTRL, STATUS,
CFG, CMD and the argument registers read by the normal rules; once BUSY is 0 nothing is drawn, and what is read
does not depend on the draws. R71: no read has a side effect on the core. The model's own: a draw is a function of a
counter in State (DESIGN CHOICE: log entry 4), and a DMEM word with any byte below DMEM_BYTES is unspecified in all 32
bits (DEDUCED: log entry 6). -/
def Obligations.BusyReadsAreUnspecified : Prop :=
  ∀ (s : State) (w : Word), s.phase = .running w → s.resetHeld = false →
    (∀ off : BitVec 12,
      (0x034 ≤ off.toNat ∧ off.toNat < 0x048) ∨ (0x100 ≤ off.toNat ∧ off.toNat < 0x180)
        ∨ (0x200 ≤ off.toNat ∧ off.toNat < 0x340) →
      applyInput (.regRead off) s = { s with rdata := some (Config.busyRead s.draws), draws := s.draws + 1 })
    ∧ (∀ addr : Word, addr.toNat / 4 * 4 < State.dmemBytes s →
      applyInput (.dmemRead addr) s = { s with rdata := some (Config.busyRead s.draws), draws := s.draws + 1 })
    ∧ applyInput (.regRead 0x000) s = { s with rdata := some (ctrlWord s) }
    ∧ applyInput (.regRead 0x004) s = { s with rdata := some 0 }
    ∧ applyInput (.regRead 0x008) s = { s with rdata := some (statusWord s) }
    ∧ applyInput (.regRead 0x00C) s = { s with rdata := some (Cfg.word s.cfg) }
    ∧ (∀ off : BitVec 12, 0x010 ≤ off.toNat → off.toNat < 0x034 →
      ∃ v, applyInput (.regRead off) s = { s with rdata := some v }
        ∧ applyInput (.regRead off) { s with phase := .idle } = { s with phase := .idle, rdata := some v })
    ∧ ∀ (off : BitVec 12) (addr : Word),
      (applyInput (.regRead off) { s with phase := .idle }).draws = s.draws
        ∧ (applyInput (.dmemRead addr) { s with phase := .idle }).draws = s.draws
        ∧ ∀ n, (applyInput (.regRead off) { s with phase := .idle, draws := n }).rdata =
              (applyInput (.regRead off) { s with phase := .idle }).rdata
            ∧ (applyInput (.dmemRead addr) { s with phase := .idle, draws := n }).rdata =
              (applyInput (.dmemRead addr) { s with phase := .idle }).rdata

/-- R26, R38: STATUS shows BUSY, DONE, ERR, DROP and ERRCODE, and a host write of 1 to bit 1, 2 or 3 while idle
clears that bit and nothing else; ERRCODE becomes 0 only when a command starts or reset is asserted. R261: the
value of each code. R41: IRQ is IE and DONE. That a bit is cleared only where its byte lane, lane 0, is enabled is the model's reading (DEDUCED: log
entry 11). -/
def Obligations.StatusReadAndAcknowledge : Prop :=
  (∀ s : State,
    (statusWord s).toNat =
        (State.busy s).toNat + 2 * s.done.toNat + 4 * s.err.toNat + 8 * s.drop.toNat
          + 256 * s.errCode.code.toNat
      ∧ State.irq s = (s.ie && s.done))
  ∧ [ErrCode.noError, .cfgOutbits, .macOutbits, .macKeybits, .notInit, .illegalCmd, .range, .overlap].map ErrCode.code =
    [0, 1, 2, 3, 4, 5, 6, 7]
  ∧ (∀ (s : State) (off : BitVec 12) (data : Word) (strb : BitVec 4), s.phase = .idle → s.resetHeld = false →
    off.toNat / 4 = 2 →
    applyInput (.regWrite off data strb) s =
      { s with
        done := s.done && !(data.getLsbD 1 && strb.getLsbD 0)
        err := s.err && !(data.getLsbD 2 && strb.getLsbD 0)
        drop := s.drop && !(data.getLsbD 3 && strb.getLsbD 0) })
  ∧ ∀ s t : State, step s = .next t → s.errCode ≠ .noError → t.errCode = .noError →
    s.schedule.head? = some (.input .resetAssert) ∨ (s.phase = .idle ∧ ∃ w, t.phase = .running w)

/-- R24, R36, R60: a writable register or STATE word reads back what was written on the enabled lanes and what it
held on the others (CTRL has bit 0, GF_OPS bits 15:0, the others 32 bits; reserved bits read 0), and no other word
of REG and no byte of DMEM changes. -/
def Obligations.RegisterWriteThenRead : Prop :=
  ∀ (s : State) (off : BitVec 12) (data : Word) (strb : BitVec 4) (width : Nat),
    s.phase = .idle → s.resetHeld = false →
    (off.toNat / 4 = 0 ∨ (0x010 ≤ off.toNat ∧ off.toNat < 0x034) ∨ (0x100 ≤ off.toNat ∧ off.toNat < 0x180)) →
    width = (if off.toNat / 4 = 0 then 1 else if off.toNat / 4 = 12 then 16 else 32) →
    (∃ v w, (applyInput (.regRead off) s).rdata = some v
      ∧ (applyInput (.regRead off) (applyInput (.regWrite off data strb) s)).rdata = some w
      ∧ ∀ j, j < 32 →
          w.getLsbD j =
            if j < width then (if strb.getLsbD (j / 8) then data.getLsbD j else v.getLsbD j) else false)
    ∧ (∀ off' : BitVec 12, off'.toNat / 4 ≠ off.toNat / 4 →
        (applyInput (.regRead off') (applyInput (.regWrite off data strb) s)).rdata
          = (applyInput (.regRead off') s).rdata)
    ∧ (applyInput (.regWrite off data strb) s).dmem = s.dmem

/-- R66, R24, R36: which register the word at each offset is that the host can write, ARG_OUTBITS at 0x010 to GF_OPS
at 0x030, with A in bits 7:0 of GF_OPS and B in bits 15:8: while idle a read shows the field the commands read, and a
write changes that field alone, on the enabled lanes; a write at a word of the STATE window changes STATE's bytes of
that word alone. R25, R26, R28, R33, R34, R37: what the registers the host only reads show. -/
def Obligations.RegisterMapNamesFields : Prop :=
  ∀ (s : State) (off : BitVec 12) (data : Word) (strb : BitVec 4), s.phase = .idle → s.resetHeld = false →
    (off.toNat / 4 * 4 = 0x000 →
      applyInput (.regRead off) s = { s with rdata := some (if s.ie then 1 else 0) }
        ∧ applyInput (.regWrite off data strb) s =
          { s with ie := if strb.getLsbD 0 then data.getLsbD 0 else s.ie })
    ∧ (off.toNat / 4 * 4 = 0x004 → applyInput (.regRead off) s = { s with rdata := some 0 })
    ∧ (off.toNat / 4 * 4 = 0x008 → applyInput (.regRead off) s = { s with rdata := some (statusWord s) })
    ∧ (off.toNat / 4 * 4 = 0x00C →
      ∃ v : Word, applyInput (.regRead off) s = { s with rdata := some v }
        ∧ v.toNat =
          s.cfg.outBits.toNat + 2 ^ 16 * s.cfg.valid.toNat + 2 ^ 17 * s.cfg.large.toNat
            + 2 ^ 20 * s.cfg.rounds.toNat + 2 ^ 24 * s.cfg.nb.toNat)
    ∧ (off.toNat / 4 * 4 = 0x010 →
      applyInput (.regRead off) s = { s with rdata := some s.argOutbits }
        ∧ ∃ v, LanesWritten s.argOutbits data strb v ∧ applyInput (.regWrite off data strb) s = { s with argOutbits := v })
    ∧ (off.toNat / 4 * 4 = 0x014 →
      applyInput (.regRead off) s = { s with rdata := some s.msgAddr }
        ∧ ∃ v, LanesWritten s.msgAddr data strb v ∧ applyInput (.regWrite off data strb) s = { s with msgAddr := v })
    ∧ (off.toNat / 4 * 4 = 0x018 →
      applyInput (.regRead off) s = { s with rdata := some s.msgBitsLo }
        ∧ ∃ v, LanesWritten s.msgBitsLo data strb v ∧ applyInput (.regWrite off data strb) s = { s with msgBitsLo := v })
    ∧ (off.toNat / 4 * 4 = 0x01C →
      applyInput (.regRead off) s = { s with rdata := some s.msgBitsHi }
        ∧ ∃ v, LanesWritten s.msgBitsHi data strb v ∧ applyInput (.regWrite off data strb) s = { s with msgBitsHi := v })
    ∧ (off.toNat / 4 * 4 = 0x020 →
      applyInput (.regRead off) s = { s with rdata := some s.keyAddr }
        ∧ ∃ v, LanesWritten s.keyAddr data strb v ∧ applyInput (.regWrite off data strb) s = { s with keyAddr := v })
    ∧ (off.toNat / 4 * 4 = 0x024 →
      applyInput (.regRead off) s = { s with rdata := some s.keyBits }
        ∧ ∃ v, LanesWritten s.keyBits data strb v ∧ applyInput (.regWrite off data strb) s = { s with keyBits := v })
    ∧ (off.toNat / 4 * 4 = 0x028 →
      applyInput (.regRead off) s = { s with rdata := some s.synAddr }
        ∧ ∃ v, LanesWritten s.synAddr data strb v ∧ applyInput (.regWrite off data strb) s = { s with synAddr := v })
    ∧ (off.toNat / 4 * 4 = 0x02C →
      applyInput (.regRead off) s = { s with rdata := some s.blkAddr }
        ∧ ∃ v, LanesWritten s.blkAddr data strb v ∧ applyInput (.regWrite off data strb) s = { s with blkAddr := v })
    ∧ (off.toNat / 4 * 4 = 0x030 →
      applyInput (.regRead off) s = { s with rdata := some (s.gfOps.setWidth 32) }
        ∧ ∃ v, LanesWritten (s.gfOps.setWidth 32) data strb v
          ∧ applyInput (.regWrite off data strb) s = { s with gfOps := v.setWidth 16 })
    ∧ (off.toNat / 4 * 4 = 0x034 →
      applyInput (.regRead off) s = { s with rdata := some (s.gfRes.setWidth 32) })
    ∧ (off.toNat / 4 * 4 = 0x038 → applyInput (.regRead off) s = { s with rdata := some s.synNbytes })
    ∧ (off.toNat / 4 * 4 = 0x03C →
      applyInput (.regRead off) s = { s with rdata := some (s.padNbytes.setWidth 32) })
    ∧ (off.toNat / 4 * 4 = 0x040 →
      applyInput (.regRead off) s = { s with rdata := some (s.dataNbytes.setWidth 32) })
    ∧ (off.toNat / 4 * 4 = 0x044 →
      applyInput (.regRead off) s = { s with rdata := some ((s.dataNbytes >>> 32).setWidth 32) })
    ∧ (0x100 ≤ off.toNat → off.toNat < 0x180 →
      ∃ t, applyInput (.regWrite off data strb) s = t ∧ t = { s with hashState := t.hashState }
        ∧ ∀ k, State.stateByte t k =
            if off.toNat / 4 * 4 ≤ 0x100 + k ∧ 0x100 + k < off.toNat / 4 * 4 + 4
                ∧ strb.getLsbD (0x100 + k - off.toNat / 4 * 4) = true then
              data.extractLsb' (8 * (0x100 + k - off.toNat / 4 * 4)) 8
            else State.stateByte s k)

/-- R67: an unmapped offset reads 0; a write to an unmapped offset, a read-only register or a read-only window is
ignored while the core is idle, and sets DROP while it is busy; reserved bits read 0. That an unmapped offset reads 0
while BUSY = 1 too is the model's reading (DEDUCED: log entry 12). -/
def Obligations.UnmappedAndReadOnly : Prop :=
  (∀ (s : State) (off : BitVec 12),
    (0x048 ≤ off.toNat ∧ off.toNat < 0x100) ∨ (0x180 ≤ off.toNat ∧ off.toNat < 0x200) ∨ 0x340 ≤ off.toNat →
    applyInput (.regRead off) s = { s with rdata := some 0 })
  ∧ (∀ (s : State) (off : BitVec 12) (data : Word) (strb : BitVec 4), s.resetHeld = false →
    off.toNat / 4 = 3 ∨ (0x034 ≤ off.toNat ∧ off.toNat < 0x100) ∨ 0x180 ≤ off.toNat →
    (s.phase = .idle → applyInput (.regWrite off data strb) s = s)
      ∧ (State.busy s = true → applyInput (.regWrite off data strb) s = { s with drop := true }))
  ∧ ∀ (s : State) (off : BitVec 12) (mask : Word), s.phase = .idle →
    (off, mask) ∈
      [(0x000, 0xFFFFFFFE), (0x008, 0xFFFFF0F0), (0x00C, 0x000CFC00), (0x030, 0xFFFF0000), (0x034, 0xFFFFFF00),
        (0x03C, 0xFFFFFE00)] →
    ∃ v, (applyInput (.regRead off) s).rdata = some v ∧ v &&& mask = 0

/-- R63: the windows are little-endian: the word at byte index 4i of a window holds byte W[4i + j] in bits
8j+7 : 8j; a DMEM word likewise; a 64-bit pair has bits 31:0 in _LO and bits 63:32 in _HI. -/
def Obligations.HostWordsAreLittleEndian : Prop :=
  ∀ (s : State) (off : BitVec 12) (addr : Word) (j : Nat), s.phase = .idle → s.resetHeld = false → j < 4 →
    (0x100 ≤ off.toNat → off.toNat < 0x180 →
      ((applyInput (.regRead off) s).rdata.map fun v => v.extractLsb' (8 * j) 8) =
        some (State.stateByte s ((off.toNat - 0x100) / 4 * 4 + j)))
    ∧ (0x200 ≤ off.toNat → off.toNat < 0x300 →
      ((applyInput (.regRead off) s).rdata.map fun v => v.extractLsb' (8 * j) 8) =
        some (State.padByte s ((off.toNat - 0x200) / 4 * 4 + j)))
    ∧ (0x300 ≤ off.toNat → off.toNat < 0x340 →
      ((applyInput (.regRead off) s).rdata.map fun v => v.extractLsb' (8 * j) 8) =
        some (State.digestByte s ((off.toNat - 0x300) / 4 * 4 + j)))
    ∧ (addr.toNat / 4 * 4 + j < State.dmemBytes s →
      ((applyInput (.dmemRead addr) s).rdata.map fun v => v.extractLsb' (8 * j) 8) =
        some (State.dmemByte s (addr.toNat / 4 * 4 + j)))
    ∧ ((applyInput (.regRead 0x040) s).rdata.map fun v => v.toNat) = some (s.dataNbytes.toNat % 2 ^ 32)
    ∧ ((applyInput (.regRead 0x044) s).rdata.map fun v => v.toNat) = some (s.dataNbytes.toNat / 2 ^ 32)
    ∧ ((applyInput (.regRead 0x018) s).rdata.map fun v => v.toNat) = some ((State.msgBits s).toNat % 2 ^ 32)
    ∧ ((applyInput (.regRead 0x01C) s).rdata.map fun v => v.toNat) = some ((State.msgBits s).toNat / 2 ^ 32)

/-- R61, R63: a DMEM write stores the enabled byte lanes that lie below DMEM_BYTES and leaves every other byte
alone; a DMEM read shows the bytes little-endian, and 0x00 at and above DMEM_BYTES. -/
def Obligations.DmemWordAccess : Prop :=
  ∀ (s : State) (addr : Word), s.phase = .idle → s.resetHeld = false →
    (∀ (data : Word) (strb : BitVec 4) (a : Nat),
      State.dmemByte (applyInput (.dmemWrite addr data strb) s) a =
        if addr.toNat / 4 * 4 ≤ a ∧ a < addr.toNat / 4 * 4 + 4 ∧ a < State.dmemBytes s
            ∧ strb.getLsbD (a - addr.toNat / 4 * 4) = true then
          data.extractLsb' (8 * (a - addr.toNat / 4 * 4)) 8
        else State.dmemByte s a)
    ∧ (∀ (data : Word) (strb : BitVec 4),
      applyInput (.dmemWrite addr data strb) s =
        { s with dmem := (applyInput (.dmemWrite addr data strb) s).dmem })
    ∧ ∀ j, j < 4 →
      ((applyInput (.dmemRead addr) s).rdata.map fun v => v.extractLsb' (8 * j) 8) =
        some (if addr.toNat / 4 * 4 + j < State.dmemBytes s then State.dmemByte s (addr.toNat / 4 * 4 + j) else 0)

/-- R99: WAIT reads STATUS until a read returns BUSY = 0. On an idle core that is its first read; while a command
runs it goes on, and the command ends after `polls` such reads, a number that is data of the schedule (log entry
1). -/
def Obligations.WaitPollsUntilIdle : Prop :=
  ∀ (s : State) (polls : Nat) (rest : List Turn),
    lineTurns (.wait polls) = [.wait polls]
    ∧ (s.resetHeld = false → s.schedule = .wait polls :: rest →
      (s.phase = .idle →
        step s = .next { s with rdata := some (statusWord s), schedule := rest } ∧ (statusWord s).toNat % 2 = 0)
      ∧ ∀ w, s.phase = .running w →
        (0 < polls →
          step s = .next { s with rdata := some (statusWord s), schedule := .wait (polls - 1) :: rest }
            ∧ (statusWord s).toNat % 2 = 1)
        ∧ (polls = 0 → step s = coreTurn s)
        ∧ ∃ t, coreTurn s = .next t
          ∧ Host.Core.run Sys2Proof.core (polls + 2) s =
              .next { t with rdata := some (statusWord t), schedule := rest }
          ∧ (statusWord t).toNat % 2 = 0)

/-- R99, from an idle machine: CLR clears DONE, ERR and DROP; SET64 MSG_BITS leaves the 64-bit value in the pair, and
SET64 DATA_NBYTES changes nothing, the pair being read-only; LOADB writes its bytes from its address on, those below
DMEM_BYTES, and no other byte (its well-formedness is the model's: log entries 14 and 21). -/
def Obligations.PseudoWritesTakeEffect : Prop :=
  ∀ s : State, s.phase = .idle → s.resetHeld = false →
    Host.Core.run Sys2Proof.core 1 (State.withProgram [.clr] s) =
      .next { s with done := false, err := false, drop := false }
    ∧ (∀ v, (Line.set64 .msgBits v).wellFormed = true →
      ∃ t, Host.Core.run Sys2Proof.core 2 (State.withProgram [.set64 .msgBits v] s) = .next t
        ∧ t = { s with msgBitsLo := t.msgBitsLo, msgBitsHi := t.msgBitsHi } ∧ (State.msgBits t).toNat = v)
    ∧ (∀ v, (Line.set64 .dataNbytes v).wellFormed = true →
      Host.Core.run Sys2Proof.core 2 (State.withProgram [.set64 .dataNbytes v] s) = .next s)
    ∧ ∀ (addr : Nat) (bytes : List Nat), (Line.loadb addr bytes).wellFormed = true →
      ∃ t, Host.Core.run Sys2Proof.core ((bytes.length + 3) / 4) (State.withProgram [.loadb addr bytes] s) = .next t
        ∧ t = { s with dmem := t.dmem }
        ∧ ∀ a, State.dmemByte t a =
            if addr ≤ a ∧ a < addr + bytes.length ∧ a < State.dmemBytes s then BitVec.ofNat 8 (bytes.getD (a - addr) 0)
            else State.dmemByte s a

/-- R99: `DO <MNEMONIC>` from an idle machine, with any number of polls, ends in the state the command leaves, and
its last read returns that state's STATUS with BUSY = 0. -/
def Obligations.DoLineRunsCommand : Prop :=
  ∀ (s : State) (i : Instr) (polls : Nat), s.phase = .idle → s.resetHeld = false → i.wellFormed = true →
    ∃ t u,
      exec i { s with phase := .running (encode i), done := false, err := false, errCode := .noError } = .next t
        ∧ Host.Core.run Sys2Proof.core (polls + 3) (State.withProgram [.doCmd i polls] s) = .next u
        ∧ u = { t with rdata := some (statusWord t) }
        ∧ (statusWord u).toNat % 2 = 0
end

