-- ==== Sys2Proof/Laws/State.lean ====
section
/-! SUPPORT. One lemma per field per update: what each shared operation leaves in each field of State. -/

namespace Sys2Proof.Machine

open Sys2Proof

/-! ## State.putHashState -/

@[simp] theorem State.putHashState_ie (v : List Byte) (s : State) : (State.putHashState v s).ie = s.ie := rfl
@[simp] theorem State.putHashState_done (v : List Byte) (s : State) : (State.putHashState v s).done = s.done := rfl
@[simp] theorem State.putHashState_err (v : List Byte) (s : State) : (State.putHashState v s).err = s.err := rfl
@[simp] theorem State.putHashState_drop (v : List Byte) (s : State) : (State.putHashState v s).drop = s.drop := rfl
@[simp] theorem State.putHashState_errCode (v : List Byte) (s : State) : (State.putHashState v s).errCode = s.errCode := rfl
@[simp] theorem State.putHashState_cfg (v : List Byte) (s : State) : (State.putHashState v s).cfg = s.cfg := rfl
@[simp] theorem State.putHashState_argOutbits (v : List Byte) (s : State) : (State.putHashState v s).argOutbits = s.argOutbits := rfl
@[simp] theorem State.putHashState_msgAddr (v : List Byte) (s : State) : (State.putHashState v s).msgAddr = s.msgAddr := rfl
@[simp] theorem State.putHashState_msgBitsLo (v : List Byte) (s : State) : (State.putHashState v s).msgBitsLo = s.msgBitsLo := rfl
@[simp] theorem State.putHashState_msgBitsHi (v : List Byte) (s : State) : (State.putHashState v s).msgBitsHi = s.msgBitsHi := rfl
@[simp] theorem State.putHashState_keyAddr (v : List Byte) (s : State) : (State.putHashState v s).keyAddr = s.keyAddr := rfl
@[simp] theorem State.putHashState_keyBits (v : List Byte) (s : State) : (State.putHashState v s).keyBits = s.keyBits := rfl
@[simp] theorem State.putHashState_synAddr (v : List Byte) (s : State) : (State.putHashState v s).synAddr = s.synAddr := rfl
@[simp] theorem State.putHashState_blkAddr (v : List Byte) (s : State) : (State.putHashState v s).blkAddr = s.blkAddr := rfl
@[simp] theorem State.putHashState_gfOps (v : List Byte) (s : State) : (State.putHashState v s).gfOps = s.gfOps := rfl
@[simp] theorem State.putHashState_gfRes (v : List Byte) (s : State) : (State.putHashState v s).gfRes = s.gfRes := rfl
@[simp] theorem State.putHashState_synNbytes (v : List Byte) (s : State) : (State.putHashState v s).synNbytes = s.synNbytes := rfl
@[simp] theorem State.putHashState_padNbytes (v : List Byte) (s : State) : (State.putHashState v s).padNbytes = s.padNbytes := rfl
@[simp] theorem State.putHashState_dataNbytes (v : List Byte) (s : State) : (State.putHashState v s).dataNbytes = s.dataNbytes := rfl
@[simp] theorem State.putHashState_hashState (v : List Byte) (s : State) : (State.putHashState v s).hashState = overwrite s.hashState v := rfl
@[simp] theorem State.putHashState_padbuf (v : List Byte) (s : State) : (State.putHashState v s).padbuf = s.padbuf := rfl
@[simp] theorem State.putHashState_digest (v : List Byte) (s : State) : (State.putHashState v s).digest = s.digest := rfl
@[simp] theorem State.putHashState_dmem (v : List Byte) (s : State) : (State.putHashState v s).dmem = s.dmem := rfl
@[simp] theorem State.putHashState_rom (v : List Byte) (s : State) : (State.putHashState v s).rom = s.rom := rfl
@[simp] theorem State.putHashState_phase (v : List Byte) (s : State) : (State.putHashState v s).phase = s.phase := rfl
@[simp] theorem State.putHashState_resetHeld (v : List Byte) (s : State) : (State.putHashState v s).resetHeld = s.resetHeld := rfl
@[simp] theorem State.putHashState_params (v : List Byte) (s : State) : (State.putHashState v s).params = s.params := rfl
@[simp] theorem State.putHashState_schedule (v : List Byte) (s : State) : (State.putHashState v s).schedule = s.schedule := rfl
@[simp] theorem State.putHashState_rdata (v : List Byte) (s : State) : (State.putHashState v s).rdata = s.rdata := rfl
@[simp] theorem State.putHashState_draws (v : List Byte) (s : State) : (State.putHashState v s).draws = s.draws := rfl

/-! ## State.loadHashState -/

@[simp] theorem State.loadHashState_ie (v : List Byte) (s : State) : (State.loadHashState v s).ie = s.ie := rfl
@[simp] theorem State.loadHashState_done (v : List Byte) (s : State) : (State.loadHashState v s).done = s.done := rfl
@[simp] theorem State.loadHashState_err (v : List Byte) (s : State) : (State.loadHashState v s).err = s.err := rfl
@[simp] theorem State.loadHashState_drop (v : List Byte) (s : State) : (State.loadHashState v s).drop = s.drop := rfl
@[simp] theorem State.loadHashState_errCode (v : List Byte) (s : State) : (State.loadHashState v s).errCode = s.errCode := rfl
@[simp] theorem State.loadHashState_cfg (v : List Byte) (s : State) : (State.loadHashState v s).cfg = s.cfg := rfl
@[simp] theorem State.loadHashState_argOutbits (v : List Byte) (s : State) : (State.loadHashState v s).argOutbits = s.argOutbits := rfl
@[simp] theorem State.loadHashState_msgAddr (v : List Byte) (s : State) : (State.loadHashState v s).msgAddr = s.msgAddr := rfl
@[simp] theorem State.loadHashState_msgBitsLo (v : List Byte) (s : State) : (State.loadHashState v s).msgBitsLo = s.msgBitsLo := rfl
@[simp] theorem State.loadHashState_msgBitsHi (v : List Byte) (s : State) : (State.loadHashState v s).msgBitsHi = s.msgBitsHi := rfl
@[simp] theorem State.loadHashState_keyAddr (v : List Byte) (s : State) : (State.loadHashState v s).keyAddr = s.keyAddr := rfl
@[simp] theorem State.loadHashState_keyBits (v : List Byte) (s : State) : (State.loadHashState v s).keyBits = s.keyBits := rfl
@[simp] theorem State.loadHashState_synAddr (v : List Byte) (s : State) : (State.loadHashState v s).synAddr = s.synAddr := rfl
@[simp] theorem State.loadHashState_blkAddr (v : List Byte) (s : State) : (State.loadHashState v s).blkAddr = s.blkAddr := rfl
@[simp] theorem State.loadHashState_gfOps (v : List Byte) (s : State) : (State.loadHashState v s).gfOps = s.gfOps := rfl
@[simp] theorem State.loadHashState_gfRes (v : List Byte) (s : State) : (State.loadHashState v s).gfRes = s.gfRes := rfl
@[simp] theorem State.loadHashState_synNbytes (v : List Byte) (s : State) : (State.loadHashState v s).synNbytes = s.synNbytes := rfl
@[simp] theorem State.loadHashState_padNbytes (v : List Byte) (s : State) : (State.loadHashState v s).padNbytes = s.padNbytes := rfl
@[simp] theorem State.loadHashState_dataNbytes (v : List Byte) (s : State) : (State.loadHashState v s).dataNbytes = s.dataNbytes := rfl
@[simp] theorem State.loadHashState_hashState (v : List Byte) (s : State) : (State.loadHashState v s).hashState = zeroFill 128 v := rfl
@[simp] theorem State.loadHashState_padbuf (v : List Byte) (s : State) : (State.loadHashState v s).padbuf = s.padbuf := rfl
@[simp] theorem State.loadHashState_digest (v : List Byte) (s : State) : (State.loadHashState v s).digest = s.digest := rfl
@[simp] theorem State.loadHashState_dmem (v : List Byte) (s : State) : (State.loadHashState v s).dmem = s.dmem := rfl
@[simp] theorem State.loadHashState_rom (v : List Byte) (s : State) : (State.loadHashState v s).rom = s.rom := rfl
@[simp] theorem State.loadHashState_phase (v : List Byte) (s : State) : (State.loadHashState v s).phase = s.phase := rfl
@[simp] theorem State.loadHashState_resetHeld (v : List Byte) (s : State) : (State.loadHashState v s).resetHeld = s.resetHeld := rfl
@[simp] theorem State.loadHashState_params (v : List Byte) (s : State) : (State.loadHashState v s).params = s.params := rfl
@[simp] theorem State.loadHashState_schedule (v : List Byte) (s : State) : (State.loadHashState v s).schedule = s.schedule := rfl
@[simp] theorem State.loadHashState_rdata (v : List Byte) (s : State) : (State.loadHashState v s).rdata = s.rdata := rfl
@[simp] theorem State.loadHashState_draws (v : List Byte) (s : State) : (State.loadHashState v s).draws = s.draws := rfl

/-! ## State.putPadding -/

@[simp] theorem State.putPadding_ie (p : Padding) (s : State) : (State.putPadding p s).ie = s.ie := rfl
@[simp] theorem State.putPadding_done (p : Padding) (s : State) : (State.putPadding p s).done = s.done := rfl
@[simp] theorem State.putPadding_err (p : Padding) (s : State) : (State.putPadding p s).err = s.err := rfl
@[simp] theorem State.putPadding_drop (p : Padding) (s : State) : (State.putPadding p s).drop = s.drop := rfl
@[simp] theorem State.putPadding_errCode (p : Padding) (s : State) : (State.putPadding p s).errCode = s.errCode := rfl
@[simp] theorem State.putPadding_cfg (p : Padding) (s : State) : (State.putPadding p s).cfg = s.cfg := rfl
@[simp] theorem State.putPadding_argOutbits (p : Padding) (s : State) : (State.putPadding p s).argOutbits = s.argOutbits := rfl
@[simp] theorem State.putPadding_msgAddr (p : Padding) (s : State) : (State.putPadding p s).msgAddr = s.msgAddr := rfl
@[simp] theorem State.putPadding_msgBitsLo (p : Padding) (s : State) : (State.putPadding p s).msgBitsLo = s.msgBitsLo := rfl
@[simp] theorem State.putPadding_msgBitsHi (p : Padding) (s : State) : (State.putPadding p s).msgBitsHi = s.msgBitsHi := rfl
@[simp] theorem State.putPadding_keyAddr (p : Padding) (s : State) : (State.putPadding p s).keyAddr = s.keyAddr := rfl
@[simp] theorem State.putPadding_keyBits (p : Padding) (s : State) : (State.putPadding p s).keyBits = s.keyBits := rfl
@[simp] theorem State.putPadding_synAddr (p : Padding) (s : State) : (State.putPadding p s).synAddr = s.synAddr := rfl
@[simp] theorem State.putPadding_blkAddr (p : Padding) (s : State) : (State.putPadding p s).blkAddr = s.blkAddr := rfl
@[simp] theorem State.putPadding_gfOps (p : Padding) (s : State) : (State.putPadding p s).gfOps = s.gfOps := rfl
@[simp] theorem State.putPadding_gfRes (p : Padding) (s : State) : (State.putPadding p s).gfRes = s.gfRes := rfl
@[simp] theorem State.putPadding_synNbytes (p : Padding) (s : State) : (State.putPadding p s).synNbytes = s.synNbytes := rfl
@[simp] theorem State.putPadding_padNbytes (p : Padding) (s : State) : (State.putPadding p s).padNbytes = BitVec.ofNat 9 p.bytes.length := rfl
@[simp] theorem State.putPadding_dataNbytes (p : Padding) (s : State) : (State.putPadding p s).dataNbytes = BitVec.ofNat 64 p.dataN := rfl
@[simp] theorem State.putPadding_hashState (p : Padding) (s : State) : (State.putPadding p s).hashState = s.hashState := rfl
@[simp] theorem State.putPadding_padbuf (p : Padding) (s : State) : (State.putPadding p s).padbuf = zeroFill 256 p.bytes := rfl
@[simp] theorem State.putPadding_digest (p : Padding) (s : State) : (State.putPadding p s).digest = s.digest := rfl
@[simp] theorem State.putPadding_dmem (p : Padding) (s : State) : (State.putPadding p s).dmem = s.dmem := rfl
@[simp] theorem State.putPadding_rom (p : Padding) (s : State) : (State.putPadding p s).rom = s.rom := rfl
@[simp] theorem State.putPadding_phase (p : Padding) (s : State) : (State.putPadding p s).phase = s.phase := rfl
@[simp] theorem State.putPadding_resetHeld (p : Padding) (s : State) : (State.putPadding p s).resetHeld = s.resetHeld := rfl
@[simp] theorem State.putPadding_params (p : Padding) (s : State) : (State.putPadding p s).params = s.params := rfl
@[simp] theorem State.putPadding_schedule (p : Padding) (s : State) : (State.putPadding p s).schedule = s.schedule := rfl
@[simp] theorem State.putPadding_rdata (p : Padding) (s : State) : (State.putPadding p s).rdata = s.rdata := rfl
@[simp] theorem State.putPadding_draws (p : Padding) (s : State) : (State.putPadding p s).draws = s.draws := rfl

/-! ## State.putDigest -/

@[simp] theorem State.putDigest_ie (h : List Byte) (s : State) : (State.putDigest h s).ie = s.ie := rfl
@[simp] theorem State.putDigest_done (h : List Byte) (s : State) : (State.putDigest h s).done = s.done := rfl
@[simp] theorem State.putDigest_err (h : List Byte) (s : State) : (State.putDigest h s).err = s.err := rfl
@[simp] theorem State.putDigest_drop (h : List Byte) (s : State) : (State.putDigest h s).drop = s.drop := rfl
@[simp] theorem State.putDigest_errCode (h : List Byte) (s : State) : (State.putDigest h s).errCode = s.errCode := rfl
@[simp] theorem State.putDigest_cfg (h : List Byte) (s : State) : (State.putDigest h s).cfg = s.cfg := rfl
@[simp] theorem State.putDigest_argOutbits (h : List Byte) (s : State) : (State.putDigest h s).argOutbits = s.argOutbits := rfl
@[simp] theorem State.putDigest_msgAddr (h : List Byte) (s : State) : (State.putDigest h s).msgAddr = s.msgAddr := rfl
@[simp] theorem State.putDigest_msgBitsLo (h : List Byte) (s : State) : (State.putDigest h s).msgBitsLo = s.msgBitsLo := rfl
@[simp] theorem State.putDigest_msgBitsHi (h : List Byte) (s : State) : (State.putDigest h s).msgBitsHi = s.msgBitsHi := rfl
@[simp] theorem State.putDigest_keyAddr (h : List Byte) (s : State) : (State.putDigest h s).keyAddr = s.keyAddr := rfl
@[simp] theorem State.putDigest_keyBits (h : List Byte) (s : State) : (State.putDigest h s).keyBits = s.keyBits := rfl
@[simp] theorem State.putDigest_synAddr (h : List Byte) (s : State) : (State.putDigest h s).synAddr = s.synAddr := rfl
@[simp] theorem State.putDigest_blkAddr (h : List Byte) (s : State) : (State.putDigest h s).blkAddr = s.blkAddr := rfl
@[simp] theorem State.putDigest_gfOps (h : List Byte) (s : State) : (State.putDigest h s).gfOps = s.gfOps := rfl
@[simp] theorem State.putDigest_gfRes (h : List Byte) (s : State) : (State.putDigest h s).gfRes = s.gfRes := rfl
@[simp] theorem State.putDigest_synNbytes (h : List Byte) (s : State) : (State.putDigest h s).synNbytes = s.synNbytes := rfl
@[simp] theorem State.putDigest_padNbytes (h : List Byte) (s : State) : (State.putDigest h s).padNbytes = s.padNbytes := rfl
@[simp] theorem State.putDigest_dataNbytes (h : List Byte) (s : State) : (State.putDigest h s).dataNbytes = s.dataNbytes := rfl
@[simp] theorem State.putDigest_hashState (h : List Byte) (s : State) : (State.putDigest h s).hashState = s.hashState := rfl
@[simp] theorem State.putDigest_padbuf (h : List Byte) (s : State) : (State.putDigest h s).padbuf = s.padbuf := rfl
@[simp] theorem State.putDigest_digest (h : List Byte) (s : State) : (State.putDigest h s).digest = zeroFill 64 h := rfl
@[simp] theorem State.putDigest_dmem (h : List Byte) (s : State) : (State.putDigest h s).dmem = s.dmem := rfl
@[simp] theorem State.putDigest_rom (h : List Byte) (s : State) : (State.putDigest h s).rom = s.rom := rfl
@[simp] theorem State.putDigest_phase (h : List Byte) (s : State) : (State.putDigest h s).phase = s.phase := rfl
@[simp] theorem State.putDigest_resetHeld (h : List Byte) (s : State) : (State.putDigest h s).resetHeld = s.resetHeld := rfl
@[simp] theorem State.putDigest_params (h : List Byte) (s : State) : (State.putDigest h s).params = s.params := rfl
@[simp] theorem State.putDigest_schedule (h : List Byte) (s : State) : (State.putDigest h s).schedule = s.schedule := rfl
@[simp] theorem State.putDigest_rdata (h : List Byte) (s : State) : (State.putDigest h s).rdata = s.rdata := rfl
@[simp] theorem State.putDigest_draws (h : List Byte) (s : State) : (State.putDigest h s).draws = s.draws := rfl

/-! ## State.putHash -/

@[simp] theorem State.putHash_ie (h : HashOut) (s : State) : (State.putHash h s).ie = s.ie := rfl
@[simp] theorem State.putHash_done (h : HashOut) (s : State) : (State.putHash h s).done = s.done := rfl
@[simp] theorem State.putHash_err (h : HashOut) (s : State) : (State.putHash h s).err = s.err := rfl
@[simp] theorem State.putHash_drop (h : HashOut) (s : State) : (State.putHash h s).drop = s.drop := rfl
@[simp] theorem State.putHash_errCode (h : HashOut) (s : State) : (State.putHash h s).errCode = s.errCode := rfl
@[simp] theorem State.putHash_cfg (h : HashOut) (s : State) : (State.putHash h s).cfg = s.cfg := rfl
@[simp] theorem State.putHash_argOutbits (h : HashOut) (s : State) : (State.putHash h s).argOutbits = s.argOutbits := rfl
@[simp] theorem State.putHash_msgAddr (h : HashOut) (s : State) : (State.putHash h s).msgAddr = s.msgAddr := rfl
@[simp] theorem State.putHash_msgBitsLo (h : HashOut) (s : State) : (State.putHash h s).msgBitsLo = s.msgBitsLo := rfl
@[simp] theorem State.putHash_msgBitsHi (h : HashOut) (s : State) : (State.putHash h s).msgBitsHi = s.msgBitsHi := rfl
@[simp] theorem State.putHash_keyAddr (h : HashOut) (s : State) : (State.putHash h s).keyAddr = s.keyAddr := rfl
@[simp] theorem State.putHash_keyBits (h : HashOut) (s : State) : (State.putHash h s).keyBits = s.keyBits := rfl
@[simp] theorem State.putHash_synAddr (h : HashOut) (s : State) : (State.putHash h s).synAddr = s.synAddr := rfl
@[simp] theorem State.putHash_blkAddr (h : HashOut) (s : State) : (State.putHash h s).blkAddr = s.blkAddr := rfl
@[simp] theorem State.putHash_gfOps (h : HashOut) (s : State) : (State.putHash h s).gfOps = s.gfOps := rfl
@[simp] theorem State.putHash_gfRes (h : HashOut) (s : State) : (State.putHash h s).gfRes = s.gfRes := rfl
@[simp] theorem State.putHash_synNbytes (h : HashOut) (s : State) : (State.putHash h s).synNbytes = s.synNbytes := rfl
@[simp] theorem State.putHash_padNbytes (h : HashOut) (s : State) : (State.putHash h s).padNbytes = BitVec.ofNat 9 h.padding.bytes.length := rfl
@[simp] theorem State.putHash_dataNbytes (h : HashOut) (s : State) : (State.putHash h s).dataNbytes = BitVec.ofNat 64 h.padding.dataN := rfl
@[simp] theorem State.putHash_hashState (h : HashOut) (s : State) : (State.putHash h s).hashState = zeroFill 128 h.state := rfl
@[simp] theorem State.putHash_padbuf (h : HashOut) (s : State) : (State.putHash h s).padbuf = zeroFill 256 h.padding.bytes := rfl
@[simp] theorem State.putHash_digest (h : HashOut) (s : State) : (State.putHash h s).digest = zeroFill 64 h.code := rfl
@[simp] theorem State.putHash_dmem (h : HashOut) (s : State) : (State.putHash h s).dmem = s.dmem := rfl
@[simp] theorem State.putHash_rom (h : HashOut) (s : State) : (State.putHash h s).rom = s.rom := rfl
@[simp] theorem State.putHash_phase (h : HashOut) (s : State) : (State.putHash h s).phase = s.phase := rfl
@[simp] theorem State.putHash_resetHeld (h : HashOut) (s : State) : (State.putHash h s).resetHeld = s.resetHeld := rfl
@[simp] theorem State.putHash_params (h : HashOut) (s : State) : (State.putHash h s).params = s.params := rfl
@[simp] theorem State.putHash_schedule (h : HashOut) (s : State) : (State.putHash h s).schedule = s.schedule := rfl
@[simp] theorem State.putHash_rdata (h : HashOut) (s : State) : (State.putHash h s).rdata = s.rdata := rfl
@[simp] theorem State.putHash_draws (h : HashOut) (s : State) : (State.putHash h s).draws = s.draws := rfl

/-! ## State.putSynthetic -/

@[simp] theorem State.putSynthetic_ie (v : List Byte) (s : State) : (State.putSynthetic v s).ie = s.ie := rfl
@[simp] theorem State.putSynthetic_done (v : List Byte) (s : State) : (State.putSynthetic v s).done = s.done := rfl
@[simp] theorem State.putSynthetic_err (v : List Byte) (s : State) : (State.putSynthetic v s).err = s.err := rfl
@[simp] theorem State.putSynthetic_drop (v : List Byte) (s : State) : (State.putSynthetic v s).drop = s.drop := rfl
@[simp] theorem State.putSynthetic_errCode (v : List Byte) (s : State) : (State.putSynthetic v s).errCode = s.errCode := rfl
@[simp] theorem State.putSynthetic_cfg (v : List Byte) (s : State) : (State.putSynthetic v s).cfg = s.cfg := rfl
@[simp] theorem State.putSynthetic_argOutbits (v : List Byte) (s : State) : (State.putSynthetic v s).argOutbits = s.argOutbits := rfl
@[simp] theorem State.putSynthetic_msgAddr (v : List Byte) (s : State) : (State.putSynthetic v s).msgAddr = s.msgAddr := rfl
@[simp] theorem State.putSynthetic_msgBitsLo (v : List Byte) (s : State) : (State.putSynthetic v s).msgBitsLo = s.msgBitsLo := rfl
@[simp] theorem State.putSynthetic_msgBitsHi (v : List Byte) (s : State) : (State.putSynthetic v s).msgBitsHi = s.msgBitsHi := rfl
@[simp] theorem State.putSynthetic_keyAddr (v : List Byte) (s : State) : (State.putSynthetic v s).keyAddr = s.keyAddr := rfl
@[simp] theorem State.putSynthetic_keyBits (v : List Byte) (s : State) : (State.putSynthetic v s).keyBits = s.keyBits := rfl
@[simp] theorem State.putSynthetic_synAddr (v : List Byte) (s : State) : (State.putSynthetic v s).synAddr = s.synAddr := rfl
@[simp] theorem State.putSynthetic_blkAddr (v : List Byte) (s : State) : (State.putSynthetic v s).blkAddr = s.blkAddr := rfl
@[simp] theorem State.putSynthetic_gfOps (v : List Byte) (s : State) : (State.putSynthetic v s).gfOps = s.gfOps := rfl
@[simp] theorem State.putSynthetic_gfRes (v : List Byte) (s : State) : (State.putSynthetic v s).gfRes = s.gfRes := rfl
@[simp] theorem State.putSynthetic_synNbytes (v : List Byte) (s : State) : (State.putSynthetic v s).synNbytes = BitVec.ofNat 32 (State.synLen s) := rfl
@[simp] theorem State.putSynthetic_padNbytes (v : List Byte) (s : State) : (State.putSynthetic v s).padNbytes = s.padNbytes := rfl
@[simp] theorem State.putSynthetic_dataNbytes (v : List Byte) (s : State) : (State.putSynthetic v s).dataNbytes = s.dataNbytes := rfl
@[simp] theorem State.putSynthetic_hashState (v : List Byte) (s : State) : (State.putSynthetic v s).hashState = s.hashState := rfl
@[simp] theorem State.putSynthetic_padbuf (v : List Byte) (s : State) : (State.putSynthetic v s).padbuf = s.padbuf := rfl
@[simp] theorem State.putSynthetic_digest (v : List Byte) (s : State) : (State.putSynthetic v s).digest = s.digest := rfl
@[simp] theorem State.putSynthetic_dmem (v : List Byte) (s : State) : (State.putSynthetic v s).dmem = memWrite s.dmem s.synAddr.toNat v := rfl
@[simp] theorem State.putSynthetic_rom (v : List Byte) (s : State) : (State.putSynthetic v s).rom = s.rom := rfl
@[simp] theorem State.putSynthetic_phase (v : List Byte) (s : State) : (State.putSynthetic v s).phase = s.phase := rfl
@[simp] theorem State.putSynthetic_resetHeld (v : List Byte) (s : State) : (State.putSynthetic v s).resetHeld = s.resetHeld := rfl
@[simp] theorem State.putSynthetic_params (v : List Byte) (s : State) : (State.putSynthetic v s).params = s.params := rfl
@[simp] theorem State.putSynthetic_schedule (v : List Byte) (s : State) : (State.putSynthetic v s).schedule = s.schedule := rfl
@[simp] theorem State.putSynthetic_rdata (v : List Byte) (s : State) : (State.putSynthetic v s).rdata = s.rdata := rfl
@[simp] theorem State.putSynthetic_draws (v : List Byte) (s : State) : (State.putSynthetic v s).draws = s.draws := rfl

/-! ## accept -/

@[simp] theorem accept_ie (w : Word) (s : State) : (accept w s).ie = s.ie := rfl
@[simp] theorem accept_done (w : Word) (s : State) : (accept w s).done = false := rfl
@[simp] theorem accept_err (w : Word) (s : State) : (accept w s).err = false := rfl
@[simp] theorem accept_drop (w : Word) (s : State) : (accept w s).drop = s.drop := rfl
@[simp] theorem accept_errCode (w : Word) (s : State) : (accept w s).errCode = .noError := rfl
@[simp] theorem accept_cfg (w : Word) (s : State) : (accept w s).cfg = s.cfg := rfl
@[simp] theorem accept_argOutbits (w : Word) (s : State) : (accept w s).argOutbits = s.argOutbits := rfl
@[simp] theorem accept_msgAddr (w : Word) (s : State) : (accept w s).msgAddr = s.msgAddr := rfl
@[simp] theorem accept_msgBitsLo (w : Word) (s : State) : (accept w s).msgBitsLo = s.msgBitsLo := rfl
@[simp] theorem accept_msgBitsHi (w : Word) (s : State) : (accept w s).msgBitsHi = s.msgBitsHi := rfl
@[simp] theorem accept_keyAddr (w : Word) (s : State) : (accept w s).keyAddr = s.keyAddr := rfl
@[simp] theorem accept_keyBits (w : Word) (s : State) : (accept w s).keyBits = s.keyBits := rfl
@[simp] theorem accept_synAddr (w : Word) (s : State) : (accept w s).synAddr = s.synAddr := rfl
@[simp] theorem accept_blkAddr (w : Word) (s : State) : (accept w s).blkAddr = s.blkAddr := rfl
@[simp] theorem accept_gfOps (w : Word) (s : State) : (accept w s).gfOps = s.gfOps := rfl
@[simp] theorem accept_gfRes (w : Word) (s : State) : (accept w s).gfRes = s.gfRes := rfl
@[simp] theorem accept_synNbytes (w : Word) (s : State) : (accept w s).synNbytes = s.synNbytes := rfl
@[simp] theorem accept_padNbytes (w : Word) (s : State) : (accept w s).padNbytes = s.padNbytes := rfl
@[simp] theorem accept_dataNbytes (w : Word) (s : State) : (accept w s).dataNbytes = s.dataNbytes := rfl
@[simp] theorem accept_hashState (w : Word) (s : State) : (accept w s).hashState = s.hashState := rfl
@[simp] theorem accept_padbuf (w : Word) (s : State) : (accept w s).padbuf = s.padbuf := rfl
@[simp] theorem accept_digest (w : Word) (s : State) : (accept w s).digest = s.digest := rfl
@[simp] theorem accept_dmem (w : Word) (s : State) : (accept w s).dmem = s.dmem := rfl
@[simp] theorem accept_rom (w : Word) (s : State) : (accept w s).rom = s.rom := rfl
@[simp] theorem accept_phase (w : Word) (s : State) : (accept w s).phase = .running w := rfl
@[simp] theorem accept_resetHeld (w : Word) (s : State) : (accept w s).resetHeld = s.resetHeld := rfl
@[simp] theorem accept_params (w : Word) (s : State) : (accept w s).params = s.params := rfl
@[simp] theorem accept_schedule (w : Word) (s : State) : (accept w s).schedule = s.schedule := rfl
@[simp] theorem accept_rdata (w : Word) (s : State) : (accept w s).rdata = s.rdata := rfl
@[simp] theorem accept_draws (w : Word) (s : State) : (accept w s).draws = s.draws := rfl

/-! ## commit -/

@[simp] theorem commit_ie (s : State) : (commit s).ie = s.ie := rfl
@[simp] theorem commit_done (s : State) : (commit s).done = true := rfl
@[simp] theorem commit_err (s : State) : (commit s).err = s.err := rfl
@[simp] theorem commit_drop (s : State) : (commit s).drop = s.drop := rfl
@[simp] theorem commit_errCode (s : State) : (commit s).errCode = s.errCode := rfl
@[simp] theorem commit_cfg (s : State) : (commit s).cfg = s.cfg := rfl
@[simp] theorem commit_argOutbits (s : State) : (commit s).argOutbits = s.argOutbits := rfl
@[simp] theorem commit_msgAddr (s : State) : (commit s).msgAddr = s.msgAddr := rfl
@[simp] theorem commit_msgBitsLo (s : State) : (commit s).msgBitsLo = s.msgBitsLo := rfl
@[simp] theorem commit_msgBitsHi (s : State) : (commit s).msgBitsHi = s.msgBitsHi := rfl
@[simp] theorem commit_keyAddr (s : State) : (commit s).keyAddr = s.keyAddr := rfl
@[simp] theorem commit_keyBits (s : State) : (commit s).keyBits = s.keyBits := rfl
@[simp] theorem commit_synAddr (s : State) : (commit s).synAddr = s.synAddr := rfl
@[simp] theorem commit_blkAddr (s : State) : (commit s).blkAddr = s.blkAddr := rfl
@[simp] theorem commit_gfOps (s : State) : (commit s).gfOps = s.gfOps := rfl
@[simp] theorem commit_gfRes (s : State) : (commit s).gfRes = s.gfRes := rfl
@[simp] theorem commit_synNbytes (s : State) : (commit s).synNbytes = s.synNbytes := rfl
@[simp] theorem commit_padNbytes (s : State) : (commit s).padNbytes = s.padNbytes := rfl
@[simp] theorem commit_dataNbytes (s : State) : (commit s).dataNbytes = s.dataNbytes := rfl
@[simp] theorem commit_hashState (s : State) : (commit s).hashState = s.hashState := rfl
@[simp] theorem commit_padbuf (s : State) : (commit s).padbuf = s.padbuf := rfl
@[simp] theorem commit_digest (s : State) : (commit s).digest = s.digest := rfl
@[simp] theorem commit_dmem (s : State) : (commit s).dmem = s.dmem := rfl
@[simp] theorem commit_rom (s : State) : (commit s).rom = s.rom := rfl
@[simp] theorem commit_phase (s : State) : (commit s).phase = .idle := rfl
@[simp] theorem commit_resetHeld (s : State) : (commit s).resetHeld = s.resetHeld := rfl
@[simp] theorem commit_params (s : State) : (commit s).params = s.params := rfl
@[simp] theorem commit_schedule (s : State) : (commit s).schedule = s.schedule := rfl
@[simp] theorem commit_rdata (s : State) : (commit s).rdata = s.rdata := rfl
@[simp] theorem commit_draws (s : State) : (commit s).draws = s.draws := rfl

/-! ## raiseError -/

@[simp] theorem raiseError_ie (c : ErrCode) (s : State) : (raiseError c s).ie = s.ie := rfl
@[simp] theorem raiseError_done (c : ErrCode) (s : State) : (raiseError c s).done = true := rfl
@[simp] theorem raiseError_err (c : ErrCode) (s : State) : (raiseError c s).err = true := rfl
@[simp] theorem raiseError_drop (c : ErrCode) (s : State) : (raiseError c s).drop = s.drop := rfl
@[simp] theorem raiseError_errCode (c : ErrCode) (s : State) : (raiseError c s).errCode = c := rfl
@[simp] theorem raiseError_cfg (c : ErrCode) (s : State) : (raiseError c s).cfg = s.cfg := rfl
@[simp] theorem raiseError_argOutbits (c : ErrCode) (s : State) : (raiseError c s).argOutbits = s.argOutbits := rfl
@[simp] theorem raiseError_msgAddr (c : ErrCode) (s : State) : (raiseError c s).msgAddr = s.msgAddr := rfl
@[simp] theorem raiseError_msgBitsLo (c : ErrCode) (s : State) : (raiseError c s).msgBitsLo = s.msgBitsLo := rfl
@[simp] theorem raiseError_msgBitsHi (c : ErrCode) (s : State) : (raiseError c s).msgBitsHi = s.msgBitsHi := rfl
@[simp] theorem raiseError_keyAddr (c : ErrCode) (s : State) : (raiseError c s).keyAddr = s.keyAddr := rfl
@[simp] theorem raiseError_keyBits (c : ErrCode) (s : State) : (raiseError c s).keyBits = s.keyBits := rfl
@[simp] theorem raiseError_synAddr (c : ErrCode) (s : State) : (raiseError c s).synAddr = s.synAddr := rfl
@[simp] theorem raiseError_blkAddr (c : ErrCode) (s : State) : (raiseError c s).blkAddr = s.blkAddr := rfl
@[simp] theorem raiseError_gfOps (c : ErrCode) (s : State) : (raiseError c s).gfOps = s.gfOps := rfl
@[simp] theorem raiseError_gfRes (c : ErrCode) (s : State) : (raiseError c s).gfRes = s.gfRes := rfl
@[simp] theorem raiseError_synNbytes (c : ErrCode) (s : State) : (raiseError c s).synNbytes = s.synNbytes := rfl
@[simp] theorem raiseError_padNbytes (c : ErrCode) (s : State) : (raiseError c s).padNbytes = s.padNbytes := rfl
@[simp] theorem raiseError_dataNbytes (c : ErrCode) (s : State) : (raiseError c s).dataNbytes = s.dataNbytes := rfl
@[simp] theorem raiseError_hashState (c : ErrCode) (s : State) : (raiseError c s).hashState = s.hashState := rfl
@[simp] theorem raiseError_padbuf (c : ErrCode) (s : State) : (raiseError c s).padbuf = s.padbuf := rfl
@[simp] theorem raiseError_digest (c : ErrCode) (s : State) : (raiseError c s).digest = s.digest := rfl
@[simp] theorem raiseError_dmem (c : ErrCode) (s : State) : (raiseError c s).dmem = s.dmem := rfl
@[simp] theorem raiseError_rom (c : ErrCode) (s : State) : (raiseError c s).rom = s.rom := rfl
@[simp] theorem raiseError_phase (c : ErrCode) (s : State) : (raiseError c s).phase = .idle := rfl
@[simp] theorem raiseError_resetHeld (c : ErrCode) (s : State) : (raiseError c s).resetHeld = s.resetHeld := rfl
@[simp] theorem raiseError_params (c : ErrCode) (s : State) : (raiseError c s).params = s.params := rfl
@[simp] theorem raiseError_schedule (c : ErrCode) (s : State) : (raiseError c s).schedule = s.schedule := rfl
@[simp] theorem raiseError_rdata (c : ErrCode) (s : State) : (raiseError c s).rdata = s.rdata := rfl
@[simp] theorem raiseError_draws (c : ErrCode) (s : State) : (raiseError c s).draws = s.draws := rfl

/-! ## ackStatus -/

@[simp] theorem ackStatus_ie (d : Word) (s : State) : (ackStatus d s).ie = s.ie := rfl
@[simp] theorem ackStatus_done (d : Word) (s : State) : (ackStatus d s).done = (s.done && !d.getLsbD 1) := rfl
@[simp] theorem ackStatus_err (d : Word) (s : State) : (ackStatus d s).err = (s.err && !d.getLsbD 2) := rfl
@[simp] theorem ackStatus_drop (d : Word) (s : State) : (ackStatus d s).drop = (s.drop && !d.getLsbD 3) := rfl
@[simp] theorem ackStatus_errCode (d : Word) (s : State) : (ackStatus d s).errCode = s.errCode := rfl
@[simp] theorem ackStatus_cfg (d : Word) (s : State) : (ackStatus d s).cfg = s.cfg := rfl
@[simp] theorem ackStatus_argOutbits (d : Word) (s : State) : (ackStatus d s).argOutbits = s.argOutbits := rfl
@[simp] theorem ackStatus_msgAddr (d : Word) (s : State) : (ackStatus d s).msgAddr = s.msgAddr := rfl
@[simp] theorem ackStatus_msgBitsLo (d : Word) (s : State) : (ackStatus d s).msgBitsLo = s.msgBitsLo := rfl
@[simp] theorem ackStatus_msgBitsHi (d : Word) (s : State) : (ackStatus d s).msgBitsHi = s.msgBitsHi := rfl
@[simp] theorem ackStatus_keyAddr (d : Word) (s : State) : (ackStatus d s).keyAddr = s.keyAddr := rfl
@[simp] theorem ackStatus_keyBits (d : Word) (s : State) : (ackStatus d s).keyBits = s.keyBits := rfl
@[simp] theorem ackStatus_synAddr (d : Word) (s : State) : (ackStatus d s).synAddr = s.synAddr := rfl
@[simp] theorem ackStatus_blkAddr (d : Word) (s : State) : (ackStatus d s).blkAddr = s.blkAddr := rfl
@[simp] theorem ackStatus_gfOps (d : Word) (s : State) : (ackStatus d s).gfOps = s.gfOps := rfl
@[simp] theorem ackStatus_gfRes (d : Word) (s : State) : (ackStatus d s).gfRes = s.gfRes := rfl
@[simp] theorem ackStatus_synNbytes (d : Word) (s : State) : (ackStatus d s).synNbytes = s.synNbytes := rfl
@[simp] theorem ackStatus_padNbytes (d : Word) (s : State) : (ackStatus d s).padNbytes = s.padNbytes := rfl
@[simp] theorem ackStatus_dataNbytes (d : Word) (s : State) : (ackStatus d s).dataNbytes = s.dataNbytes := rfl
@[simp] theorem ackStatus_hashState (d : Word) (s : State) : (ackStatus d s).hashState = s.hashState := rfl
@[simp] theorem ackStatus_padbuf (d : Word) (s : State) : (ackStatus d s).padbuf = s.padbuf := rfl
@[simp] theorem ackStatus_digest (d : Word) (s : State) : (ackStatus d s).digest = s.digest := rfl
@[simp] theorem ackStatus_dmem (d : Word) (s : State) : (ackStatus d s).dmem = s.dmem := rfl
@[simp] theorem ackStatus_rom (d : Word) (s : State) : (ackStatus d s).rom = s.rom := rfl
@[simp] theorem ackStatus_phase (d : Word) (s : State) : (ackStatus d s).phase = s.phase := rfl
@[simp] theorem ackStatus_resetHeld (d : Word) (s : State) : (ackStatus d s).resetHeld = s.resetHeld := rfl
@[simp] theorem ackStatus_params (d : Word) (s : State) : (ackStatus d s).params = s.params := rfl
@[simp] theorem ackStatus_schedule (d : Word) (s : State) : (ackStatus d s).schedule = s.schedule := rfl
@[simp] theorem ackStatus_rdata (d : Word) (s : State) : (ackStatus d s).rdata = s.rdata := rfl
@[simp] theorem ackStatus_draws (d : Word) (s : State) : (ackStatus d s).draws = s.draws := rfl

/-! ## answer -/

@[simp] theorem answer_ie (w : Word) (s : State) : (answer w s).ie = s.ie := rfl
@[simp] theorem answer_done (w : Word) (s : State) : (answer w s).done = s.done := rfl
@[simp] theorem answer_err (w : Word) (s : State) : (answer w s).err = s.err := rfl
@[simp] theorem answer_drop (w : Word) (s : State) : (answer w s).drop = s.drop := rfl
@[simp] theorem answer_errCode (w : Word) (s : State) : (answer w s).errCode = s.errCode := rfl
@[simp] theorem answer_cfg (w : Word) (s : State) : (answer w s).cfg = s.cfg := rfl
@[simp] theorem answer_argOutbits (w : Word) (s : State) : (answer w s).argOutbits = s.argOutbits := rfl
@[simp] theorem answer_msgAddr (w : Word) (s : State) : (answer w s).msgAddr = s.msgAddr := rfl
@[simp] theorem answer_msgBitsLo (w : Word) (s : State) : (answer w s).msgBitsLo = s.msgBitsLo := rfl
@[simp] theorem answer_msgBitsHi (w : Word) (s : State) : (answer w s).msgBitsHi = s.msgBitsHi := rfl
@[simp] theorem answer_keyAddr (w : Word) (s : State) : (answer w s).keyAddr = s.keyAddr := rfl
@[simp] theorem answer_keyBits (w : Word) (s : State) : (answer w s).keyBits = s.keyBits := rfl
@[simp] theorem answer_synAddr (w : Word) (s : State) : (answer w s).synAddr = s.synAddr := rfl
@[simp] theorem answer_blkAddr (w : Word) (s : State) : (answer w s).blkAddr = s.blkAddr := rfl
@[simp] theorem answer_gfOps (w : Word) (s : State) : (answer w s).gfOps = s.gfOps := rfl
@[simp] theorem answer_gfRes (w : Word) (s : State) : (answer w s).gfRes = s.gfRes := rfl
@[simp] theorem answer_synNbytes (w : Word) (s : State) : (answer w s).synNbytes = s.synNbytes := rfl
@[simp] theorem answer_padNbytes (w : Word) (s : State) : (answer w s).padNbytes = s.padNbytes := rfl
@[simp] theorem answer_dataNbytes (w : Word) (s : State) : (answer w s).dataNbytes = s.dataNbytes := rfl
@[simp] theorem answer_hashState (w : Word) (s : State) : (answer w s).hashState = s.hashState := rfl
@[simp] theorem answer_padbuf (w : Word) (s : State) : (answer w s).padbuf = s.padbuf := rfl
@[simp] theorem answer_digest (w : Word) (s : State) : (answer w s).digest = s.digest := rfl
@[simp] theorem answer_dmem (w : Word) (s : State) : (answer w s).dmem = s.dmem := rfl
@[simp] theorem answer_rom (w : Word) (s : State) : (answer w s).rom = s.rom := rfl
@[simp] theorem answer_phase (w : Word) (s : State) : (answer w s).phase = s.phase := rfl
@[simp] theorem answer_resetHeld (w : Word) (s : State) : (answer w s).resetHeld = s.resetHeld := rfl
@[simp] theorem answer_params (w : Word) (s : State) : (answer w s).params = s.params := rfl
@[simp] theorem answer_schedule (w : Word) (s : State) : (answer w s).schedule = s.schedule := rfl
@[simp] theorem answer_rdata (w : Word) (s : State) : (answer w s).rdata = some w := rfl
@[simp] theorem answer_draws (w : Word) (s : State) : (answer w s).draws = s.draws := rfl

/-! ## answerUnspecified -/

@[simp] theorem answerUnspecified_ie (s : State) : (answerUnspecified s).ie = s.ie := rfl
@[simp] theorem answerUnspecified_done (s : State) : (answerUnspecified s).done = s.done := rfl
@[simp] theorem answerUnspecified_err (s : State) : (answerUnspecified s).err = s.err := rfl
@[simp] theorem answerUnspecified_drop (s : State) : (answerUnspecified s).drop = s.drop := rfl
@[simp] theorem answerUnspecified_errCode (s : State) : (answerUnspecified s).errCode = s.errCode := rfl
@[simp] theorem answerUnspecified_cfg (s : State) : (answerUnspecified s).cfg = s.cfg := rfl
@[simp] theorem answerUnspecified_argOutbits (s : State) : (answerUnspecified s).argOutbits = s.argOutbits := rfl
@[simp] theorem answerUnspecified_msgAddr (s : State) : (answerUnspecified s).msgAddr = s.msgAddr := rfl
@[simp] theorem answerUnspecified_msgBitsLo (s : State) : (answerUnspecified s).msgBitsLo = s.msgBitsLo := rfl
@[simp] theorem answerUnspecified_msgBitsHi (s : State) : (answerUnspecified s).msgBitsHi = s.msgBitsHi := rfl
@[simp] theorem answerUnspecified_keyAddr (s : State) : (answerUnspecified s).keyAddr = s.keyAddr := rfl
@[simp] theorem answerUnspecified_keyBits (s : State) : (answerUnspecified s).keyBits = s.keyBits := rfl
@[simp] theorem answerUnspecified_synAddr (s : State) : (answerUnspecified s).synAddr = s.synAddr := rfl
@[simp] theorem answerUnspecified_blkAddr (s : State) : (answerUnspecified s).blkAddr = s.blkAddr := rfl
@[simp] theorem answerUnspecified_gfOps (s : State) : (answerUnspecified s).gfOps = s.gfOps := rfl
@[simp] theorem answerUnspecified_gfRes (s : State) : (answerUnspecified s).gfRes = s.gfRes := rfl
@[simp] theorem answerUnspecified_synNbytes (s : State) : (answerUnspecified s).synNbytes = s.synNbytes := rfl
@[simp] theorem answerUnspecified_padNbytes (s : State) : (answerUnspecified s).padNbytes = s.padNbytes := rfl
@[simp] theorem answerUnspecified_dataNbytes (s : State) : (answerUnspecified s).dataNbytes = s.dataNbytes := rfl
@[simp] theorem answerUnspecified_hashState (s : State) : (answerUnspecified s).hashState = s.hashState := rfl
@[simp] theorem answerUnspecified_padbuf (s : State) : (answerUnspecified s).padbuf = s.padbuf := rfl
@[simp] theorem answerUnspecified_digest (s : State) : (answerUnspecified s).digest = s.digest := rfl
@[simp] theorem answerUnspecified_dmem (s : State) : (answerUnspecified s).dmem = s.dmem := rfl
@[simp] theorem answerUnspecified_rom (s : State) : (answerUnspecified s).rom = s.rom := rfl
@[simp] theorem answerUnspecified_phase (s : State) : (answerUnspecified s).phase = s.phase := rfl
@[simp] theorem answerUnspecified_resetHeld (s : State) : (answerUnspecified s).resetHeld = s.resetHeld := rfl
@[simp] theorem answerUnspecified_params (s : State) : (answerUnspecified s).params = s.params := rfl
@[simp] theorem answerUnspecified_schedule (s : State) : (answerUnspecified s).schedule = s.schedule := rfl
@[simp] theorem answerUnspecified_rdata (s : State) : (answerUnspecified s).rdata = some (Config.busyRead s.draws) := rfl
@[simp] theorem answerUnspecified_draws (s : State) : (answerUnspecified s).draws = s.draws + 1 := rfl

/-! ## State.popTurn -/

@[simp] theorem State.popTurn_ie (s : State) : (State.popTurn s).ie = s.ie := rfl
@[simp] theorem State.popTurn_done (s : State) : (State.popTurn s).done = s.done := rfl
@[simp] theorem State.popTurn_err (s : State) : (State.popTurn s).err = s.err := rfl
@[simp] theorem State.popTurn_drop (s : State) : (State.popTurn s).drop = s.drop := rfl
@[simp] theorem State.popTurn_errCode (s : State) : (State.popTurn s).errCode = s.errCode := rfl
@[simp] theorem State.popTurn_cfg (s : State) : (State.popTurn s).cfg = s.cfg := rfl
@[simp] theorem State.popTurn_argOutbits (s : State) : (State.popTurn s).argOutbits = s.argOutbits := rfl
@[simp] theorem State.popTurn_msgAddr (s : State) : (State.popTurn s).msgAddr = s.msgAddr := rfl
@[simp] theorem State.popTurn_msgBitsLo (s : State) : (State.popTurn s).msgBitsLo = s.msgBitsLo := rfl
@[simp] theorem State.popTurn_msgBitsHi (s : State) : (State.popTurn s).msgBitsHi = s.msgBitsHi := rfl
@[simp] theorem State.popTurn_keyAddr (s : State) : (State.popTurn s).keyAddr = s.keyAddr := rfl
@[simp] theorem State.popTurn_keyBits (s : State) : (State.popTurn s).keyBits = s.keyBits := rfl
@[simp] theorem State.popTurn_synAddr (s : State) : (State.popTurn s).synAddr = s.synAddr := rfl
@[simp] theorem State.popTurn_blkAddr (s : State) : (State.popTurn s).blkAddr = s.blkAddr := rfl
@[simp] theorem State.popTurn_gfOps (s : State) : (State.popTurn s).gfOps = s.gfOps := rfl
@[simp] theorem State.popTurn_gfRes (s : State) : (State.popTurn s).gfRes = s.gfRes := rfl
@[simp] theorem State.popTurn_synNbytes (s : State) : (State.popTurn s).synNbytes = s.synNbytes := rfl
@[simp] theorem State.popTurn_padNbytes (s : State) : (State.popTurn s).padNbytes = s.padNbytes := rfl
@[simp] theorem State.popTurn_dataNbytes (s : State) : (State.popTurn s).dataNbytes = s.dataNbytes := rfl
@[simp] theorem State.popTurn_hashState (s : State) : (State.popTurn s).hashState = s.hashState := rfl
@[simp] theorem State.popTurn_padbuf (s : State) : (State.popTurn s).padbuf = s.padbuf := rfl
@[simp] theorem State.popTurn_digest (s : State) : (State.popTurn s).digest = s.digest := rfl
@[simp] theorem State.popTurn_dmem (s : State) : (State.popTurn s).dmem = s.dmem := rfl
@[simp] theorem State.popTurn_rom (s : State) : (State.popTurn s).rom = s.rom := rfl
@[simp] theorem State.popTurn_phase (s : State) : (State.popTurn s).phase = s.phase := rfl
@[simp] theorem State.popTurn_resetHeld (s : State) : (State.popTurn s).resetHeld = s.resetHeld := rfl
@[simp] theorem State.popTurn_params (s : State) : (State.popTurn s).params = s.params := rfl
@[simp] theorem State.popTurn_schedule (s : State) : (State.popTurn s).schedule = s.schedule.tail := rfl
@[simp] theorem State.popTurn_rdata (s : State) : (State.popTurn s).rdata = s.rdata := rfl
@[simp] theorem State.popTurn_draws (s : State) : (State.popTurn s).draws = s.draws := rfl

/-! ## releaseReset -/

@[simp] theorem releaseReset_ie (s : State) : (releaseReset s).ie = s.ie := rfl
@[simp] theorem releaseReset_done (s : State) : (releaseReset s).done = s.done := rfl
@[simp] theorem releaseReset_err (s : State) : (releaseReset s).err = s.err := rfl
@[simp] theorem releaseReset_drop (s : State) : (releaseReset s).drop = s.drop := rfl
@[simp] theorem releaseReset_errCode (s : State) : (releaseReset s).errCode = s.errCode := rfl
@[simp] theorem releaseReset_cfg (s : State) : (releaseReset s).cfg = s.cfg := rfl
@[simp] theorem releaseReset_argOutbits (s : State) : (releaseReset s).argOutbits = s.argOutbits := rfl
@[simp] theorem releaseReset_msgAddr (s : State) : (releaseReset s).msgAddr = s.msgAddr := rfl
@[simp] theorem releaseReset_msgBitsLo (s : State) : (releaseReset s).msgBitsLo = s.msgBitsLo := rfl
@[simp] theorem releaseReset_msgBitsHi (s : State) : (releaseReset s).msgBitsHi = s.msgBitsHi := rfl
@[simp] theorem releaseReset_keyAddr (s : State) : (releaseReset s).keyAddr = s.keyAddr := rfl
@[simp] theorem releaseReset_keyBits (s : State) : (releaseReset s).keyBits = s.keyBits := rfl
@[simp] theorem releaseReset_synAddr (s : State) : (releaseReset s).synAddr = s.synAddr := rfl
@[simp] theorem releaseReset_blkAddr (s : State) : (releaseReset s).blkAddr = s.blkAddr := rfl
@[simp] theorem releaseReset_gfOps (s : State) : (releaseReset s).gfOps = s.gfOps := rfl
@[simp] theorem releaseReset_gfRes (s : State) : (releaseReset s).gfRes = s.gfRes := rfl
@[simp] theorem releaseReset_synNbytes (s : State) : (releaseReset s).synNbytes = s.synNbytes := rfl
@[simp] theorem releaseReset_padNbytes (s : State) : (releaseReset s).padNbytes = s.padNbytes := rfl
@[simp] theorem releaseReset_dataNbytes (s : State) : (releaseReset s).dataNbytes = s.dataNbytes := rfl
@[simp] theorem releaseReset_hashState (s : State) : (releaseReset s).hashState = s.hashState := rfl
@[simp] theorem releaseReset_padbuf (s : State) : (releaseReset s).padbuf = s.padbuf := rfl
@[simp] theorem releaseReset_digest (s : State) : (releaseReset s).digest = s.digest := rfl
@[simp] theorem releaseReset_dmem (s : State) : (releaseReset s).dmem = s.dmem := rfl
@[simp] theorem releaseReset_rom (s : State) : (releaseReset s).rom = s.rom := rfl
@[simp] theorem releaseReset_phase (s : State) : (releaseReset s).phase = .idle := rfl
@[simp] theorem releaseReset_resetHeld (s : State) : (releaseReset s).resetHeld = false := rfl
@[simp] theorem releaseReset_params (s : State) : (releaseReset s).params = s.params := rfl
@[simp] theorem releaseReset_schedule (s : State) : (releaseReset s).schedule = s.schedule := rfl
@[simp] theorem releaseReset_rdata (s : State) : (releaseReset s).rdata = s.rdata := rfl
@[simp] theorem releaseReset_draws (s : State) : (releaseReset s).draws = s.draws := rfl

/-! ## assertReset -/

@[simp] theorem assertReset_ie (s : State) : (assertReset s).ie = false := rfl
@[simp] theorem assertReset_done (s : State) : (assertReset s).done = false := rfl
@[simp] theorem assertReset_err (s : State) : (assertReset s).err = false := rfl
@[simp] theorem assertReset_drop (s : State) : (assertReset s).drop = false := rfl
@[simp] theorem assertReset_errCode (s : State) : (assertReset s).errCode = .noError := rfl
@[simp] theorem assertReset_cfg (s : State) : (assertReset s).cfg = Cfg.zero := rfl
@[simp] theorem assertReset_argOutbits (s : State) : (assertReset s).argOutbits = 0 := rfl
@[simp] theorem assertReset_msgAddr (s : State) : (assertReset s).msgAddr = 0 := rfl
@[simp] theorem assertReset_msgBitsLo (s : State) : (assertReset s).msgBitsLo = 0 := rfl
@[simp] theorem assertReset_msgBitsHi (s : State) : (assertReset s).msgBitsHi = 0 := rfl
@[simp] theorem assertReset_keyAddr (s : State) : (assertReset s).keyAddr = 0 := rfl
@[simp] theorem assertReset_keyBits (s : State) : (assertReset s).keyBits = 0 := rfl
@[simp] theorem assertReset_synAddr (s : State) : (assertReset s).synAddr = 0 := rfl
@[simp] theorem assertReset_blkAddr (s : State) : (assertReset s).blkAddr = 0 := rfl
@[simp] theorem assertReset_gfOps (s : State) : (assertReset s).gfOps = 0 := rfl
@[simp] theorem assertReset_gfRes (s : State) : (assertReset s).gfRes = 0 := rfl
@[simp] theorem assertReset_synNbytes (s : State) : (assertReset s).synNbytes = 0 := rfl
@[simp] theorem assertReset_padNbytes (s : State) : (assertReset s).padNbytes = 0 := rfl
@[simp] theorem assertReset_dataNbytes (s : State) : (assertReset s).dataNbytes = 0 := rfl
@[simp] theorem assertReset_hashState (s : State) : (assertReset s).hashState = Vector.replicate 128 0 := rfl
@[simp] theorem assertReset_padbuf (s : State) : (assertReset s).padbuf = Vector.replicate 256 0 := rfl
@[simp] theorem assertReset_digest (s : State) : (assertReset s).digest = Vector.replicate 64 0 := rfl
@[simp] theorem assertReset_dmem (s : State) : (assertReset s).dmem = s.dmem := rfl
@[simp] theorem assertReset_rom (s : State) : (assertReset s).rom = s.rom := rfl
@[simp] theorem assertReset_phase (s : State) : (assertReset s).phase = .idle := rfl
@[simp] theorem assertReset_resetHeld (s : State) : (assertReset s).resetHeld = true := rfl
@[simp] theorem assertReset_params (s : State) : (assertReset s).params = s.params := rfl
@[simp] theorem assertReset_schedule (s : State) : (assertReset s).schedule = s.schedule := rfl
@[simp] theorem assertReset_rdata (s : State) : (assertReset s).rdata = s.rdata := rfl
@[simp] theorem assertReset_draws (s : State) : (assertReset s).draws = s.draws := rfl

end Sys2Proof.Machine
end

