-- ==== Sys2Proof/Laws/Bytes.lean ====
section
/-! SUPPORT. Byte strings and byte arrays: lengths and single bytes of every operation of Ops.lean. -/

namespace Sys2Proof.Machine

open Sys2Proof

/-! ## Lengths -/

@[simp] theorem zeros_length (n : Nat) : (zeros n).length = n := by simp [zeros]

@[simp] theorem memRead_length (m : Memory) (a n : Nat) : (memRead m a n).length = n := by simp [memRead]

@[simp] theorem xorBytes_length (a b : List Byte) : (xorBytes a b).length = min a.length b.length := by
  simp [xorBytes]

@[simp] theorem complement_length (s : List Byte) : (complement s).length = s.length := by simp [complement]

@[simp] theorem slice_length (s : List Byte) (i n : Nat) : (slice s i n).length = min n (s.length - i) := by
  simp [slice]

@[simp] theorem tabulate_length (E : Engine) (f : Fin 8 → Nat → Byte) : (tabulate E f).length = E.nb := by
  simp [tabulate]

/-! ## Single bytes -/

theorem getD_eq_get {s : List Byte} {k : Nat} (h : k < s.length) : s.getD k 0 = s[k] := by
  simp [List.getD, List.getElem?_eq_getElem h]

theorem getD_beyond {s : List Byte} {k : Nat} (h : s.length ≤ k) : s.getD k 0 = 0 := by
  simp [List.getD, List.getElem?_eq_none h]

theorem getD_map_range (f : Nat → Byte) (n k : Nat) :
    ((List.range n).map f).getD k 0 = if k < n then f k else 0 := by
  split
  · next h => simp [List.getD, h]
  · next h => exact getD_beyond (by simpa using Nat.le_of_not_lt h)

@[simp] theorem zeros_getD (n k : Nat) : (zeros n).getD k 0 = 0 := by
  rcases Nat.lt_or_ge k n with h | h
  · simp [zeros, List.getD, h]
  · exact getD_beyond (by simpa using h)

theorem memRead_getD (m : Memory) (a n k : Nat) :
    (memRead m a n).getD k 0 = if k < n then Memory.byte m (a + k) else 0 :=
  getD_map_range _ n k

theorem tabulate_getD (E : Engine) (f : Fin 8 → Nat → Byte) (k : Nat) :
    (tabulate E f).getD k 0 = if k < E.nb then f (rowOf k) (k / 8) else 0 :=
  getD_map_range _ E.nb k

theorem append_getD (a b : List Byte) (k : Nat) :
    (a ++ b).getD k 0 = if k < a.length then a.getD k 0 else b.getD (k - a.length) 0 := by
  simp only [List.getD, List.getElem?_append]
  split <;> rfl

theorem slice_getD (s : List Byte) (i n k : Nat) :
    (slice s i n).getD k 0 = if k < n then s.getD (i + k) 0 else 0 := by
  simp only [slice, List.getD, List.getElem?_take, List.getElem?_drop]
  split <;> rfl

theorem xorBytes_getD {a b : List Byte} (h : a.length = b.length) (k : Nat) :
    (xorBytes a b).getD k 0 = a.getD k 0 ^^^ b.getD k 0 := by
  rcases Nat.lt_or_ge k a.length with hk | hk
  · have hb : k < b.length := h ▸ hk
    simp [xorBytes, List.getD, hk, hb]
  · rw [getD_beyond (by simpa [xorBytes, ← h] using hk), getD_beyond hk, getD_beyond (h ▸ hk)]
    decide

theorem complement_getD {s : List Byte} {k : Nat} (h : k < s.length) :
    (complement s).getD k 0 = s.getD k 0 ^^^ 0xFF := by
  simp [complement, List.getD, h]

theorem take_getD (s : List Byte) (n k : Nat) : (s.take n).getD k 0 = if k < n then s.getD k 0 else 0 := by
  simp only [List.getD, List.getElem?_take]
  split <;> rfl

/-! ## Arrays -/

theorem fillBytes_toList (n : Nat) (f : Nat → Byte) : (fillBytes n f).toList = (List.range n).map f := by
  simp [fillBytes]

theorem fillBytes_getD (n : Nat) (f : Nat → Byte) (k : Nat) :
    (fillBytes n f).toList.getD k 0 = if k < n then f k else 0 := by
  rw [fillBytes_toList, getD_map_range]

theorem zeroFill_getD (n : Nat) (v : List Byte) (k : Nat) :
    (zeroFill n v).toList.getD k 0 = if k < n then v.getD k 0 else 0 :=
  fillBytes_getD n _ k

theorem overwrite_getD {n : Nat} (w : Vector Byte n) (v : List Byte) (k : Nat) (hv : v.length ≤ n) :
    (overwrite w v).toList.getD k 0 = if k < v.length then v.getD k 0 else w.toList.getD k 0 := by
  rw [overwrite, fillBytes_getD]
  by_cases hk : k < v.length
  · have : k < n := Nat.lt_of_lt_of_le hk hv
    simp [List.getD, hk, this]
  · have hn : v[k]? = none := List.getElem?_eq_none (Nat.le_of_not_lt hk)
    have hd : v.getD k (w.toList.getD k 0) = w.toList.getD k 0 := by simp only [List.getD, hn, Option.getD_none]
    rw [hd, if_neg hk]
    split
    · rfl
    · next h => exact (getD_beyond (by simpa using Nat.le_of_not_lt h)).symm

/-- Two arrays with the same bytes are equal. -/
theorem array_ext {n : Nat} {v w : Vector Byte n}
    (h : ∀ k, k < n → v.toList.getD k 0 = w.toList.getD k 0) : v = w := by
  apply Vector.ext
  intro k hk
  have := h k hk
  simpa [List.getD, hk] using this

/-- An array is what its bytes fill. -/
theorem fillBytes_self {n : Nat} (w : Vector Byte n) : fillBytes n (fun k => w.toList.getD k 0) = w :=
  array_ext fun k hk => by rw [fillBytes_getD, if_pos hk]

/-- Two byte strings of one length with the same bytes are equal. -/
theorem string_ext {a b : List Byte} (hl : a.length = b.length)
    (h : ∀ k, k < a.length → a.getD k 0 = b.getD k 0) : a = b := by
  apply List.ext_getElem hl
  intro k ha hb
  rw [← getD_eq_get ha, ← getD_eq_get hb]
  exact h k ha

end Sys2Proof.Machine
end

