-- ==== Sys2Proof/Laws/Memory.lean ====
section
/-! SUPPORT. The data memory: read after write, what a write leaves alone, and that every operation keeps the
canonical form. -/

namespace Sys2Proof.Machine

open Sys2Proof

/-! ## One byte -/

theorem written_set (m : Memory) (a b : Nat) (v : Byte) :
    Memory.written (Memory.set m a v) b = if a = b then some v else Memory.written m b := by
  induction m with
  | nil => simp [Memory.set, Memory.written]
  | cons c rest ih =>
    obtain ⟨k, x⟩ := c
    simp only [Memory.set]
    split
    · simp [Memory.written]
    · split
      · next _ h => subst h; simp only [Memory.written]; split <;> simp_all
      · next _ h =>
        simp only [Memory.written, ih]
        split
        · next hk => subst hk; simp [h]
        · rfl

theorem byte_set_same (m : Memory) (a : Nat) (v : Byte) : Memory.byte (Memory.set m a v) a = v := by
  simp [Memory.byte, written_set]

theorem byte_set_other (m : Memory) {a b : Nat} (v : Byte) (h : a ≠ b) :
    Memory.byte (Memory.set m a v) b = Memory.byte m b := by
  simp [Memory.byte, written_set, h]

/-! ## The canonical form -/

theorem risingFrom_mono {m : Memory} {lo hi : Nat} (h : lo ≤ hi) (hm : Memory.risingFrom hi m = true) :
    Memory.risingFrom lo m = true := by
  cases m with
  | nil => rfl
  | cons c rest =>
    simp only [Memory.risingFrom, Bool.and_eq_true, decide_eq_true_eq] at hm ⊢
    exact ⟨Nat.le_trans h hm.1, hm.2⟩

theorem risingFrom_set {m : Memory} {lo a : Nat} (v : Byte) (ha : lo ≤ a)
    (hm : Memory.risingFrom lo m = true) : Memory.risingFrom lo (Memory.set m a v) = true := by
  induction m generalizing lo with
  | nil => simp [Memory.set, Memory.risingFrom, ha]
  | cons c rest ih =>
    obtain ⟨k, x⟩ := c
    simp only [Memory.risingFrom, Bool.and_eq_true, decide_eq_true_eq] at hm
    simp only [Memory.set]
    split
    · next h => simp [Memory.risingFrom, ha, Nat.succ_le_of_lt h, hm.2]
    · split
      · next _ h => subst h; simp [Memory.risingFrom, ha, hm.2]
      · next h1 h2 => simp [Memory.risingFrom, hm.1, ih (by omega : k + 1 ≤ a) hm.2]

/-- A write keeps the canonical form. -/
theorem wf_set {m : Memory} (a : Nat) (v : Byte) (hm : Memory.wf m = true) :
    Memory.wf (Memory.set m a v) = true :=
  risingFrom_set v (Nat.zero_le a) hm

theorem mem_set {m : Memory} {a : Nat} {v : Byte} {c : Host.Cell} (h : c ∈ Memory.set m a v) :
    c = (a, v) ∨ c ∈ m := by
  induction m with
  | nil => simpa [Memory.set] using h
  | cons d rest ih =>
    obtain ⟨k, x⟩ := d
    simp only [Memory.set] at h
    split at h
    · simpa using h
    · split at h
      · simp only [List.mem_cons] at h ⊢; tauto
      · simp only [List.mem_cons] at h ⊢
        rcases h with h | h
        · exact .inr (.inl h)
        · exact (ih h).imp id .inr

theorem written_below {m : Memory} {lo a : Nat} (hm : Memory.risingFrom lo m = true) (h : a < lo) :
    Memory.written m a = none := by
  induction m generalizing lo with
  | nil => rfl
  | cons c rest ih =>
    simp only [Memory.risingFrom, Bool.and_eq_true, decide_eq_true_eq] at hm
    simp only [Memory.written]
    rw [if_neg (by omega), ih hm.2 (by omega)]

/-- Equal memories are equal data: two memories in canonical form with the same written bytes are equal. -/
theorem memory_ext {m n : Memory} {lo : Nat} (hm : Memory.risingFrom lo m = true)
    (hn : Memory.risingFrom lo n = true) (h : ∀ a, Memory.written m a = Memory.written n a) : m = n := by
  induction m generalizing n lo with
  | nil =>
    cases n with
    | nil => rfl
    | cons c rest => have := h c.1; simp [Memory.written] at this
  | cons c rest ih =>
    obtain ⟨k, x⟩ := c
    simp only [Memory.risingFrom, Bool.and_eq_true, decide_eq_true_eq] at hm
    cases n with
    | nil => have := h k; simp [Memory.written] at this
    | cons d rest' =>
      obtain ⟨k', x'⟩ := d
      simp only [Memory.risingFrom, Bool.and_eq_true, decide_eq_true_eq] at hn
      have hk : k = k' := by
        rcases Nat.lt_trichotomy k k' with lt | eq | gt
        · have := h k
          simp [Memory.written, Nat.ne_of_gt lt, written_below hn.2 (by omega : k < k' + 1)] at this
        · exact eq
        · have := h k'
          simp [Memory.written, Nat.ne_of_gt gt, written_below hm.2 (by omega : k' < k + 1)] at this
      subst hk
      have hx : x = x' := by simpa [Memory.written] using h k
      subst hx
      congr 1
      refine ih hm.2 hn.2 fun a => ?_
      have := h a
      simp only [Memory.written] at this
      split at this
      · next e => subst e; rw [written_below hm.2 (Nat.lt_succ_self _), written_below hn.2 (Nat.lt_succ_self _)]
      · exact this

/-! ## Byte strings -/

/-- `MemWrite` leaves every byte outside its region alone. -/
theorem memWrite_other (m : Memory) (a : Nat) (v : List Byte) {b : Nat} (h : b < a ∨ a + v.length ≤ b) :
    Memory.byte (memWrite m a v) b = Memory.byte m b := by
  induction v generalizing m a with
  | nil => rfl
  | cons x rest ih =>
    simp only [List.length_cons] at h
    rw [memWrite, ih _ _ (by omega), byte_set_other _ _ (by omega)]

/-- `MemWrite(a, v)` leaves byte v[i] at address a+i. -/
theorem memWrite_byte (m : Memory) (a : Nat) (v : List Byte) {i : Nat} (h : i < v.length) :
    Memory.byte (memWrite m a v) (a + i) = v.getD i 0 := by
  induction v generalizing m a i with
  | nil => simp at h
  | cons x rest ih =>
    cases i with
    | zero => rw [memWrite, memWrite_other _ _ _ (by omega)]; simp [byte_set_same]
    | succ j =>
      have hj : j < rest.length := by simpa using h
      have := ih (Memory.set m a x) (a + 1) hj
      rw [memWrite, show a + (j + 1) = a + 1 + j by omega, this]
      simp

/-- `MemWrite` keeps the canonical form. -/
theorem wf_memWrite {m : Memory} (a : Nat) (v : List Byte) (hm : Memory.wf m = true) :
    Memory.wf (memWrite m a v) = true := by
  induction v generalizing m a with
  | nil => exact hm
  | cons x rest ih => exact ih _ (wf_set a x hm)

theorem mem_memWrite {m : Memory} {a : Nat} {v : List Byte} {c : Host.Cell} (h : c ∈ memWrite m a v) :
    c ∈ m ∨ (a ≤ c.1 ∧ c.1 < a + v.length) := by
  induction v generalizing m a with
  | nil => exact .inl h
  | cons x rest ih =>
    simp only [List.length_cons]
    rcases ih h with h1 | h1
    · rcases mem_set h1 with h2 | h2
      · subst h2; exact .inr (by simp)
      · exact .inl h2
    · exact .inr (by omega)

/-- A byte lane of a host write keeps the canonical form. -/
theorem wf_writeLane {m : Memory} (size a : Nat) (data : Word) (strb : BitVec 4) (j : Nat)
    (hm : Memory.wf m = true) : Memory.wf (writeLane size a data strb j m) = true := by
  unfold writeLane
  split
  · exact wf_set _ _ hm
  · exact hm

/-- A host write of a DMEM word keeps the canonical form. -/
theorem wf_writeDmemWord {m : Memory} (size a : Nat) (data : Word) (strb : BitVec 4)
    (hm : Memory.wf m = true) : Memory.wf (writeDmemWord size a data strb m) = true :=
  wf_writeLane _ _ _ _ _ (wf_writeLane _ _ _ _ _ (wf_writeLane _ _ _ _ _ (wf_writeLane _ _ _ _ _ hm)))

theorem mem_writeLane {m : Memory} {size a : Nat} {data : Word} {strb : BitVec 4} {j : Nat} {c : Host.Cell}
    (h : c ∈ writeLane size a data strb j m) : c ∈ m ∨ c.1 < size := by
  unfold writeLane at h
  split at h
  · next hc =>
    simp only [Bool.and_eq_true, decide_eq_true_eq] at hc
    rcases mem_set h with h | h
    · subst h; exact .inr hc.2
    · exact .inl h
  · exact .inl h

/-- A host write of a DMEM word lists no address at or above DMEM_BYTES. -/
theorem mem_writeDmemWord {m : Memory} {size a : Nat} {data : Word} {strb : BitVec 4} {c : Host.Cell}
    (h : c ∈ writeDmemWord size a data strb m) : c ∈ m ∨ c.1 < size := by
  rcases mem_writeLane h with h | h
  · rcases mem_writeLane h with h | h
    · rcases mem_writeLane h with h | h
      · exact mem_writeLane h
      · exact .inr h
    · exact .inr h
  · exact .inr h

/-- The byte a lane write leaves at an address. -/
theorem byte_writeLane (m : Memory) (size a : Nat) (data : Word) (strb : BitVec 4) (j b : Nat) :
    Memory.byte (writeLane size a data strb j m) b =
      if b = a + j ∧ strb.getLsbD j = true ∧ b < size then laneByte data j else Memory.byte m b := by
  unfold writeLane
  by_cases hb : b = a + j
  · subst hb
    split
    · next h => simp only [Bool.and_eq_true, decide_eq_true_eq] at h; simp [byte_set_same, h]
    · next h =>
      simp only [Bool.and_eq_true, decide_eq_true_eq] at h
      rw [if_neg (by tauto)]
  · rw [if_neg (c := b = a + j ∧ strb.getLsbD j = true ∧ b < size) (fun h => hb h.1)]
    split
    · rw [byte_set_other _ _ (fun h => hb h.symm)]
    · rfl

end Sys2Proof.Machine
end

