-- ==== Sys2Proof/Laws/Commands.lean ====
section
/-! SUPPORT. What a command and a step can do, said once: every command is `finish` of its check and its
result; a step is the core's turn, one input, or one poll of the loop WAIT. -/

namespace Sys2Proof.Machine

open Sys2Proof

/-! ## Checks -/

@[simp] theorem require_true (c : ErrCode) : require true c = none := rfl

@[simp] theorem require_false (c : ErrCode) : require false c = some c := rfl

theorem require_none_iff {ok : Bool} {c : ErrCode} : require ok c = none ↔ ok = true := by
  cases ok <;> simp

theorem require_some_iff {ok : Bool} {c d : ErrCode} : require ok c = some d ↔ ok = false ∧ d = c := by
  cases ok <;> simp [eq_comm]

theorem inRange_iff {s : State} {a n : Nat} :
    inRange (State.dmemBytes s) a n = true ↔ State.RegionInside s a n := by
  simp [inRange]

theorem overlap_false_iff {a1 n1 a2 n2 : Nat} : overlap a1 n1 a2 n2 = false ↔ RegionsApart a1 n1 a2 n2 := by
  simp only [overlap, Bool.and_eq_false_iff, decide_eq_false_iff_not, RegionsApart]
  omega

theorem checkContext_none_iff {s : State} : checkContext s = none ↔ s.cfg.valid = true := require_none_iff

theorem checkRange_none_iff {s : State} {a n : Nat} :
    checkRange s a n = none ↔ State.RegionInside s a n := by
  rw [checkRange, require_none_iff, inRange_iff]

theorem checkMessage_none_iff {s : State} : checkMessage s = none ↔ State.MessageInside s :=
  checkRange_none_iff

/-! ## Ends -/

@[simp] theorem finish_none (r s : State) : finish none r s = .next (commit r) := rfl

@[simp] theorem finish_some (c : ErrCode) (r s : State) : finish (some c) r s = .next (raiseError c s) := rfl

/-- A command that ends at t either committed its result or raised the error its checks found. -/
theorem finish_cases {check : Option ErrCode} {r s t : State} (h : finish check r s = .next t) :
    (check = none ∧ t = commit r) ∨ ∃ c, check = some c ∧ t = raiseError c s := by
  cases check with
  | none => exact .inl ⟨rfl, (Host.Outcome.next.inj h).symm⟩
  | some c => exact .inr ⟨c, rfl, (Host.Outcome.next.inj h).symm⟩

/-! ## Commands -/

/-- The checks of a command, in the order of R266. -/
def checkOf (i : Instr) (s : State) : Option ErrCode :=
  match i with
  | .init => require (outLengthValid s.argOutbits.toNat) .cfgOutbits
  | .hash | .pad => (checkContext s).or (checkMessage s)
  | .mac | .kmacBuild => (kmacCheck s).or (kmacRegions s)
  | .gfmul => none
  | .arcP _ | .arcQ _ | .sub | .shift | .mix | .rndP _ | .rndQ _ | .permP | .permQ | .ivload | .compressPad
  | .outxf | .trunc => checkContext s
  | .compressBlk => (checkContext s).or (checkRange s s.blkAddr.toNat (State.nb s))

/-- What the commands of the permutation engine and OUTXF write. -/
def hashStateResult (f : Engine → List Byte → List Byte) (s : State) : State :=
  State.putHashState (f (State.engine s) (State.hashBytes s)) s

/-- What a command writes when its checks pass. -/
def resultOf (i : Instr) (s : State) : State :=
  match i with
  | .init => State.initContext s.argOutbits.toNat s
  | .hash =>
    State.putHash (hashFn (State.engine s) s.dmem (State.outBytes s) (State.msgBits s) s.msgAddr.toNat) s
  | .mac => State.putHash (macFn s) (State.putSynthetic (synBuffer s) s)
  | .gfmul => { s with gfRes := gfmul (State.gfA s) (State.gfB s) }
  | .arcP k => hashStateResult (fun E => arcP E (BitVec.ofNat 8 k)) s
  | .arcQ k => hashStateResult (fun E => arcQ E (BitVec.ofNat 8 k)) s
  | .sub => hashStateResult subBytes s
  | .shift => hashStateResult shiftRows s
  | .mix => hashStateResult mixColumns s
  | .rndP k => hashStateResult (fun E => roundP E (BitVec.ofNat 8 k)) s
  | .rndQ k => hashStateResult (fun E => roundQ E (BitVec.ofNat 8 k)) s
  | .permP => hashStateResult permP s
  | .permQ => hashStateResult permQ s
  | .ivload => State.loadHashState (initialValue (State.nb s)) s
  | .pad => State.putPadding (padFn s.dmem (State.nb s) (State.msgBits s) s.msgAddr.toNat) s
  | .compressBlk =>
    State.putHashState
      (compress (State.engine s) (State.hashBytes s) (memRead s.dmem s.blkAddr.toNat (State.nb s))) s
  | .compressPad =>
    State.putHashState
      (compressBytes (State.engine s) s.padbuf.toList (s.padNbytes.toNat / State.nb s) (State.hashBytes s)) s
  | .outxf => hashStateResult outputTransform s
  | .trunc => State.putDigest (truncate (State.nb s) (State.outBytes s) (State.hashBytes s)) s
  | .kmacBuild => State.putPadding (messagePadding s) (State.putSynthetic (synBuffer s) s)

/-- Every command is its checks, then its result. -/
theorem exec_eq_finish (i : Instr) (s : State) : exec i s = finish (checkOf i s) (resultOf i s) s := by
  cases i <;> rfl

/-- A command that ends at t either committed its result or raised the error its checks found. -/
theorem exec_cases {i : Instr} {s t : State} (h : exec i s = .next t) :
    (checkOf i s = none ∧ t = commit (resultOf i s)) ∨ ∃ c, checkOf i s = some c ∧ t = raiseError c s :=
  finish_cases (exec_eq_finish i s ▸ h)

/-- A command whose checks pass commits its result. -/
theorem exec_of_check_none {i : Instr} {s : State} (h : checkOf i s = none) :
    exec i s = .next (commit (resultOf i s)) := by
  rw [exec_eq_finish, h, finish_none]

/-- A command whose checks find an error raises it. -/
theorem exec_of_check_some {i : Instr} {s : State} {c : ErrCode} (h : checkOf i s = some c) :
    exec i s = .next (raiseError c s) := by
  rw [exec_eq_finish, h, finish_some]

/-! ## What a command's result keeps -/

@[simp] theorem resultOf_ie (i : Instr) (s : State) : (resultOf i s).ie = s.ie := by
  cases i <;> simp [resultOf, hashStateResult, State.initContext]

@[simp] theorem resultOf_err (i : Instr) (s : State) : (resultOf i s).err = s.err := by
  cases i <;> simp [resultOf, hashStateResult, State.initContext]

@[simp] theorem resultOf_drop (i : Instr) (s : State) : (resultOf i s).drop = s.drop := by
  cases i <;> simp [resultOf, hashStateResult, State.initContext]

@[simp] theorem resultOf_errCode (i : Instr) (s : State) : (resultOf i s).errCode = s.errCode := by
  cases i <;> simp [resultOf, hashStateResult, State.initContext]

@[simp] theorem resultOf_argOutbits (i : Instr) (s : State) : (resultOf i s).argOutbits = s.argOutbits := by
  cases i <;> simp [resultOf, hashStateResult, State.initContext]

@[simp] theorem resultOf_msgAddr (i : Instr) (s : State) : (resultOf i s).msgAddr = s.msgAddr := by
  cases i <;> simp [resultOf, hashStateResult, State.initContext]

@[simp] theorem resultOf_msgBitsLo (i : Instr) (s : State) : (resultOf i s).msgBitsLo = s.msgBitsLo := by
  cases i <;> simp [resultOf, hashStateResult, State.initContext]

@[simp] theorem resultOf_msgBitsHi (i : Instr) (s : State) : (resultOf i s).msgBitsHi = s.msgBitsHi := by
  cases i <;> simp [resultOf, hashStateResult, State.initContext]

@[simp] theorem resultOf_keyAddr (i : Instr) (s : State) : (resultOf i s).keyAddr = s.keyAddr := by
  cases i <;> simp [resultOf, hashStateResult, State.initContext]

@[simp] theorem resultOf_keyBits (i : Instr) (s : State) : (resultOf i s).keyBits = s.keyBits := by
  cases i <;> simp [resultOf, hashStateResult, State.initContext]

@[simp] theorem resultOf_synAddr (i : Instr) (s : State) : (resultOf i s).synAddr = s.synAddr := by
  cases i <;> simp [resultOf, hashStateResult, State.initContext]

@[simp] theorem resultOf_blkAddr (i : Instr) (s : State) : (resultOf i s).blkAddr = s.blkAddr := by
  cases i <;> simp [resultOf, hashStateResult, State.initContext]

@[simp] theorem resultOf_gfOps (i : Instr) (s : State) : (resultOf i s).gfOps = s.gfOps := by
  cases i <;> simp [resultOf, hashStateResult, State.initContext]

@[simp] theorem resultOf_rom (i : Instr) (s : State) : (resultOf i s).rom = s.rom := by
  cases i <;> simp [resultOf, hashStateResult, State.initContext]

@[simp] theorem resultOf_params (i : Instr) (s : State) : (resultOf i s).params = s.params := by
  cases i <;> simp [resultOf, hashStateResult, State.initContext]

@[simp] theorem resultOf_resetHeld (i : Instr) (s : State) : (resultOf i s).resetHeld = s.resetHeld := by
  cases i <;> simp [resultOf, hashStateResult, State.initContext]

@[simp] theorem resultOf_schedule (i : Instr) (s : State) : (resultOf i s).schedule = s.schedule := by
  cases i <;> simp [resultOf, hashStateResult, State.initContext]

@[simp] theorem resultOf_rdata (i : Instr) (s : State) : (resultOf i s).rdata = s.rdata := by
  cases i <;> simp [resultOf, hashStateResult, State.initContext]

@[simp] theorem resultOf_draws (i : Instr) (s : State) : (resultOf i s).draws = s.draws := by
  cases i <;> simp [resultOf, hashStateResult, State.initContext]

/-- Only INIT writes CFG. -/
theorem resultOf_cfg {i : Instr} (h : i ≠ .init) (s : State) : (resultOf i s).cfg = s.cfg := by
  cases i <;> first | exact absurd rfl h | simp [resultOf, hashStateResult]

/-- Only MAC and KMAC_BUILD write DMEM. -/
theorem resultOf_dmem {i : Instr} (h : i ≠ .mac) (h' : i ≠ .kmacBuild) (s : State) :
    (resultOf i s).dmem = s.dmem := by
  cases i <;> first | exact absurd rfl h | exact absurd rfl h' | simp [resultOf, hashStateResult, State.initContext]

/-- What MAC and KMAC_BUILD write of DMEM. -/
theorem resultOf_dmem_synthetic {i : Instr} (h : i = .mac ∨ i = .kmacBuild) (s : State) :
    (resultOf i s).dmem = memWrite s.dmem s.synAddr.toNat (synBuffer s) := by
  rcases h with rfl | rfl <;> simp [resultOf, State.putSynthetic]

/-! ## Checks that pass -/

/-- HASH and PAD find no error. -/
theorem messageChecks_pass {s : State} (hv : s.cfg.valid = true) (hm : State.MessageInside s) :
    (checkContext s).or (checkMessage s) = none := by
  rw [checkContext_none_iff.2 hv, checkMessage_none_iff.2 hm]
  rfl

/-- MAC and KMAC_BUILD find no error. -/
theorem macChecks_pass {s : State} (h : State.MacReady s) : (kmacCheck s).or (kmacRegions s) = none := by
  obtain ⟨hc, ho, hk, h1, h2, h3, h4, h5⟩ := h
  have hm : ∀ n, n ∈ [256, 384, 512] → macLength n = true := by intro n; simp [macLength, or_assoc]
  simp only [kmacCheck, kmacRegions, checkContext_none_iff.2 hc.1, hm _ ho, hm _ hk, Config.kmacKeyEqOut,
    State.keyBytes, checkRange_none_iff.2 h1, checkMessage_none_iff.2 h2, checkRange_none_iff.2 h3,
    overlap_false_iff.2 h4, ceilBytes, overlap_false_iff.2 h5]
  rfl

/-! ## Words and steps -/

theorem runWord_cases {w : Word} {s t : State} (h : runWord w s = .next t) :
    (∃ i, decode w = some i ∧ exec i s = .next t) ∨ (decode w = none ∧ t = raiseError .illegalCmd s) := by
  unfold runWord at h
  split at h
  · next i hi => exact .inl ⟨i, hi, h⟩
  · next hi => exact .inr ⟨hi, (Host.Outcome.next.inj h).symm⟩

theorem coreTurn_cases {s t : State} (h : coreTurn s = .next t) :
    (s.phase = .idle ∧ t = s) ∨ ∃ w, s.phase = .running w ∧ runWord w s = .next t := by
  unfold coreTurn at h
  split at h
  · next hp => exact .inl ⟨hp, (Host.Outcome.next.inj h).symm⟩
  · next w hp => exact .inr ⟨w, hp, h⟩

/-- In the loop WAIT the core takes its turn when its command has no poll left to outlast, and the host polls
otherwise. -/
theorem waitTurn_cases {polls : Nat} {rest : List Turn} {s t : State} (h : waitTurn polls rest s = .next t) :
    (polls = 0 ∧ State.busy s = true ∧ coreTurn s = .next t)
      ∨ ((polls ≠ 0 ∨ State.busy s = false) ∧ t = pollStatus polls rest s) := by
  unfold waitTurn at h
  split at h
  · next hc => exact .inl (by simpa [h] using hc)
  · next hc =>
    refine .inr ⟨?_, (Host.Outcome.next.inj h).symm⟩
    cases hb : State.busy s <;> simp_all

/-- A step is one input, the core's turn, or one poll of the loop WAIT. -/
theorem step_cases {s t : State} (h : step s = .next t) :
    (∃ x rest, s.schedule = .input x :: rest ∧ t = applyInput x (State.popTurn s))
      ∨ ((s.schedule = [] ∨ ∃ rest, s.schedule = .core :: rest) ∧ coreTurn (State.popTurn s) = .next t)
      ∨ ∃ polls rest, s.schedule = .wait polls :: rest
          ∧ ((polls = 0 ∧ State.busy s = true ∧ coreTurn s = .next t)
            ∨ ((polls ≠ 0 ∨ State.busy s = false) ∧ t = pollStatus polls rest s)) := by
  unfold step at h
  split at h
  · next hs =>
    have hpop : State.popTurn s = s := by cases s; cases hs; rfl
    exact .inr (.inl ⟨.inl hs, by rw [hpop]; exact h⟩)
  · next rest hs => exact .inr (.inl ⟨.inr ⟨rest, hs⟩, h⟩)
  · next x rest hs => exact .inl ⟨x, rest, hs, (Host.Outcome.next.inj h).symm⟩
  · next polls rest hs => exact .inr (.inr ⟨polls, rest, hs, waitTurn_cases h⟩)

/-! ## Host writes -/

/-- A host write is ignored under reset, dropped while busy, taken otherwise. -/
theorem hostWrite_cases (effect : State → State) (s : State) :
    (s.resetHeld = true ∧ hostWrite effect s = s)
      ∨ (s.resetHeld = false ∧ State.busy s = true ∧ hostWrite effect s = { s with drop := true })
      ∨ (s.resetHeld = false ∧ State.busy s = false ∧ hostWrite effect s = effect s) := by
  unfold hostWrite
  cases s.resetHeld <;> cases hb : State.busy s <;> simp

/-- A host read changes nothing but the word read and the count of draws. -/
theorem hostReadReg_keeps (off : BitVec 12) (s : State) :
    ∃ v n, hostReadReg off s = { s with rdata := v, draws := n } := by
  unfold hostReadReg
  split
  · exact ⟨_, s.draws, rfl⟩
  · split
    · exact ⟨_, s.draws, rfl⟩
    · split
      · exact ⟨_, _, rfl⟩
      · exact ⟨_, s.draws, rfl⟩

/-- STATUS bit 0 is BUSY (R26). -/
@[simp] theorem statusWord_busy (s : State) : (statusWord s)[0] = State.busy s := by
  have h : (statusWord s).getLsbD 0 = State.busy s := by
    rw [statusWord, BitVec.getLsbD_append]
    simp [bit]
  exact h

/-- A poll changes the word last read and the schedule alone: the loop goes on where BUSY = 1 was read. -/
theorem pollStatus_eq (polls : Nat) (rest : List Turn) (s : State) :
    pollStatus polls rest s =
      { s with
        rdata := some (if s.resetHeld then 0 else statusWord s)
        schedule := if State.busy s && !s.resetHeld then .wait (polls - 1) :: rest else rest } := by
  have hr : hostReadReg (BitVec.ofNat 12 (regOffset .status)) s =
      { s with rdata := some (if s.resetHeld then 0 else statusWord s) } := by
    have ha : regAt (BitVec.ofNat 12 (regOffset .status)) = some .status := by decide
    unfold hostReadReg
    rw [ha]
    cases h : s.resetHeld <;> simp [h, isResult, answer, readReg]
  unfold pollStatus resultBusy
  rw [hr]
  cases h : s.resetHeld <;> simp

theorem hostReadDmem_keeps (addr : Word) (s : State) :
    ∃ v n, hostReadDmem addr s = { s with rdata := v, draws := n } := by
  unfold hostReadDmem
  split
  · exact ⟨_, s.draws, rfl⟩
  · split
    · exact ⟨_, _, rfl⟩
    · exact ⟨_, s.draws, rfl⟩

end Sys2Proof.Machine
end

