-- ==== Sys2Proof/Laws/Units.lean ====
section
/-! SUPPORT. The byte strings of the units have the lengths the spec gives them. -/

namespace Sys2Proof.Machine

open Sys2Proof

/-! ## Permutation engine: NB bytes in, NB bytes out -/

@[simp] theorem arcP_length (E : Engine) (i : Byte) (s : List Byte) : (arcP E i s).length = E.nb :=
  tabulate_length E _

@[simp] theorem arcQ_length (E : Engine) (i : Byte) (s : List Byte) : (arcQ E i s).length = E.nb :=
  tabulate_length E _

@[simp] theorem subBytes_length (E : Engine) (s : List Byte) : (subBytes E s).length = E.nb :=
  tabulate_length E _

@[simp] theorem shiftRows_length (E : Engine) (s : List Byte) : (shiftRows E s).length = E.nb :=
  tabulate_length E _

@[simp] theorem mixColumns_length (E : Engine) (s : List Byte) : (mixColumns E s).length = E.nb :=
  tabulate_length E _

@[simp] theorem roundP_length (E : Engine) (i : Byte) (s : List Byte) : (roundP E i s).length = E.nb :=
  mixColumns_length E _

@[simp] theorem roundQ_length (E : Engine) (i : Byte) (s : List Byte) : (roundQ E i s).length = E.nb :=
  mixColumns_length E _

theorem allRounds_length {round : Byte → List Byte → List Byte} {n : Nat}
    (hr : ∀ i t, (round i t).length = n) (rounds : Nat) {s : List Byte} (hs : s.length = n) :
    (allRounds rounds round s).length = n := by
  induction rounds with
  | zero => simpa [allRounds] using hs
  | succ k _ => simp [allRounds, List.range_succ, hr]

theorem permP_length (E : Engine) {s : List Byte} (hs : s.length = E.nb) : (permP E s).length = E.nb :=
  allRounds_length (roundP_length E) _ hs

theorem permQ_length (E : Engine) {s : List Byte} (hs : s.length = E.nb) : (permQ E s).length = E.nb :=
  allRounds_length (roundQ_length E) _ hs

theorem compress_length (E : Engine) {s blk : List Byte} (hs : s.length = E.nb) (hb : blk.length = E.nb) :
    (compress E s blk).length = E.nb := by
  simp [compress, permP_length E (s := xorBytes s blk) (by simp [hs, hb]), permQ_length E hb, hs]

theorem outputTransform_length (E : Engine) {s : List Byte} (hs : s.length = E.nb) :
    (outputTransform E s).length = E.nb := by
  simp [outputTransform, permP_length E hs, hs]

/-- One more round is one more round at the end. -/
theorem allRounds_succ (n : Nat) (round : Byte → List Byte → List Byte) (s : List Byte) :
    allRounds (n + 1) round s = round (BitVec.ofNat 8 n) (allRounds n round s) := by
  simp [allRounds, List.range_succ]

/-! ## The hash state of a machine -/

/-- NB of a legal CFG. -/
theorem nb_of_legal {s : State} (h : Cfg.legal s.cfg = true) :
    State.nb s = 0 ∨ State.nb s = 64 ∨ State.nb s = 128 := by
  simp only [Cfg.legal, Bool.or_eq_true, Bool.and_eq_true, decide_eq_true_eq] at h
  rcases h with h | ⟨_, h⟩
  · left; simp [State.nb, h, Cfg.zero]
  · right
    have hnb : State.nb s = (Cfg.ofLength s.cfg.outBits.toNat).nb.toNat := by rw [State.nb, ← h]
    rw [hnb]
    simp only [Cfg.ofLength]
    split <;> simp

/-- NB of an initialised context. -/
theorem nb_of_context {s : State} (h : State.HasContext s) : State.nb s = 64 ∨ State.nb s = 128 := by
  obtain ⟨hv, hl⟩ := h
  rcases nb_of_legal hl with h0 | h | h
  · exfalso
    simp only [Cfg.legal, Bool.or_eq_true, Bool.and_eq_true, decide_eq_true_eq] at hl
    rcases hl with hl | ⟨_, hl⟩
    · simp [hl, Cfg.zero] at hv
    · have hnb : State.nb s = (Cfg.ofLength s.cfg.outBits.toNat).nb.toNat := by rw [State.nb, ← hl]
      rw [hnb] at h0
      simp only [Cfg.ofLength] at h0
      split at h0 <;> simp at h0
  · exact .inl h
  · exact .inr h

theorem hashBytes_length {s : State} (h : Cfg.legal s.cfg = true) : (State.hashBytes s).length = State.nb s := by
  have := nb_of_legal h
  simp only [State.hashBytes, List.length_take, Vector.length_toList]
  omega

theorem hashBytes_getD (s : State) (k : Nat) :
    (State.hashBytes s).getD k 0 = if k < State.nb s then State.stateByte s k else 0 :=
  take_getD _ _ _

/-! ## Command words -/

/-- The number a command word of fields RND and OPC is. -/
theorem fieldsWord_toNat (r o : Byte) : (0#16 ++ r ++ o : Word).toNat = r.toNat * 256 + o.toNat := by
  have h : (0#16 ++ r ++ o : Word) = (0#16 ++ r ++ o : BitVec (16 + 8 + 8)) := rfl
  rw [h, BitVec.toNat_append, BitVec.toNat_append]
  simp only [BitVec.toNat_ofNat, Nat.zero_mod, Nat.zero_shiftLeft, Nat.zero_or]
  rw [← Nat.shiftLeft_add_eq_or_of_lt o.isLt, Nat.shiftLeft_eq]

/-! ## Padding -/

@[simp] theorem lengthField_length (L : DWord) : (lengthField L).length = 12 := by simp [lengthField]

@[simp] theorem padString_length (m : Memory) (nb : Nat) (L : DWord) (a : Nat) :
    (padString m nb L a).length = padLen nb L := by
  simp [padString, padLen]
  omega

@[simp] theorem padFn_dataN (m : Memory) (nb : Nat) (L : DWord) (a : Nat) :
    (padFn m nb L a).dataN = prefixLen nb L := rfl

@[simp] theorem padFn_bytes (m : Memory) (nb : Nat) (L : DWord) (a : Nat) :
    (padFn m nb L a).bytes = padString m nb L a := rfl

/-- Byte j of the length field. -/
theorem lengthField_getD (L : DWord) (j : Nat) :
    (lengthField L).getD j 0 = if j < 8 then L.extractLsb' (8 * j) 8 else 0 := by
  rw [lengthField, append_getD]
  simp only [List.length_map, List.length_range, zeros_getD]
  split
  · rw [getD_map_range]; simp_all
  · rfl

/-- Byte k of the padding string: the remainder, the terminator byte, zeros, the length field. -/
theorem padString_getD (m : Memory) (nb : Nat) (L : DWord) (a k : Nat) :
    (padString m nb L a).getD k 0 =
      if k < remLen nb L then Memory.byte m (a + prefixLen nb L + k)
      else if k = remLen nb L then terminator (partialBits L) (Memory.byte m (a + wholeBytes L))
      else if k < remLen nb L + 1 + zeroCount nb L then 0
      else (lengthField L).getD (k - (remLen nb L + 1 + zeroCount nb L)) 0 := by
  unfold padString
  simp only [append_getD, List.length_append, memRead_length, List.length_singleton, zeros_length, zeros_getD,
    memRead_getD]
  by_cases h1 : k < remLen nb L
  · simp [h1, show k < remLen nb L + 1 by omega, show k < remLen nb L + 1 + zeroCount nb L by omega]
  · by_cases h2 : k = remLen nb L
    · subst h2; simp [show remLen nb L < remLen nb L + 1 + zeroCount nb L by omega]
    · simp [h1, h2, show ¬k < remLen nb L + 1 by omega]

/-- A byte of PADBUF after a padding has been put there. -/
theorem putPadding_padByte (p : Padding) (s : State) (k : Nat) (h : p.bytes.length ≤ 256) :
    State.padByte (State.putPadding p s) k = p.bytes.getD k 0 := by
  rw [State.padByte, State.putPadding_padbuf, zeroFill_getD]
  split
  · rfl
  · rw [getD_beyond (by omega)]

theorem keyLen_toNat (s : State) : (State.keyLen s).toNat = s.keyBits.toNat := by
  simp only [State.keyLen, BitVec.toNat_setWidth]
  have := s.keyBits.isLt
  omega

/-- The synthetic buffer has the length the lengths alone give. -/
theorem synBuffer_length (s : State) : (synBuffer s).length = State.synLen s := by
  simp [synBuffer, State.synLen, keyPadding, messagePadding]
  omega

end Sys2Proof.Machine
end

