-- ==== Sys2Proof/Laws/PerInstr.lean ====
section
/-! SUPPORT. Statements for all instructions, made per instruction. Family `OpcodeRow`: the command word of an
instruction has the opcode its row of spec/opcode_table.json fixes in bits 7:0, and zeros in bits 31:16. -/

namespace Sys2Proof.Laws.OpcodeRow

open Sys2Proof

/-- The encoding of i matches its row under the row's mask, and bits 31:16 are zero. -/
def Statement (i : Instr) : Prop := opcField (encode i) = i.opc ∧ (encode i).extractLsb' 16 16 = 0

theorem encode_row (i : Instr) : Statement i := by
  have h : (encode i).toNat = (BitVec.ofNat 8 i.index).toNat * 256 + i.opc.toNat :=
    Machine.fieldsWord_toNat _ _
  have h1 := (BitVec.ofNat 8 i.index).isLt
  have h2 := i.opc.isLt
  constructor <;> apply BitVec.eq_of_toNat_eq <;>
    simp only [opcField, BitVec.extractLsb'_toNat, h, Nat.shiftRight_eq_div_pow, BitVec.ofNat_eq_ofNat,
      BitVec.toNat_ofNat] <;> omega

theorem init : Statement .init := encode_row _
theorem hash : Statement .hash := encode_row _
theorem mac : Statement .mac := encode_row _
theorem gfmul : Statement .gfmul := encode_row _
theorem arcP (k : Nat) : Statement (.arcP k) := encode_row _
theorem arcQ (k : Nat) : Statement (.arcQ k) := encode_row _
theorem sub : Statement .sub := encode_row _
theorem shift : Statement .shift := encode_row _
theorem mix : Statement .mix := encode_row _
theorem rndP (k : Nat) : Statement (.rndP k) := encode_row _
theorem rndQ (k : Nat) : Statement (.rndQ k) := encode_row _
theorem permP : Statement .permP := encode_row _
theorem permQ : Statement .permQ := encode_row _
theorem ivload : Statement .ivload := encode_row _
theorem pad : Statement .pad := encode_row _
theorem compressBlk : Statement .compressBlk := encode_row _
theorem compressPad : Statement .compressPad := encode_row _
theorem outxf : Statement .outxf := encode_row _
theorem trunc : Statement .trunc := encode_row _
theorem kmacBuild : Statement .kmacBuild := encode_row _

end Sys2Proof.Laws.OpcodeRow
end

