-- ==== Sys2Proof/Laws/Steps.lean ====
section
/-! SUPPORT. Command words, turns and runs: what the core's turn and the host's accesses can do, said once. -/

namespace Sys2Proof.Machine

open Sys2Proof

/-! ## Command words -/

theorem encode_toNat (i : Instr) : (encode i).toNat = i.index % 256 * 256 + i.opc.toNat := by
  have h := fieldsWord_toNat (BitVec.ofNat 8 i.index) i.opc
  simpa [encode] using h

theorem opcField_toNat (w : Word) : (opcField w).toNat = w.toNat % 256 := by
  simp [opcField, BitVec.extractLsb'_toNat]

theorem rndField_toNat (w : Word) : (rndField w).toNat = w.toNat / 256 % 256 := by
  simp [rndField, BitVec.extractLsb'_toNat, Nat.shiftRight_eq_div_pow]

/-- A write with all four byte enables set is the whole word. -/
@[simp] theorem maskLanes_all (w : Word) : maskLanes w 0b1111 = w := by
  have h : laneMask 0b1111 = BitVec.allOnes 32 := by decide
  rw [maskLanes, h, BitVec.and_allOnes]

/-! ## Turns -/

theorem coreTurn_idle {s : State} (h : s.phase = .idle) : coreTurn s = .next s := by
  unfold coreTurn; rw [h]

theorem coreTurn_running {s : State} {w : Word} (h : s.phase = .running w) : coreTurn s = runWord w s := by
  unfold coreTurn; rw [h]

theorem runWord_some {w : Word} {i : Instr} (h : decode w = some i) (s : State) : runWord w s = exec i s := by
  unfold runWord; rw [h]

theorem runWord_none {w : Word} (h : decode w = none) (s : State) :
    runWord w s = .next (raiseError .illegalCmd s) := by
  unfold runWord; rw [h]; rfl

/-- With no input due, a step is the core's turn. -/
theorem step_core {s : State} (h : s.schedule.head? = some .core ∨ s.schedule = []) :
    step s = coreTurn (State.popTurn s) := by
  unfold step State.popTurn
  rcases h with h | h
  · cases hs : s.schedule with
    | nil => simp [hs] at h
    | cons t rest =>
      rw [hs] at h
      cases Option.some.inj h
      rfl
  · rw [h]; cases s; cases h; rfl

/-- A step takes the input that is due. -/
theorem step_input {s : State} {x : Input} {rest : List Turn} (h : s.schedule = .input x :: rest) :
    step s = .next (applyInput x (State.popTurn s)) := by
  unfold step; rw [h]

/-- Every command ends. -/
theorem exec_next (i : Instr) (s : State) : ∃ t, exec i s = .next t := by
  rw [exec_eq_finish]
  cases checkOf i s with
  | none => exact ⟨_, rfl⟩
  | some c => exact ⟨_, rfl⟩

/-- The core's turn always gives a next state, and the core is idle in it. -/
theorem coreTurn_next (s : State) : ∃ t, coreTurn s = .next t ∧ t.phase = .idle := by
  cases hp : s.phase with
  | idle => exact ⟨s, coreTurn_idle hp, hp⟩
  | running w =>
    rw [coreTurn_running hp]
    cases hd : decode w with
    | none => exact ⟨_, runWord_none hd s, rfl⟩
    | some i =>
      rw [runWord_some hd, exec_eq_finish]
      cases checkOf i s with
      | none => exact ⟨_, rfl, rfl⟩
      | some c => exact ⟨_, rfl, rfl⟩

/-! ## Runs -/

/-- A run of one step more. -/
theorem run_succ {s t : State} (h : step s = .next t) (n : Nat) :
    Host.Core.run Sys2Proof.core (n + 1) s = Host.Core.run Sys2Proof.core n t := by
  have e : Sys2Proof.core.step s = .next t := h
  simp only [Host.Core.run]
  rw [e]

/-! ## What a command does not depend on -/

theorem checkOf_bus (i : Instr) (s : State) (d : Bool) (ts : List Turn) (r : Option Word) (n : Nat) :
    checkOf i { s with drop := d, schedule := ts, rdata := r, draws := n } = checkOf i s := by
  cases i <;> rfl

theorem resultOf_bus (i : Instr) (s : State) (d : Bool) (ts : List Turn) (r : Option Word) (n : Nat) :
    resultOf i { s with drop := d, schedule := ts, rdata := r, draws := n } =
      { resultOf i s with drop := d, schedule := ts, rdata := r, draws := n } := by
  cases i <;> rfl

/-- The core's turn neither reads nor writes DROP, the turns to come, the word last read or the draws. -/
theorem coreTurn_bus {s t : State} (h : coreTurn s = .next t) (d : Bool) (ts : List Turn) (r : Option Word)
    (n : Nat) :
    coreTurn { s with drop := d, schedule := ts, rdata := r, draws := n } =
      .next { t with drop := d, schedule := ts, rdata := r, draws := n } := by
  rcases coreTurn_cases h with ⟨hp, rfl⟩ | ⟨w, hp, hw⟩
  · exact coreTurn_idle hp
  · rw [coreTurn_running (w := w) (by exact hp)]
    rcases runWord_cases hw with ⟨i, hi, he⟩ | ⟨hi, rfl⟩
    · rw [runWord_some hi, exec_eq_finish, checkOf_bus, resultOf_bus]
      rcases exec_cases he with ⟨hc, rfl⟩ | ⟨c, hc, rfl⟩ <;> rw [hc] <;> rfl
    · rw [runWord_none hi]; rfl

/-! ## What the host's port changes -/

/-- An access while a command runs changes DROP, the word last read and the draws only. -/
theorem access_running {x : Input} {s : State} {w : Word} (hp : s.phase = .running w) (hr : s.resetHeld = false)
    (hx : x.isRead = true ∨ x.isWrite = true) :
    ∃ r n, applyInput x s = { s with drop := s.drop || x.isWrite, rdata := r, draws := n } := by
  have hb : State.busy s = true := by simp [State.busy, hp]
  cases x with
  | regWrite off data strb =>
    exact ⟨s.rdata, s.draws, by simp [applyInput, hostWriteReg, hostWrite, hr, hb, Input.isWrite]⟩
  | regRead off =>
    obtain ⟨v, n, h⟩ := hostReadReg_keeps off s
    exact ⟨v, n, by simp [applyInput, h, Input.isWrite]⟩
  | dmemWrite addr data strb =>
    exact ⟨s.rdata, s.draws, by simp [applyInput, hostWriteDmem, hostWrite, hr, hb, Input.isWrite]⟩
  | dmemRead addr =>
    obtain ⟨v, n, h⟩ := hostReadDmem_keeps addr s
    exact ⟨v, n, by simp [applyInput, h, Input.isWrite]⟩
  | resetAssert => simp [Input.isRead, Input.isWrite] at hx
  | resetRelease => simp [Input.isRead, Input.isWrite] at hx

/-- What a write to a register word can change while the core is idle. -/
theorem writeReg_keeps (r : Reg) (data : Word) (strb : BitVec 4) (s : State) :
    (writeReg r data strb s).cfg = s.cfg ∧ (writeReg r data strb s).rom = s.rom
      ∧ (writeReg r data strb s).params = s.params ∧ (writeReg r data strb s).dmem = s.dmem
      ∧ (writeReg r data strb s).padbuf = s.padbuf ∧ (writeReg r data strb s).padNbytes = s.padNbytes
      ∧ (writeReg r data strb s).dataNbytes = s.dataNbytes ∧ (writeReg r data strb s).digest = s.digest
      ∧ (writeReg r data strb s).gfRes = s.gfRes ∧ (writeReg r data strb s).synNbytes = s.synNbytes
      ∧ (writeReg r data strb s).resetHeld = s.resetHeld ∧ (writeReg r data strb s).schedule = s.schedule
      ∧ (writeReg r data strb s).rdata = s.rdata ∧ (writeReg r data strb s).draws = s.draws := by
  cases r <;> simp [writeReg, ackStatus]

/-- A host write of a register word changes one register, or sets DROP. -/
theorem hostWriteReg_cases (off : BitVec 12) (data : Word) (strb : BitVec 4) (s : State) :
    hostWriteReg off data strb s = s
      ∨ (s.resetHeld = false ∧ State.busy s = true ∧ hostWriteReg off data strb s = { s with drop := true })
      ∨ ∃ r, regAt off = some r ∧ s.resetHeld = false ∧ State.busy s = false
          ∧ hostWriteReg off data strb s = writeReg r data strb s := by
  unfold hostWriteReg
  rcases hostWrite_cases (fun t => match regAt off with | none => t | some r => writeReg r data strb t) s with
    ⟨_, h⟩ | ⟨hr, hb, h⟩ | ⟨hr, hb, h⟩
  · exact .inl h
  · exact .inr (.inl ⟨hr, hb, h⟩)
  · cases ha : regAt off with
    | none => rw [ha] at h; exact .inl (by simpa [ha] using h)
    | some r => exact .inr (.inr ⟨r, rfl, hr, hb, by simpa [ha] using h⟩)

/-- A host write of a DMEM word changes DMEM alone, or sets DROP. -/
theorem hostWriteDmem_cases (addr : Word) (data : Word) (strb : BitVec 4) (s : State) :
    hostWriteDmem addr data strb s = s
      ∨ (s.resetHeld = false ∧ State.busy s = true ∧ hostWriteDmem addr data strb s = { s with drop := true })
      ∨ (s.resetHeld = false ∧ State.busy s = false
          ∧ hostWriteDmem addr data strb s =
            { s with dmem := writeDmemWord (State.dmemBytes s) (wordBase addr) data strb s.dmem }) := by
  unfold hostWriteDmem
  rcases hostWrite_cases
      (fun t => { t with dmem := writeDmemWord (State.dmemBytes t) (wordBase addr) data strb t.dmem }) s with
    ⟨_, h⟩ | h | h
  · exact .inl h
  · exact .inr (.inl h)
  · exact .inr (.inr h)

/-- The core's turn takes nothing off the schedule. -/
theorem coreTurn_schedule {s t : State} (h : coreTurn s = .next t) : t.schedule = s.schedule := by
  rcases coreTurn_cases h with ⟨_, rfl⟩ | ⟨w, _, hw⟩
  · rfl
  · rcases runWord_cases hw with ⟨i, _, he⟩ | ⟨_, rfl⟩
    · rcases exec_cases he with ⟨_, rfl⟩ | ⟨c, _, rfl⟩ <;> simp
    · rfl

/-- An input takes nothing off the schedule. -/
theorem applyInput_schedule (x : Input) (s : State) : (applyInput x s).schedule = s.schedule := by
  cases x with
  | regWrite off data strb =>
    rcases hostWriteReg_cases off data strb s with h | ⟨_, _, h⟩ | ⟨r, _, _, _, h⟩ <;> simp only [applyInput, h]
    exact (writeReg_keeps r data strb s).2.2.2.2.2.2.2.2.2.2.2.1
  | regRead off =>
    obtain ⟨v, n, h⟩ := hostReadReg_keeps off s
    simp only [applyInput, h]
  | dmemWrite addr data strb =>
    rcases hostWriteDmem_cases addr data strb s with h | ⟨_, _, h⟩ | ⟨_, _, h⟩ <;> simp only [applyInput, h]
  | dmemRead addr =>
    obtain ⟨v, n, h⟩ := hostReadDmem_keeps addr s
    simp only [applyInput, h]
  | resetAssert => rfl
  | resetRelease => simp only [applyInput]; split <;> rfl

/-- A step in the loop WAIT. -/
theorem step_wait {s : State} {polls : Nat} {rest : List Turn} (h : s.schedule = .wait polls :: rest) :
    step s = waitTurn polls rest s := by
  unfold step; rw [h]

/-- Every step gives a next state, in which the core is idle or fewer steps are left of the schedule. -/
theorem step_next (s : State) :
    ∃ t, step s = .next t
      ∧ (t.phase = .idle ∨ (t.schedule.map Turn.steps).sum < (s.schedule.map Turn.steps).sum) := by
  have hcore : s.schedule.head? = some .core ∨ s.schedule = [] → ∃ t, step s = .next t ∧ t.phase = .idle :=
    fun h => by rw [step_core h]; exact coreTurn_next _
  cases hsch : s.schedule with
  | nil => exact (hcore (.inr hsch)).imp fun _ h => ⟨h.1, .inl h.2⟩
  | cons turn rest =>
    cases turn with
    | input x =>
      refine ⟨_, step_input hsch, .inr ?_⟩
      rw [applyInput_schedule, State.popTurn, hsch]
      simp [Turn.steps]
    | core => exact (hcore (.inl (by rw [hsch]; rfl))).imp fun _ h => ⟨h.1, .inl h.2⟩
    | wait polls =>
      rw [step_wait hsch, waitTurn]
      split
      · exact (coreTurn_next s).imp fun _ h => ⟨h.1, .inl h.2⟩
      · next hc =>
        refine ⟨_, rfl, .inr ?_⟩
        rw [pollStatus_eq]
        cases hb : State.busy s <;> cases s.resetHeld <;> simp_all [Turn.steps]
        omega

/-- A sequence of commands begins with its first command. -/
theorem execAll_cons {i : Instr} {s t : State} (h : exec i s = .next t) (rest : List Instr) :
    execAll (i :: rest) s = execAll rest t := by
  simp [execAll, h, andThen]

end Sys2Proof.Machine
end

