-- ==== Sys2Proof/Tests/Slice0.lean ====
section
/-! SUPPORT. Tests of one step each, ill-formed terms the checks refuse, command words written out bit by bit, and
witnesses for the hypotheses of the obligations. Expected values are those of spec/95_test_vectors.md (the vector is
named), of a worked example of the rule named, or worked by hand from it. -/

namespace Sys2Proof.Tests

open Sys2Proof Sys2Proof.Machine

/-! ## Test machines: the test configuration TC, with DMEM_BYTES = 0x1000 -/

/-- `SBOX_T[t][x] = ((2t + 3)·x + 0x10·t + 1) mod 256` (I1). -/
def sboxRow (t : Nat) : Vector Byte 256 := fillBytes 256 fun x => BitVec.ofNat 8 ((2 * t + 3) * x + 0x10 * t + 1)

/-- MDS_GK (I2): row r is `01 01 05 01 08 06 07 04` rotated r places to the right. -/
def mdsRow (r : Nat) : Vector Byte 8 :=
  fillBytes 8 fun b => [(0x01 : Byte), 0x01, 0x05, 0x01, 0x08, 0x06, 0x07, 0x04].getD ((b + 8 - r) % 8) 0

def rom : Rom :=
  { sbox := ⟨#[sboxRow 0, sboxRow 1, sboxRow 2, sboxRow 3], rfl⟩
    mds := ⟨#[mdsRow 0, mdsRow 1, mdsRow 2, mdsRow 3, mdsRow 4, mdsRow 5, mdsRow 6, mdsRow 7], rfl⟩ }

/-- Just after reset, with the row rotation in a direction. -/
def startDir (dir : RotDir) : State :=
  State.resetWith { rotDir := dir, dmemTop := 0xFFF, regBase := 0, dmemBase := 0 } rom

def start : State := startDir .towardLower

/-- INIT n done. -/
def withLength (n : Nat) (s : State) : State :=
  { s with cfg := Cfg.ofLength n, hashState := zeroFill 128 (initialValue (Cfg.ofLength n).nb.toNat), done := true }

/-- STATE[k] <- f k. -/
def withState (f : Nat → Byte) (s : State) : State := { s with hashState := fillBytes 128 f }

/-- SEQ64, and SEQ128 in the large mode: STATE[k] = k. -/
def seq : Nat → Byte := BitVec.ofNat 8

def small : State := withLength 256 start
def large : State := withLength 512 start
def running (w : Word) : State := { small with phase := .running w, done := false }

/-- V-KMAC-1's arguments, with the buffer at `syn`. -/
def kmac (syn : Word) : State :=
  { small with
    keyBits := 256, msgAddr := 0x40, msgBitsLo := 8, synAddr := syn
    dmem := memWrite (memWrite [] 0 ((List.range 32).map seq)) 0x40 [0x5A] }

/-- What f shows of the next state. -/
def after {α : Type} (o : Host.Outcome State Fault Refusal) (f : State → α) : Option α :=
  match o with
  | .next t => some (f t)
  | .fault _ => none
  | .refused _ => none

/-- n bytes of STATE from byte k on. -/
def stateBytes (k n : Nat) (s : State) : List Byte := (List.range n).map fun j => State.stateByte s (k + j)

/-- n bytes of PADBUF from byte k on. -/
def padBytes (k n : Nat) (s : State) : List Byte := (List.range n).map fun j => State.padByte s (k + j)

/-! ## Well-formedness refuses (R98, R97, R66, R60, R99) -/

theorem test_index_above_255_refused :
    (Instr.arcP 256).wellFormed = false ∧ (Instr.arcQ 256).wellFormed = false
      ∧ (Instr.rndP 256).wellFormed = false ∧ (Instr.rndQ 256).wellFormed = false := by decide

theorem test_window_index_refused :
    (Reg.stateWin 2).wellFormed = false ∧ (Reg.stateWin 128).wellFormed = false
      ∧ (Reg.padbufWin 253).wellFormed = false ∧ (Reg.padbufWin 256).wellFormed = false
      ∧ (Reg.digestWin 1).wellFormed = false ∧ (Reg.digestWin 64).wellFormed = false := by decide

theorem test_window_index_last_accepted :
    (Reg.stateWin 124).wellFormed = true ∧ (Reg.padbufWin 252).wellFormed = true
      ∧ (Reg.digestWin 60).wellFormed = true := by decide

theorem test_register_lines_refused :
    (Line.wr .keyBits (2 ^ 32)).wellFormed = false ∧ (Line.wr (.stateWin 3) 0).wellFormed = false
      ∧ (Line.wrb .keyBits (2 ^ 32) 15).wellFormed = false ∧ (Line.wrb .keyBits 0 16).wellFormed = false
      ∧ (Line.wrb (.digestWin 64) 0 15).wellFormed = false ∧ (Line.rd (.padbufWin 1)).wellFormed = false := by decide

theorem test_dmem_lines_refused :
    (Line.dw (2 ^ 32) 0).wellFormed = false ∧ (Line.dw 0 (2 ^ 32)).wellFormed = false
      ∧ (Line.dwb (2 ^ 32) 0 15).wellFormed = false ∧ (Line.dwb 0 (2 ^ 32) 15).wellFormed = false
      ∧ (Line.dwb 0 0 16).wellFormed = false ∧ (Line.dr (2 ^ 32)).wellFormed = false := by decide

theorem test_command_lines_refused :
    (Line.cmd (.rndQ 256)).wellFormed = false ∧ (Line.doCmd (.arcP 300) 0).wellFormed = false
      ∧ (Line.set64 .dataNbytes (2 ^ 64)).wellFormed = false ∧ (Line.set64 .msgBits (2 ^ 64)).wellFormed = false := by
  decide

theorem test_loadb_lines_refused :
    (Line.loadb 2 [0]).wellFormed = false ∧ (Line.loadb 0 [256]).wellFormed = false
      ∧ (Line.loadb 0xFFFFFFFC [1, 2, 3, 4, 5]).wellFormed = false
      ∧ (Line.loadb 0xFFFFFFFC [1, 2, 3, 4]).wellFormed = true := by decide

/-! ## Command words written out from R91's pattern `xxxxxxxx xxxxxxxx RRRRRRRR OOOOOOOO` and R93's opcodes -/

theorem test_decode_entry_words :
    decode 0b00000000_00000000_00000000_00000001 = some .init
      ∧ decode 0b00000000_00000000_00000000_00000010 = some .hash
      ∧ decode 0b00000000_00000000_00000000_00000011 = some .mac := by decide

theorem test_decode_gf_word : decode 0b00000000_00000000_00000000_00010000 = some .gfmul := by decide

theorem test_decode_permutation_words :
    decode 0b00000000_00000000_00110101_00010001 = some (.arcP 0x35)
      ∧ decode 0b00000000_00000000_00000011_00010010 = some (.arcQ 3)
      ∧ decode 0b00000000_00000000_00000000_00010011 = some .sub
      ∧ decode 0b00000000_00000000_00000000_00010100 = some .shift
      ∧ decode 0b00000000_00000000_00000000_00010101 = some .mix
      ∧ decode 0b00000000_00000000_00001001_00010110 = some (.rndP 9)
      ∧ decode 0b00000000_00000000_10000000_00010111 = some (.rndQ 128)
      ∧ decode 0b00000000_00000000_00000000_00011000 = some .permP
      ∧ decode 0b00000000_00000000_00000000_00011001 = some .permQ := by decide

theorem test_decode_compression_words :
    decode 0b00000000_00000000_00000000_00100000 = some .ivload
      ∧ decode 0b00000000_00000000_00000000_00100010 = some .compressBlk
      ∧ decode 0b00000000_00000000_00000000_00100011 = some .compressPad := by decide

theorem test_decode_padding_and_output_words :
    decode 0b00000000_00000000_00000000_00100001 = some .pad
      ∧ decode 0b00000000_00000000_00000000_00100100 = some .outxf
      ∧ decode 0b00000000_00000000_00000000_00100101 = some .trunc := by decide

theorem test_decode_kmac_word : decode 0b00000000_00000000_00000000_00110000 = some .kmacBuild := by decide

/-- R95: bits 31:16, and RND where it is not used, are ignored (V-ERR-3d). -/
theorem test_decode_ignores_upper_bits :
    decode 0xABCD0313 = some .sub ∧ decode 0xFFFF0312 = some (.arcQ 3) ∧ decode 0x0000FF01 = some .init := by decide

/-- R94: both ends of every range of illegal opcodes. -/
theorem test_decode_illegal_words :
    decode 0x00000000 = none ∧ decode 0x00000004 = none ∧ decode 0x0000000F = none ∧ decode 0xFFFF001A = none
      ∧ decode 0x0000001F = none ∧ decode 0x00000026 = none ∧ decode 0x0000002F = none ∧ decode 0x00000031 = none
      ∧ decode 0x000000FF = none := by decide

/-- R98's example. -/
theorem test_encode_arcQ : encode (.arcQ 3) = 0x00000312 ∧ encode .kmacBuild = 0x00000030 := by decide

/-- The table word of a row of 8 bits keeps no bit above them. -/
theorem test_decodeTableWord_cuts : decodeTableWord 8 0x1F30 = some .kmacBuild ∧ decodeTableWord 16 0x0516 = some (.rndP 5) := by
  decide

/-! ## Entry commands -/

/-- V-INIT. -/
theorem test_init_cfg :
    [8, 256, 264, 512].map (fun n => after (exec .init { start with argOutbits := BitVec.ofNat 32 n }) fun t =>
        (Cfg.word t.cfg, statusWord t)) =
      [some (0x40A10008, 0x2), some (0x40A10100, 0x2), some (0x80E30108, 0x2), some (0x80E30200, 0x2)] := by decide

/-- V-INIT, V-ERR-9: CFG keeps 0x40A10100. -/
theorem test_init_refuses :
    [0, 4, 260, 520, 0xFFFFFFF8].map (fun n => after (exec .init { small with argOutbits := BitVec.ofNat 32 n })
        fun t => (Cfg.word t.cfg, statusWord t)) =
      List.replicate 5 (some (0x40A10100, 0x106)) := by decide

/-- V-ERR-1. -/
theorem test_hash_not_init : after (exec .hash start) statusWord = some 0x406 := by decide

/-- V-ERR-5d and V-ERR-5e. -/
theorem test_hash_range :
    after (exec .hash { small with msgAddr := 0xFFFFFFFF }) statusWord = some 0x2
      ∧ after (exec .hash { small with msgBitsHi := 1, msgBitsLo := 8 }) statusWord = some 0x606 := by decide

/-- V-ERR-4, V-ERR-4b, V-ERR-6. -/
theorem test_mac_lengths :
    after (exec .mac { withLength 128 start with keyBits := 256 }) statusWord = some 0x206
      ∧ after (exec .mac { withLength 128 start with keyBits := 100 }) statusWord = some 0x206
      ∧ after (exec .mac { small with keyBits := 255 }) statusWord = some 0x306 := by decide

/-- V-ERR-7, 7b, 7c, 7d. -/
theorem test_mac_regions :
    [0x10, 0x20, 0x41, 0xF61].map (fun a => after (exec .mac (kmac a)) statusWord) =
      [some 0x706, some 0x706, some 0x2, some 0x606] := by decide

/-! ## GF multiplier -/

/-- V-GF-1, V-GF-2, V-GF-7, V-GF-9, V-GF-14, V-GF-15; V-ERR-2: no context is needed. -/
theorem test_gfmul :
    [0x8357, 0x5783, 0x0280, 0xFFFF, 0xFF08, 0x8006].map
        (fun ops => after (exec .gfmul { start with gfOps := ops }) fun t => (t.gfRes, statusWord t)) =
      [some (0x31, 0x2), some (0x31, 0x2), some (0x1D, 0x2), some (0xE2, 0x2), some (0xAB, 0x2), some (0x27, 0x2)] := by
  decide

/-! ## Permutation engine -/

/-- V-PERM-1: `ARC_P 0x35` on SEQ64. -/
theorem test_arcP_seq :
    after (exec (.arcP 0x35) (withState seq small))
        (fun t => ((List.range 8).map (State.cellAt t 0), State.cellAt t 1 0, State.stateByte t 64)) =
      some ([0x35, 0x2D, 0x05, 0x1D, 0x55, 0x4D, 0x65, 0x7D], 1, 64) := by decide +kernel

/-- V-PERM-1: `ARC_P 13` on large ZERO. -/
theorem test_arcP_large :
    after (exec (.arcP 13) (withState (fun _ => 0) large)) (fun t => (List.range 16).map (State.cellAt t 0)) =
      some [0x0D, 0x1D, 0x2D, 0x3D, 0x4D, 0x5D, 0x6D, 0x7D, 0x8D, 0x9D, 0xAD, 0xBD, 0xCD, 0xDD, 0xED, 0xFD] := by
  decide +kernel

/-- V-PERM-2: `ARC_Q 1` on small all-0xFF, columns 0 and 7. -/
theorem test_arcQ_carries :
    after (exec (.arcQ 1) (withState (fun _ => 0xFF) small)) (fun t => (stateBytes 0 8 t, stateBytes 56 8 t)) =
      some ([0xF2, 0xF0, 0xF0, 0xF0, 0xF0, 0xF0, 0xF0, 0x71], [0xF2, 0xF0, 0xF0, 0xF0, 0xF0, 0xF0, 0xF0, 0x01]) := by
  decide +kernel

/-- V-PERM-2: `ARC_Q 0` on large ZERO, columns 0 and 15. -/
theorem test_arcQ_large :
    after (exec (.arcQ 0) (withState (fun _ => 0) large)) (fun t => (stateBytes 0 8 t, stateBytes 120 8 t)) =
      some ([0xF3, 0xF0, 0xF0, 0xF0, 0xF0, 0xF0, 0xF0, 0xF0], [0xF3, 0xF0, 0xF0, 0xF0, 0xF0, 0xF0, 0xF0, 0x00]) := by
  decide +kernel

/-- V-PERM-7. -/
theorem test_sub :
    after (exec .sub (withState seq small)) (stateBytes 0 16) =
      some [0x01, 0x16, 0x2F, 0x4C, 0x0D, 0x2A, 0x4B, 0x70, 0x19, 0x3E, 0x67, 0x94, 0x25, 0x52, 0x83, 0xB8] := by
  decide +kernel

/-- V-PERM-8: SEQ128, TOWARD_LOWER, columns 0 and 5. -/
theorem test_shift_lower :
    after (exec .shift (withState seq large)) (fun t => (stateBytes 0 8 t, stateBytes 40 8 t)) =
      some ([0x00, 0x09, 0x12, 0x1B, 0x24, 0x2D, 0x36, 0x5F], [0x28, 0x31, 0x3A, 0x43, 0x4C, 0x55, 0x5E, 0x07]) := by
  decide +kernel

/-- V-PERM-8: SEQ64, TOWARD_HIGHER, columns 0 and 7. -/
theorem test_shift_higher :
    after (exec .shift (withState seq (withLength 256 (startDir .towardHigher))))
        (fun t => (stateBytes 0 8 t, stateBytes 56 8 t)) =
      some ([0x00, 0x39, 0x32, 0x2B, 0x24, 0x1D, 0x16, 0x0F], [0x38, 0x31, 0x2A, 0x23, 0x1C, 0x15, 0x0E, 0x07]) := by
  decide +kernel

/-- V-PERM-9: SEQ64, columns 0 and 7. -/
theorem test_mix :
    after (exec .mix (withState seq small)) (fun t => (stateBytes 0 8 t, stateBytes 56 8 t)) =
      some ([0x38, 0x21, 0x36, 0x27, 0x1C, 0x05, 0x12, 0x03], [0xDD, 0xC4, 0xD3, 0xC2, 0xF9, 0xE0, 0xF7, 0xE6]) := by
  decide +kernel

/-- V-PERM-3, column 0. -/
theorem test_rndP :
    after (exec (.rndP 0) (withState seq small)) (stateBytes 0 8) =
      some [0xC0, 0xC7, 0xB3, 0x52, 0xDC, 0x60, 0x6D, 0xCC] := by decide +kernel

/-- V-PERM-4, column 0. -/
theorem test_rndQ :
    after (exec (.rndQ 0) (withState seq small)) (stateBytes 0 8) =
      some [0xCF, 0xB3, 0x44, 0xCF, 0x60, 0x99, 0x87, 0x77] := by decide +kernel

/-- R138: ten rounds, index 0 first. -/
theorem test_permP_rounds (s : List Byte) (f : Byte → List Byte → List Byte) :
    allRounds (State.engine small).rounds f s =
      f 9 (f 8 (f 7 (f 6 (f 5 (f 4 (f 3 (f 2 (f 1 (f 0 s))))))))) := rfl

/-- R147, R148: without a context. -/
theorem test_perm_not_init :
    after (exec .permP start) statusWord = some 0x406 ∧ after (exec .permQ start) statusWord = some 0x406 := by
  decide

/-! ## Padding unit -/

/-- V-PAD-3a: L = 7, message byte AA. -/
theorem test_pad_seven_bits :
    after (exec .pad { small with msgBitsLo := 7, dmem := [(0, 0xAA)] })
        (fun t => (padBytes 0 2 t, padBytes 51 3 t, padBytes 63 2 t, t.padNbytes, t.dataNbytes)) =
      some ([0xAB, 0x00], [0x00, 0x07, 0x00], [0x00, 0x00], 64, 0) := by decide +kernel

/-- V-PAD-8: 52 bytes, two blocks. -/
theorem test_pad_two_blocks :
    after (exec .pad { small with msgBitsLo := 416, dmem := memWrite [] 0 ((List.range 52).map seq) })
        (fun t => (padBytes 50 4 t, padBytes 115 4 t, t.padNbytes, t.dataNbytes)) =
      some ([0x32, 0x33, 0x80, 0x00], [0x00, 0xA0, 0x01, 0x00], 128, 0) := by decide +kernel

/-! ## Compression driver and output unit -/

/-- V-IV-1. -/
theorem test_ivload :
    after (exec .ivload (withState seq large)) (fun t => (stateBytes 0 2 t, stateBytes 126 2 t)) =
        some ([0x80, 0x00], [0x00, 0x00])
      ∧ after (exec .ivload (withState seq small)) (fun t => (stateBytes 0 2 t, stateBytes 126 2 t)) =
        some ([0x40, 0x00], [0x00, 0x00]) := by decide +kernel

/-- V-ERR-8, V-ERR-8b. -/
theorem test_compressBlk_range :
    after (exec .compressBlk { small with blkAddr := 0xFC1 }) statusWord = some 0x606
      ∧ after (exec .compressBlk { small with blkAddr := 0xFC0 }) statusWord = some 0x2 := by decide +kernel

/-- V-CMP-4: no block after INIT. -/
theorem test_compressPad_empty :
    after (exec .compressPad small) (stateBytes 0 128) = some (0x40 :: zeros 127) := by decide +kernel

/-- R210: OUTXF needs a context, and is `s ⊕ perm_P(s)`. -/
theorem test_outxf :
    after (exec .outxf start) statusWord = some 0x406
      ∧ outputTransform (State.engine small) = fun s => xorBytes s (permP (State.engine small) s) := ⟨by decide, rfl⟩

/-- V-OUT-2's rule: DIGEST[0..32) = STATE[32..64), and STATE[63] alone for OUT_BITS = 8. -/
theorem test_trunc :
    after (exec .trunc (withState seq small)) (fun t => (State.digestByte t 0, State.digestByte t 31, State.digestByte t 32)) =
        some (32, 63, 0)
      ∧ after (exec .trunc (withState seq (withLength 8 start))) (fun t => (State.digestByte t 0, State.digestByte t 1)) =
        some (63, 0) := by decide +kernel

/-! ## KMAC preprocessor -/

/-- V-KMAC-1, at the addresses program P3 reads. -/
theorem test_kmacBuild :
    after (exec .kmacBuild (kmac 0x100)) (fun t => (hostWord t 0x100, hostWord t 0x120, hostWord t 0x140, hostWord t 0x19C)) =
      some (0x03020100, 0x00000080, 0x0000805A, 0xE0E1E2E3) := by decide +kernel

/-- V-KMAC-1: the length; P3's closing remark: PADBUF is left holding V-PAD-2. -/
theorem test_kmacBuild_registers :
    after (exec .kmacBuild (kmac 0x100)) (fun t => (t.synNbytes, t.padNbytes, t.dataNbytes, padBytes 0 3 t)) =
      some (160, 64, 0, [0x5A, 0x80, 0x00]) := by decide +kernel

/-! ## The host's port -/

/-- V-ERR-10: a write while busy sets DROP, whatever it writes to. -/
theorem test_busy_write_dropped :
    statusWord (applyInput (.regWrite 0x004 2 0b1111) (running 0x10)) = 0x9
      ∧ (applyInput (.dmemWrite 0 5 0b1111) (running 0x10)).dmem = [] := by decide

/-- Program P1, line 12: CLR leaves ERRCODE. -/
theorem test_clear_keeps_errcode :
    statusWord (applyInput (.regWrite 0x008 0xE 0b1111) { start with done := true, err := true, errCode := .cfgOutbits }) =
      0x100 := by decide

/-- R60: byte enables; R24: reserved bits of CTRL. -/
theorem test_byte_enables :
    (applyInput (.regWrite 0x016 0xAABBCCDD 0b0101) { start with msgAddr := 0x11223344 }).msgAddr = 0x11BB33DD
      ∧ (applyInput (.regRead 0x000) (applyInput (.regWrite 0x000 0xFFFFFFFF 0b1111) start)).rdata = some 1 := by decide

/-- R61: the last word of a memory of 0x1000 bytes, and the word above it. -/
theorem test_dmem_edge :
    (applyInput (.dmemWrite 0xFFE 0x44332211 0b1100) start).dmem = [(0xFFE, 0x33), (0xFFF, 0x44)]
      ∧ (applyInput (.dmemWrite 0x1000 1 0b1111) start).dmem = []
      ∧ (applyInput (.dmemRead 0x1000) start).rdata = some 0 := by decide

/-- R63: a STATE word; R67: an unmapped offset. -/
theorem test_window_words :
    (applyInput (.regRead 0x104) (withState seq small)).rdata = some 0x07060504
      ∧ (applyInput (.regRead 0x180) small).rdata = some 0
      ∧ State.stateByte (applyInput (.regWrite 0x17C 0xAABBCCDD 0b1000) small) 127 = 0xAA := by decide +kernel

/-- Program P1, lines 1 to 6, with two polls: GF_RES reads 0x31 and IRQ is 1. -/
theorem test_gf_program :
    after
        (Host.Core.run Sys2Proof.core 7
          (State.withProgram [.wr .gfOps 0x8357, .wr .ctrl 1, .doCmd .gfmul 1, .rd .gfRes] start))
        (fun t => (t.rdata, State.irq t, statusWord t)) =
      some (some 0x31, true, 0x2) := by decide

/-- R99: LOADB, four bytes per word and a tail with partial byte enables. -/
theorem test_loadb_turns :
    lineTurns (.loadb 0x3C [0x3C, 0x3D, 0x3E, 0x3F, 0x5A]) =
      [.input (.dmemWrite 0x3C 0x3F3E3D3C 0b1111), .input (.dmemWrite 0x40 0x5A 0b0001)] := by decide

/-- R99: WAIT on an idle core ends on its first read, whatever number of polls the line carries. -/
theorem test_wait_idle :
    after (step { small with schedule := [.wait 5, .core] }) (fun t => (t.schedule, t.rdata)) =
      some ([.core], some 0x2) := by decide

/-- R99: a poll that reads BUSY = 1 goes on; the command ends when no such poll is left. -/
theorem test_wait_running :
    after (step { running 0x10 with schedule := [.wait 1] }) (fun t => (t.schedule, t.rdata)) =
        some ([.wait 0], some 0x1)
      ∧ after (step { running 0x10 with schedule := [.wait 0] }) (fun t => (t.schedule, t.phase)) =
        some ([.wait 0], .idle) := by decide

/-- R99: SET64 of the read-only pair writes nothing; of MSG_BITS, the low word first. -/
theorem test_set64 :
    (Line.set64 .dataNbytes 0x100000002).wellFormed = true
      ∧ after (Host.Core.run Sys2Proof.core 2
          (State.withProgram [.set64 .dataNbytes 0x100000002] small)) (fun t => (t.dataNbytes, t.drop, t.schedule)) =
        some (0, false, [])
      ∧ lineTurns (.set64 .msgBits 0x100000002) =
        [.input (.regWrite 0x018 2 0b1111), .input (.regWrite 0x01C 1 0b1111)] := by decide

/-! ## Reset, the memory's form, and the placed word -/

theorem test_reset_memory_wf : Memory.wf State.reset.dmem = true := rfl

/-- R292: a reset abandons a running command and keeps DMEM. -/
theorem test_reset_keeps_dmem :
    (applyInput .resetAssert { running 0x02 with dmem := [(3, 7)] }).dmem = [(3, 7)]
      ∧ (applyInput .resetAssert (running 0x02)).phase = .idle := by decide

theorem test_memory_stays_canonical :
    Memory.set (Memory.set (Memory.set [] 9 1) 4 2) 9 3 = [(4, 2), (9, 3)] := by decide

/-- A placed word is the next step's, as the first after reset (V-ERR-1, V-ERR-3). -/
theorem test_placed_word :
    after (step (start.withFetchWord 8 0x02)) statusWord = some 0x406
      ∧ after (step (start.withFetchWord 8 0x00)) statusWord = some 0x506 := by decide

/-- Every row's word runs as the first after reset: INIT ends with CFG_OUTBITS (ARG_OUTBITS is 0), GFMUL with no
error, the others with NOT_INIT (R29, R240). -/
theorem test_rows_run_after_reset :
    [0x01, 0x02, 0x03, 0x10, 0x11, 0x12, 0x13, 0x14, 0x15, 0x16, 0x17, 0x18, 0x19, 0x20, 0x21, 0x22, 0x23, 0x24, 0x25,
        0x30].map (fun w => after (step (State.reset.withFetchWord 8 w)) statusWord) =
      [some 0x106, some 0x406, some 0x406, some 0x2] ++ List.replicate 16 (some 0x406) := by decide

/-! ## Witnesses: states and operands that meet the hypotheses of the obligations -/

/-- HasContext, in both modes and at both ends of each (every obligation about a command that needs a context). -/
theorem witness_context :
    State.HasContext small ∧ State.HasContext large ∧ State.HasContext (withLength 8 start)
      ∧ State.HasContext (withLength 264 start) ∧ small.cfg.large = false ∧ large.cfg.large = true
      ∧ start.cfg.valid = false ∧ small.err = false := by decide

/-- Every command has a next state from every state (the obligations with `exec i s = .next t` as a premise). -/
theorem witness_exec (i : Instr) (s : State) : ∃ t, exec i s = .next t := exec_next i s

/-- Encoding: CommandLineEncodesAndDecodes, DecodeReadsOpcAndRnd, IgnoredBitsSelectSameCommand. -/
theorem witness_words :
    (Instr.arcQ 255).wellFormed = true ∧ (Instr.arcQ 0).wellFormed = true
      ∧ decode 0x0000FF12 = some (.arcQ 255) ∧ (Instr.arcQ 255 = .arcQ (Instr.arcQ 255).index)
      ∧ ((0xABCD0313 : Word).toNat % 256 = (0x13 : Word).toNat % 256 ∧ (0xABCD0313 : Word).toNat % 256 ∉ [0x11, 0x12, 0x16, 0x17])
      ∧ ((0x00010312 : Word).toNat % 256 = (0x312 : Word).toNat % 256
          ∧ (0x00010312 : Word).toNat % 65536 = (0x312 : Word).toNat % 65536) := by decide

/-- An idle machine out of reset, and an illegal word for it: IllegalOpcodeRaisesIllegalCmd, CmdWriteIsAccepted,
StatusReadAndAcknowledge, UnmappedAndReadOnly, HostWordsAreLittleEndian, DmemWordAccess, DoLineRunsCommand. -/
theorem witness_idle :
    small.phase = .idle ∧ small.resetHeld = false ∧ decode 0x1A = none ∧ (0x007 : BitVec 12).toNat / 4 = 1
      ∧ (0x004 : BitVec 12).toNat / 4 = 1 ∧ (Instr.rndP 255).wellFormed = true := by decide

/-- StepRunsDecodedCommand, StepTakesInputOrIdles: with the core's turn due, with none, and with an input due. -/
theorem witness_turns :
    (running 0x0318).phase = .running 0x0318 ∧ decode 0x0318 = some .permP ∧ (running 0x0318).schedule = []
      ∧ { running 0x0318 with schedule := [.core] }.schedule.head? = some .core
      ∧ { small with schedule := [.input (.regRead 0)] }.schedule = [.input (.regRead 0)] := by decide

/-- PlacedWordRunsNext. -/
theorem witness_placed : decodeTableWord 8 0x18 = some .permP ∧ decodeTableWord 16 0xFF17 = some (.rndQ 255) := by decide

/-- CommandsNeedContext, second clause: an INIT that succeeds and one that fails, from a state with ERR = 0. -/
theorem witness_init :
    start.err = false
      ∧ after (exec .init { start with argOutbits := 512 }) (fun t => (t.err, t.cfg.valid)) = some (false, true)
      ∧ after (exec .init { start with argOutbits := 520 }) (fun t => (t.err, t.cfg.valid)) = some (true, false) := by
  decide

/-- FailedCommandFailsAgain. -/
theorem witness_failed :
    start.err = false ∧ after (exec .hash start) (fun t => (t.err, t.errCode)) = some (true, .notInit) := by decide

/-- WaitPollsUntilIdle: an idle and a running machine in the loop, with no poll left and with one. -/
theorem witness_wait :
    small.resetHeld = false ∧ { small with schedule := [.wait 0] }.phase = .idle
      ∧ { running 0x10 with schedule := [.wait 0] }.phase = .running 0x10
      ∧ { running 0x10 with schedule := [.wait 1] }.schedule = [.wait 1] ∧ 0 < 1 := by decide

/-- PseudoWritesTakeEffect: the largest value of a pair, and LOADB up to the last address, with and without bytes. -/
theorem witness_pseudo :
    small.phase = .idle ∧ small.resetHeld = false ∧ (Line.set64 .msgBits (2 ^ 64 - 1)).wellFormed = true
      ∧ (Line.set64 .dataNbytes (2 ^ 64 - 1)).wellFormed = true ∧ (Line.loadb 0xFFFFFFFC [1, 2, 3, 4]).wellFormed = true
      ∧ (Line.loadb 0 []).wellFormed = true := by decide

/-- RegisterMapNamesFields: the last byte offset of each word of 0x000 to 0x047, both ends of the STATE window, and what
the three result registers show. -/
theorem witness_register_map :
    [0x003, 0x007, 0x00B, 0x00F, 0x013, 0x017, 0x01B, 0x01F, 0x023, 0x027, 0x02B, 0x02F, 0x033, 0x037, 0x03B, 0x03F, 0x043,
        0x047].map (fun off : BitVec 12 => off.toNat / 4 * 4) =
      [0x000, 0x004, 0x008, 0x00C, 0x010, 0x014, 0x018, 0x01C, 0x020, 0x024, 0x028, 0x02C, 0x030, 0x034, 0x038, 0x03C, 0x040,
        0x044]
      ∧ 0x100 ≤ (0x100 : BitVec 12).toNat ∧ (0x17F : BitVec 12).toNat < 0x180
      ∧ [0x034, 0x038, 0x03C].map (fun off =>
          (applyInput (.regRead off) { small with gfRes := 0x31, synNbytes := 160, padNbytes := 256 }).rdata) =
        [some 0x31, some 160, some 256] := by decide

/-- StatusReadAndAcknowledge: the first and the last offset of STATUS, and a write whose lane 0 is disabled, which
clears nothing. -/
theorem witness_status_offsets :
    (0x008 : BitVec 12).toNat / 4 = 2 ∧ (0x00B : BitVec 12).toNat / 4 = 2
      ∧ (applyInput (.regWrite 0x00B 0xE 0b1110) small).done = true
      ∧ (applyInput (.regWrite 0x00B 0xE 0b0001) small).done = false := by decide

/-- InitLoadsContextOrRejects: the ends of both modes, and each way a length is invalid. -/
theorem witness_lengths :
    (∀ n ∈ [8, 256, 264, 512], n % 8 = 0 ∧ 8 ≤ n ∧ n ≤ 512)
      ∧ (4 % 8 ≠ 0 ∧ (0 < 8 ∧ 0 % 8 = 0) ∧ (512 < 520 ∧ 520 % 8 = 0)) := by decide

/-- RegionOutsideDmemRaisesRange, CompressBlkFoldsBlock, PadBuildsPaddingString: one byte too many, and the last
region that fits. -/
theorem witness_regions :
    ¬State.MessageInside { small with msgAddr := 0xFFF, msgBitsLo := 9 }
      ∧ State.MessageInside { small with msgAddr := 0xFFF, msgBitsLo := 8 }
      ∧ State.MessageInside { small with msgAddr := 0xFFFFFFFF }
      ∧ ¬State.RegionInside { small with blkAddr := 0xFC1 } 0xFC1 64
      ∧ State.RegionInside { small with blkAddr := 0xFC0 } 0xFC0 64 := by decide

/-- MacErrorsInOrder: every code of R220 and R225, and a state that passes. -/
theorem witness_mac_errors :
    firstMacError start = some .notInit
      ∧ firstMacError { withLength 128 start with keyBits := 100 } = some .macOutbits
      ∧ firstMacError { small with keyBits := 255 } = some .macKeybits
      ∧ firstMacError { kmac 0x100 with keyAddr := 0xFE1 } = some .range
      ∧ firstMacError { kmac 0x100 with msgAddr := 0x1000 } = some .range
      ∧ firstMacError (kmac 0xF61) = some .range
      ∧ firstMacError (kmac 0x10) = some .overlap ∧ firstMacError (kmac 0x20) = some .overlap
      ∧ firstMacError (kmac 0x41) = none := by decide

/-- MacReady: the regions only touch; a 512-bit key in the small mode; the large mode. -/
theorem witness_macReady :
    State.MacReady (kmac 0x41) ∧ State.MacReady { kmac 0x100 with keyBits := 512, msgAddr := 0x80 }
      ∧ State.MacReady { kmac 0x100 with cfg := Cfg.ofLength 384, keyBits := 384 } := by decide

/-- CommandIsAtomic: reads and writes while a command runs. -/
theorem witness_busy_accesses :
    (running 0x02).phase = .running 0x02 ∧ (running 0x02).resetHeld = false
      ∧ ∀ x ∈ [Input.regWrite 4 1 15, .regRead 8, .dmemWrite 0 1 15, .dmemRead 0], x.isRead = true ∨ x.isWrite = true := by
  decide

/-- StepKeepsInvariant: idle, running, and with the reset input asserted. -/
theorem witness_invariant :
    State.Inv small ∧ State.Inv (running 0x02) ∧ State.Inv (applyInput .resetAssert small) := by
  have hp : ∀ k, State.padByte start k = 0 := fun k => by
    show (Vector.replicate 256 (0 : Byte)).toList.getD k 0 = 0
    rw [Vector.toList_replicate]
    exact zeros_getD 256 k
  refine ⟨⟨by decide, ⟨by decide, by decide, by decide, fun k _ _ => hp k⟩, ⟨rfl, fun c h => nomatch h⟩, by decide⟩,
    ⟨by decide, ⟨by decide, by decide, by decide, fun k _ _ => hp k⟩, ⟨rfl, fun c h => nomatch h⟩, by decide⟩,
    ⟨by decide, ⟨by decide, by decide, by decide, fun k _ _ => hp k⟩, ⟨rfl, fun c h => nomatch h⟩, fun _ => rfl⟩⟩

/-- Every step gives a next state (the obligations with `step s = .next t` as a premise). -/
theorem witness_step (s : State) : ∃ t, step s = .next t := (step_next s).imp fun _ h => h.1

/-- OnlyInitAndResetWriteCfg: CFG changes by INIT, and by reset. -/
theorem witness_cfg_changes :
    after (step { running 0x01 with argOutbits := 512 }) (fun t => decide (t.cfg ≠ small.cfg)) = some true
      ∧ after (step { small with schedule := [.input .resetAssert] }) (fun t => decide (t.cfg ≠ small.cfg)) = some true := by
  decide

/-- DropIsSticky, and the last clause of StatusReadAndAcknowledge: DROP cleared by the host and by reset, ERRCODE by
an accepted command. -/
theorem witness_flags_cleared :
    after (step { small with drop := true, schedule := [.input (.regWrite 0x008 8 0b0001)] }) (fun t => t.drop) = some false
      ∧ after (step { small with drop := true, schedule := [.input .resetAssert] }) (fun t => t.drop) = some false
      ∧ after (step { small with errCode := .range, schedule := [.input (.regWrite 0x004 1 15)] })
          (fun t => t.errCode) = some .noError := by decide

/-- SmallModeUpperState: the window's upper half, and two states that agree below byte 64. -/
theorem witness_small_mode :
    (0x140 ≤ (0x140 : BitVec 12).toNat ∧ (0x17F : BitVec 12).toNat < 0x180)
      ∧ ∀ k, k < 64 → (fun k => if k < 64 then State.stateByte small k else 0xEE) k = State.stateByte small k :=
  ⟨by decide, fun k h => by simp [h]⟩

/-- HashDependsOnlyOnItsInputs: two states that differ in STATE, DIGEST and BLK_ADDR. -/
theorem witness_hash_inputs :
    let t := { withState seq small with blkAddr := 5 }
    small.cfg = t.cfg ∧ small.msgAddr = t.msgAddr ∧ small.msgBitsLo = t.msgBitsLo ∧ small.msgBitsHi = t.msgBitsHi
      ∧ small.rom = t.rom ∧ small.params = t.params ∧ (∀ a, State.dmemByte small a = State.dmemByte t a)
      ∧ State.HasContext small ∧ State.MessageInside small :=
  ⟨rfl, rfl, rfl, rfl, rfl, rfl, fun _ => rfl, by decide, by decide⟩

/-- GfmulFieldLaws. -/
theorem witness_gf : (0x57 : Byte) ≠ 0 ∧ gfmul 0x57 0x61 = 0x01 ∧ 0 < 255 := by decide

/-- The tables that change nothing: `SBOX[t][x] = x` and the identity matrix. -/
def plainRom : Rom :=
  { sbox := Vector.replicate 4 (fillBytes 256 seq)
    mds := ⟨((List.range 8).map fun r => fillBytes 8 fun b => if b = r then 1 else 0).toArray, by simp⟩ }

theorem plainRom_sbox (k : Fin 4) (x : Byte) : sboxAt plainRom k x = x := by
  simp [sboxAt, plainRom, fillBytes, seq]

/-- PermutationsAreInjective: injective tables and an invertible matrix. -/
theorem witness_injective :
    let s := { small with rom := plainRom }
    State.HasContext s ∧ s = { s with hashState := s.hashState }
      ∧ (∀ (k : Fin 4) (x y : Byte), sboxAt s.rom k x = sboxAt s.rom k y → x = y)
      ∧ (∀ r c : Fin 8,
          (List.finRange 8).foldl (fun acc b => acc ^^^ gfmul (if r = b then 1 else 0) (mdsAt s.rom b c)) 0 =
            if r = c then 1 else 0)
      ∧ ∃ u, exec .permP s = .next u ∧ u.hashState = u.hashState :=
  ⟨by decide, rfl, fun k x y h => by rwa [plainRom_sbox, plainRom_sbox] at h, by decide +kernel, _, rfl, rfl⟩

/-- PaddingIsOneOrTwoBlocks: the cuts of R176, r = 51 and 52, r = 115 and 116. -/
theorem witness_padding_cuts :
    padLen 64 (51 * 8) = 64 ∧ padLen 64 (52 * 8) = 128 ∧ padLen 128 (115 * 8) = 128 ∧ padLen 128 (116 * 8) = 256
      ∧ padLen 64 0xFFFFFFFFFFFFFFFF = 128 := by decide

/-- MixMultipliesColumns: a zero column; ShiftRotatesRows: both directions. -/
theorem witness_columns :
    (∀ r : Fin 8, State.cellAt (withState (fun _ => 0) small) r 7 = 0) ∧ 7 < State.cols small ∧ State.cols large = 16
      ∧ small.params.rotDir = .towardLower ∧ (withLength 512 (startDir .towardHigher)).params.rotDir = .towardHigher := by
  decide +kernel

/-- PadBuildsPaddingString: hypotheses together, for L = 7 at address 0xFFF. -/
theorem witness_pad :
    let s := { small with msgAddr := 0xFFF, msgBitsLo := 7, dmem := [(0xFFF, 0xAA)] }
    State.HasContext s ∧ State.MessageInside s ∧ State.nb s = 64 ∧ (State.msgBits s).toNat / 8 = 0
      ∧ (State.msgBits s).toNat % 8 = 7 ∧ State.dmemByte s (s.msgAddr.toNat + 0) = 0xAA ∧ (0 + 13 ≤ 64) := by decide

/-- PadReadsOnlyTheTail: memories that differ in the ignored bit of the partial byte and past the message. -/
theorem witness_pad_tail :
    let s := { small with msgBitsLo := 7, dmem := [(0, 0xAA)] }
    let t := { s with dmem := [(0, 0xAB), (1, 5)] }
    State.HasContext s ∧ State.MessageInside s
      ∧ after (exec .pad s) (fun u => u.dataNbytes.toNat) = some 0 ∧ (State.msgBits s).toNat / 8 - 0 = 0
      ∧ ∀ j, j < 8 → 8 ≤ j + (State.msgBits s).toNat % 8 →
          (State.dmemByte s 0).getLsbD j = (State.dmemByte t 0).getLsbD j := by decide

/-- CompressPadFoldsPadding: no block, one and two. -/
theorem witness_padNbytes :
    small.padNbytes.toNat = 0 ∧ { small with padNbytes := 64 }.padNbytes.toNat = State.nb small
      ∧ { small with padNbytes := 128 }.padNbytes.toNat = 2 * State.nb small
      ∧ { large with padNbytes := 256 }.padNbytes.toNat = 2 * State.nb large := by decide

/-- KmacBuildWritesSyntheticBuffer: the parts of V-KMAC-1. -/
theorem witness_kmac :
    (kmac 0x100).keyBits.toNat / 8 = 32 ∧ State.nb (kmac 0x100) = 64 ∧ (kmac 0x100).synAddr.toNat = 0x100
      ∧ after (exec .pad (kmac 0x100)) (fun y => (y.dataNbytes.toNat, y.padNbytes.toNat)) = some (0, 64) := by decide

/-- ResetInputHolds: the reset input asserted, with a write and a read. -/
theorem witness_reset_held :
    (applyInput .resetAssert (running 0x02)).resetHeld = true ∧ Input.isWrite (.regWrite 4 1 15) = true
      ∧ Input.isRead (.dmemRead 0) = true := by decide

/-- BusyWritesAreDropped, BusyReadsAreUnspecified, UnmappedAndReadOnly, RegisterWriteThenRead,
HostWordsAreLittleEndian: the first and the last offset of every range, and the last address of DMEM. -/
theorem witness_offsets :
    State.busy (running 0x02) = true
      ∧ (0x034 ≤ (0x034 : BitVec 12).toNat ∧ (0x047 : BitVec 12).toNat < 0x048)
      ∧ (0x100 ≤ (0x100 : BitVec 12).toNat ∧ (0x17F : BitVec 12).toNat < 0x180)
      ∧ (0x200 ≤ (0x200 : BitVec 12).toNat ∧ (0x2FF : BitVec 12).toNat < 0x300)
      ∧ (0x300 ≤ (0x300 : BitVec 12).toNat ∧ (0x33F : BitVec 12).toNat < 0x340)
      ∧ (0x010 ≤ (0x010 : BitVec 12).toNat ∧ (0x033 : BitVec 12).toNat < 0x034)
      ∧ (0x048 ≤ (0x048 : BitVec 12).toNat ∧ (0x0FF : BitVec 12).toNat < 0x100)
      ∧ (0x180 ≤ (0x180 : BitVec 12).toNat ∧ (0x1FF : BitVec 12).toNat < 0x200)
      ∧ (0x340 ≤ (0x340 : BitVec 12).toNat ∧ 0x340 ≤ (0xFFF : BitVec 12).toNat) ∧ (0x00F : BitVec 12).toNat / 4 = 3
      ∧ (0x003 : BitVec 12).toNat / 4 = 0 ∧ (0xFFF : Word).toNat / 4 * 4 < State.dmemBytes (running 0x02)
      ∧ (0xFFF : Word).toNat / 4 * 4 + 3 < State.dmemBytes small := by decide

end Sys2Proof.Tests
end

section
/-! PROOFS. The statements of spec/10_state.md: the context check (R29), and the upper half of STATE in the small
mode (R32). What a command reads and writes of STATE is said once, by `newBytes` and `resultOf_hashState`. -/

namespace Sys2Proof.Machine

open Sys2Proof

/-! ## The context check (R29) -/

/-- Every command but INIT and GFMUL checks the context first. -/
theorem checkOf_of_not_valid {i : Instr} {s : State} (hi : i ≠ .init) (hg : i ≠ .gfmul)
    (hv : s.cfg.valid = false) : checkOf i s = some .notInit := by
  have hc : checkContext s = some .notInit := require_some_iff.2 ⟨hv, rfl⟩
  cases i with
  | init => exact absurd rfl hi
  | gfmul => exact absurd rfl hg
  | _ => simp [checkOf, kmacCheck, hc]

/-- An INIT that starts with ERR = 0 either succeeds with VALID = 1, or fails and keeps CFG. -/
theorem exec_init_valid {s t : State} (he : s.err = false) (h : exec .init s = .next t) :
    (t.err = false ∧ t.cfg.valid = true) ∨ (t.err = true ∧ t.cfg = s.cfg) := by
  rcases exec_cases h with ⟨_, rfl⟩ | ⟨c, _, rfl⟩
  · exact .inl ⟨by simp [he], rfl⟩
  · exact .inr ⟨rfl, rfl⟩

/-- Settles O12: NOT_INIT is the first check of the other commands, and INIT commits a CFG with VALID = 1. -/
theorem commandsNeedContext : Obligations.CommandsNeedContext := by
  unfold Obligations.CommandsNeedContext
  refine ⟨rfl, fun s t he h => ?_, fun i s hi hg hv => exec_of_check_some (checkOf_of_not_valid hi hg hv)⟩
  rcases exec_init_valid he h with ⟨hf, hv⟩ | ⟨hf, hcfg⟩
  · exact ⟨fun _ => hv, fun ht => by simp [hf] at ht⟩
  · exact ⟨fun ht => by simp [hf] at ht, fun _ => hcfg⟩

/-! ## Lengths that do not grow -/

theorem foldl_length_le {α : Type} {f : List Byte → α → List Byte}
    (hf : ∀ s a, (f s a).length ≤ s.length) (l : List α) (s : List Byte) :
    (l.foldl f s).length ≤ s.length := by
  induction l generalizing s with
  | nil => exact Nat.le_refl _
  | cons a rest ih => exact Nat.le_trans (ih (f s a)) (hf s a)

theorem compress_length_le (E : Engine) (s blk : List Byte) : (compress E s blk).length ≤ s.length := by
  simp only [compress, xorBytes_length]
  omega

theorem compressBytes_length_le (E : Engine) (p : List Byte) (n : Nat) (s : List Byte) :
    (compressBytes E p n s).length ≤ s.length :=
  foldl_length_le (fun s _ => compress_length_le E s _) _ _

theorem compressMem_length_le (E : Engine) (m : Memory) (a n : Nat) (s : List Byte) :
    (compressMem E m a n s).length ≤ s.length :=
  foldl_length_le (fun s _ => compress_length_le E s _) _ _

theorem outputTransform_length_le (E : Engine) (s : List Byte) :
    (outputTransform E s).length ≤ s.length := by
  simp only [outputTransform, xorBytes_length]
  omega

@[simp] theorem initialValue_length (nb : Nat) : (initialValue nb).length = nb - 1 + 1 := by
  simp [initialValue]

/-- Every byte of the initial value but the first is 0x00 (R190). -/
theorem initialValue_getD_of_pos (nb : Nat) {k : Nat} (hk : 0 < k) : (initialValue nb).getD k 0 = 0 := by
  obtain ⟨j, rfl⟩ := Nat.exists_eq_add_of_lt hk
  simpa [initialValue] using zeros_getD (nb - 1) j

/-- The state a hash leaves is no longer than its initial value. -/
theorem hashFn_state_length_le (E : Engine) (m : Memory) (h : Nat) (L : DWord) (a : Nat) :
    (hashFn E m h L a).state.length ≤ E.nb - 1 + 1 :=
  calc (hashFn E m h L a).state.length
    _ ≤ (compressAll E m a (padFn m E.nb L a) (initialValue E.nb)).length := outputTransform_length_le _ _
    _ ≤ (compressMem E m a _ (initialValue E.nb)).length := compressBytes_length_le _ _ _ _
    _ ≤ (initialValue E.nb).length := compressMem_length_le _ _ _ _ _
    _ = E.nb - 1 + 1 := initialValue_length _

/-! ## What a command reads and writes of STATE -/

/-- The commands that write the whole of STATE, with 0x00 above their bytes. -/
abbrev LoadsState (i : Instr) : Prop := i = .init ∨ i = .ivload ∨ i = .hash ∨ i = .mac

/-- The bytes a command whose checks pass writes from STATE[0] on, where b is the hash state `STATE[0..NB)` it
reads. -/
def newBytes (i : Instr) (s : State) (b : List Byte) : List Byte :=
  match i with
  | .init => initialValue (Cfg.ofLength s.argOutbits.toNat).nb.toNat
  | .ivload => initialValue (State.nb s)
  | .hash => (hashFn (State.engine s) s.dmem (State.outBytes s) (State.msgBits s) s.msgAddr.toNat).state
  | .mac => (macFn s).state
  | .arcP k => arcP (State.engine s) (BitVec.ofNat 8 k) b
  | .arcQ k => arcQ (State.engine s) (BitVec.ofNat 8 k) b
  | .sub => subBytes (State.engine s) b
  | .shift => shiftRows (State.engine s) b
  | .mix => mixColumns (State.engine s) b
  | .rndP k => roundP (State.engine s) (BitVec.ofNat 8 k) b
  | .rndQ k => roundQ (State.engine s) (BitVec.ofNat 8 k) b
  | .permP => permP (State.engine s) b
  | .permQ => permQ (State.engine s) b
  | .compressBlk => compress (State.engine s) b (memRead s.dmem s.blkAddr.toNat (State.nb s))
  | .compressPad => compressBytes (State.engine s) s.padbuf.toList (s.padNbytes.toNat / State.nb s) b
  | .outxf => outputTransform (State.engine s) b
  | .gfmul | .pad | .trunc | .kmacBuild => []

@[simp] theorem overwrite_nil {n : Nat} (w : Vector Byte n) : overwrite w [] = w := fillBytes_self w

/-- STATE after a command: its new bytes with zeros above them, or over what STATE held. -/
theorem resultOf_hashState (i : Instr) (s : State) :
    (resultOf i s).hashState =
      if LoadsState i then zeroFill 128 (newBytes i s (State.hashBytes s))
      else overwrite s.hashState (newBytes i s (State.hashBytes s)) := by
  cases i with
  | gfmul | pad | trunc | kmacBuild => exact (overwrite_nil _).symm
  | _ => rfl

/-- STATE enters the new bytes through the hash state alone. -/
theorem newBytes_withHashState (i : Instr) (s : State) (w : Vector Byte 128) (b : List Byte) :
    newBytes i { s with hashState := w } b = newBytes i s b := by
  cases i <;> rfl

/-- No check reads STATE. -/
theorem checkOf_withHashState (i : Instr) (s : State) (w : Vector Byte 128) :
    checkOf i { s with hashState := w } = checkOf i s := by
  cases i <;> rfl

/-- What a command leaves outside STATE depends on STATE through the hash state alone: TRUNC's digest does. -/
theorem resultOf_withHashState (i : Instr) {s : State} {w : Vector Byte 128}
    (h : State.hashBytes { s with hashState := w } = State.hashBytes s) :
    resultOf i { s with hashState := w } =
      { resultOf i s with hashState := (resultOf i { s with hashState := w }).hashState } := by
  cases i with
  | trunc =>
    simp only [resultOf, h]
    rfl
  | _ => rfl

/-! ## The small mode -/

theorem nb_le_128 {s : State} (hc : State.HasContext s) : State.nb s ≤ 128 := by
  rcases nb_of_context hc with h | h <;> omega

/-- NB = 64 in the small mode (R27). -/
theorem nb_of_small {s : State} (hc : State.HasContext s) (hl : s.cfg.large = false) : State.nb s = 64 := by
  obtain ⟨hv, hlegal⟩ := hc
  simp only [Cfg.legal, Bool.or_eq_true, Bool.and_eq_true, decide_eq_true_eq] at hlegal
  rcases hlegal with hz | ⟨_, hcfg⟩
  · simp [hz, Cfg.zero] at hv
  · have hn : isLarge s.cfg.outBits.toNat = false := by
      rw [hcfg] at hl
      exact hl
    rw [State.nb, hcfg]
    simp [Cfg.ofLength, hn]

/-- Every command but INIT writes no more than NB bytes of STATE. -/
theorem newBytes_length_le {i : Instr} {s : State} (hi : i ≠ .init) (hc : State.HasContext s) :
    (newBytes i s (State.hashBytes s)).length ≤ State.nb s := by
  have hb : (State.hashBytes s).length = State.nb s := hashBytes_length hc.2
  have hpos : State.nb s - 1 + 1 = State.nb s := by rcases nb_of_context hc with h | h <;> omega
  cases i with
  | init => exact absurd rfl hi
  | ivload => exact Nat.le_of_eq ((initialValue_length _).trans hpos)
  | hash | mac => exact Nat.le_trans (hashFn_state_length_le _ _ _ _ _) (Nat.le_of_eq hpos)
  | arcP | arcQ | sub | shift | mix | rndP | rndQ => exact Nat.le_of_eq (by simp [newBytes, State.engine])
  | permP => exact Nat.le_of_eq (permP_length _ hb)
  | permQ => exact Nat.le_of_eq (permQ_length _ hb)
  | compressBlk => exact Nat.le_trans (compress_length_le _ _ _) (Nat.le_of_eq hb)
  | compressPad => exact Nat.le_trans (compressBytes_length_le _ _ _ _) (Nat.le_of_eq hb)
  | outxf => exact Nat.le_trans (outputTransform_length_le _ _) (Nat.le_of_eq hb)
  | gfmul | pad | trunc | kmacBuild => exact Nat.zero_le _

/-- In the small mode no command writes anything but 0x00 above byte 63, INIT of a large context included. -/
theorem newBytes_upper {i : Instr} {s : State} (hc : State.HasContext s) (hl : s.cfg.large = false) {k : Nat}
    (hk : 64 ≤ k) : (newBytes i s (State.hashBytes s)).getD k 0 = 0 := by
  by_cases hi : i = .init
  · subst hi
    exact initialValue_getD_of_pos _ (by omega)
  · have hlen := newBytes_length_le hi hc
    rw [nb_of_small hc hl] at hlen
    exact getD_beyond (by omega)

/-- A byte of STATE after a command. -/
theorem resultOf_stateByte (i : Instr) {s : State} (hc : State.HasContext s) {k : Nat} (hk : k < 128) :
    State.stateByte (resultOf i s) k =
      if LoadsState i ∨ k < (newBytes i s (State.hashBytes s)).length then
        (newBytes i s (State.hashBytes s)).getD k 0
      else State.stateByte s k := by
  rw [State.stateByte, resultOf_hashState]
  by_cases hload : LoadsState i
  · rw [if_pos hload, if_pos (.inl hload), zeroFill_getD, if_pos hk]
  · have hi : i ≠ .init := fun h => hload (.inl h)
    rw [if_neg hload, overwrite_getD _ _ _ ((newBytes_length_le hi hc).trans (nb_le_128 hc))]
    simp [hload, State.stateByte]

/-- R32: in the small mode four commands clear STATE[64..127] and the others leave it. -/
theorem resultOf_stateByte_upper (i : Instr) {s : State} (hc : State.HasContext s) (hl : s.cfg.large = false)
    {k : Nat} (h64 : 64 ≤ k) (hk : k < 128) :
    State.stateByte (resultOf i s) k = if LoadsState i then 0 else State.stateByte s k := by
  rw [resultOf_stateByte i hc hk, newBytes_upper hc hl h64]
  by_cases hload : LoadsState i
  · simp [hload]
  · have hi : i ≠ .init := fun h => hload (.inl h)
    have hlen := newBytes_length_le hi hc
    rw [nb_of_small hc hl] at hlen
    rw [if_neg hload, if_neg (by simp only [hload, false_or]; omega)]

theorem stateByte_withBytes (s : State) (f : Nat → Byte) {k : Nat} (hk : k < 128) :
    State.stateByte (State.withBytes s f) k = f k :=
  (fillBytes_getD 128 f k).trans (if_pos hk)

/-- Two hash states with the same bytes below NB are the same byte string. -/
theorem hashBytes_withBytes {s : State} (hc : State.HasContext s) {f : Nat → Byte}
    (hf : ∀ k, k < State.nb s → f k = State.stateByte s k) :
    State.hashBytes (State.withBytes s f) = State.hashBytes s := by
  have hlen : (State.hashBytes (State.withBytes s f)).length = State.nb s :=
    hashBytes_length (s := State.withBytes s f) hc.2
  have hnb : State.nb (State.withBytes s f) = State.nb s := rfl
  refine string_ext (hlen.trans (hashBytes_length hc.2).symm) fun k hk => ?_
  have hk : k < State.nb s := hlen ▸ hk
  rw [hashBytes_getD, hashBytes_getD, hnb, if_pos hk, if_pos hk,
    stateByte_withBytes s f (hk.trans_le (nb_le_128 hc)), hf k hk]

/-- Where two states differ above NB only, a command leaves the same bytes below NB. -/
theorem resultOf_stateByte_withBytes (i : Instr) {s : State} (hc : State.HasContext s) {f : Nat → Byte}
    (hf : ∀ k, k < State.nb s → f k = State.stateByte s k) {k : Nat} (hk : k < State.nb s) :
    State.stateByte (resultOf i (State.withBytes s f)) k = State.stateByte (resultOf i s) k := by
  have h128 : k < 128 := hk.trans_le (nb_le_128 hc)
  have hold : State.stateByte (State.withBytes s f) k = State.stateByte s k :=
    (stateByte_withBytes s f h128).trans (hf k hk)
  have hnew : newBytes i (State.withBytes s f) (State.hashBytes (State.withBytes s f)) =
      newBytes i s (State.hashBytes s) := by
    rw [hashBytes_withBytes hc hf]
    exact newBytes_withHashState i s _ _
  rw [resultOf_stateByte i (s := State.withBytes s f) hc h128, resultOf_stateByte i hc h128, hnew, hold]

/-! ## The host's write of STATE -/

/-- The offsets of the STATE window (R66). -/
theorem regAt_stateWin {off : BitVec 12} (hlo : 0x100 ≤ off.toNat) (hhi : off.toNat < 0x180) :
    regAt off = some (.stateWin (off.toNat / 4 * 4 - 0x100)) := by
  unfold regAt
  have hwin : 0x100 ≤ off.toNat / 4 * 4 ∧ off.toNat / 4 * 4 < 0x180 := by omega
  split
  case h_19 => exact if_pos hwin
  all_goals omega

/-- A byte of a window after a write of the word at byte index k with all lanes enabled. -/
theorem writeWindow_getD {n : Nat} (w : Vector Byte n) {k j : Nat} (data : Word) (hj : j < 4) (hk : k + j < n) :
    (writeWindow w k data 0b1111).toList.getD (k + j) 0 = laneByte data j := by
  have hlane : ∀ i < 4, (0b1111 : BitVec 4).getLsbD i = true := by decide
  rw [writeWindow, fillBytes_getD, if_pos hk, Nat.add_sub_cancel_left,
    if_pos ⟨Nat.le_add_right k j, Nat.add_lt_add_left hj k, hlane j hj⟩]

/-- A host write of a word of STATE while the core is idle. -/
theorem applyInput_stateWin {s : State} {off : BitVec 12} (data : Word) {j : Nat} (hp : s.phase = .idle)
    (hr : s.resetHeld = false) (hlo : 0x100 ≤ off.toNat) (hhi : off.toNat < 0x180) (hj : j < 4) :
    State.stateByte (applyInput (.regWrite off data 0b1111) s) (off.toNat / 4 * 4 - 0x100 + j) =
      laneByte data j := by
  have hw : applyInput (.regWrite off data 0b1111) s =
      { s with hashState := writeWindow s.hashState (off.toNat / 4 * 4 - 0x100) data 0b1111 } := by
    simp [applyInput, hostWriteReg, hostWrite, State.busy, hp, hr, regAt_stateWin hlo hhi, writeReg]
  rw [hw]
  exact writeWindow_getD _ data hj (by omega)

/-! ## STATE[64..127] in the small mode (R32) -/

/-- The second clause of O23: four commands clear the upper half, the others keep it. -/
theorem exec_stateByte_upper {i : Instr} {s t : State} (hc : State.HasContext s) (hl : s.cfg.large = false)
    (he : s.err = false) (h : exec i s = .next t) {k : Nat} (h64 : 64 ≤ k) (hk : k < 128) :
    State.stateByte t k = if LoadsState i ∧ t.err = false then 0 else State.stateByte s k := by
  rcases exec_cases h with ⟨_, rfl⟩ | ⟨c, _, rfl⟩
  · have ht : (commit (resultOf i s)).err = false := by simp [he]
    simp only [ht, and_true]
    exact resultOf_stateByte_upper i hc hl h64 hk
  · simp [State.stateByte]

/-- The third clause of O23, for either mode: a command reads STATE[0..NB) alone. -/
theorem exec_withBytes {i : Instr} {s t u : State} {f : Nat → Byte} (hc : State.HasContext s)
    (hf : ∀ k, k < State.nb s → f k = State.stateByte s k)
    (ht : exec i s = .next t) (hu : exec i (State.withBytes s f) = .next u) :
    u = { t with hashState := u.hashState } ∧ ∀ k, k < State.nb s → State.stateByte u k = State.stateByte t k := by
  have hcheck : checkOf i (State.withBytes s f) = checkOf i s := checkOf_withHashState i s _
  cases hs : checkOf i s with
  | none =>
    cases ht.symm.trans (exec_of_check_none hs)
    cases hu.symm.trans (exec_of_check_none (hcheck.trans hs))
    exact ⟨congrArg commit (resultOf_withHashState i (hashBytes_withBytes hc hf)),
      fun k hk => resultOf_stateByte_withBytes i hc hf hk⟩
  | some c =>
    cases ht.symm.trans (exec_of_check_some hs)
    cases hu.symm.trans (exec_of_check_some (hcheck.trans hs))
    exact ⟨rfl, fun k hk => (stateByte_withBytes s f (hk.trans_le (nb_le_128 hc))).trans (hf k hk)⟩

/-- Settles O23: the host's write of the window, then what each command writes and reads of STATE. -/
theorem smallModeUpperState : Obligations.SmallModeUpperState := by
  unfold Obligations.SmallModeUpperState
  refine ⟨fun s off data j hp hr hlo hhi hj => ?_, fun i s t hc hl he h k h64 hk => ?_,
    fun i s f t u hc hl hf ht hu => ?_⟩
  · exact applyInput_stateWin data hp hr (by omega) hhi hj
  · exact exec_stateByte_upper hc hl he h h64 hk
  · rw [← nb_of_small hc hl] at hf ⊢
    exact exec_withBytes hc hf ht hu

end Sys2Proof.Machine
end

section
/-! PROOFS. The statements of spec/20_memory.md: writes while BUSY = 1 (R64), and the byte order of windows, DMEM
words and register pairs (R63). Where a register word stands (R66) is said once, by `regAt_of_regOffset`. -/

namespace Sys2Proof.Machine

open Sys2Proof

/-! ## Writes while BUSY = 1 (R64) -/

theorem hostWrite_running {s : State} {w : Word} (hp : s.phase = .running w) (hr : s.resetHeld = false)
    (effect : State → State) : hostWrite effect s = { s with drop := true } := by
  simp [hostWrite, State.busy, hp, hr]

/-- Settles O50: a write of either space goes through `hostWrite`. -/
theorem busyWritesAreDropped : Obligations.BusyWritesAreDropped := by
  unfold Obligations.BusyWritesAreDropped
  intro s w x hp hr hx
  cases x with
  | regWrite off data strb => rw [applyInput, hostWriteReg, hostWrite_running hp hr]
  | dmemWrite addr data strb => rw [applyInput, hostWriteDmem, hostWrite_running hp hr]
  | regRead | dmemRead | resetAssert | resetRelease => simp [Input.isWrite] at hx

/-! ## The register map (R66) -/

theorem windowIndexOk_iff {n k : Nat} : windowIndexOk n k = true ↔ k % 4 = 0 ∧ k < n := by
  simp [windowIndexOk]

/-- At and above 0x100 an offset names a word of a window, or nothing. -/
theorem regAt_of_window {off : BitVec 12} {a : Nat} (ha : off.toNat / 4 * 4 = a) (h : 0x100 ≤ a) :
    regAt off =
      if a < 0x180 then some (.stateWin (a - 0x100))
      else if 0x200 ≤ a ∧ a < 0x300 then some (.padbufWin (a - 0x200))
      else if 0x300 ≤ a ∧ a < 0x340 then some (.digestWin (a - 0x300))
      else none := by
  subst ha
  unfold regAt
  split
  case h_19 => simp only [h, true_and]
  all_goals omega

/-- R66, R60: every register word stands at its offset, bits 1:0 of which are ignored. -/
theorem regAt_of_regOffset {off : BitVec 12} {r : Reg} (hr : r.wellFormed = true)
    (h : off.toNat / 4 * 4 = regOffset r) : regAt off = some r := by
  cases r with
  | stateWin k =>
    obtain ⟨_, hk⟩ := windowIndexOk_iff.1 hr
    simp only [regOffset] at h
    rw [regAt_of_window h (by omega), if_pos (by omega), Nat.add_sub_cancel_left]
  | padbufWin k =>
    obtain ⟨_, hk⟩ := windowIndexOk_iff.1 hr
    simp only [regOffset] at h
    rw [regAt_of_window h (by omega), if_neg (by omega), if_pos (by omega), Nat.add_sub_cancel_left]
  | digestWin k =>
    obtain ⟨_, hk⟩ := windowIndexOk_iff.1 hr
    simp only [regOffset] at h
    rw [regAt_of_window h (by omega), if_neg (by omega), if_neg (by omega), if_pos (by omega),
      Nat.add_sub_cancel_left]
  | _ =>
    have hword := congrArg (· / 4) h
    simp only [regOffset, Nat.mul_div_cancel _ (Nat.succ_pos 3)] at hword
    simp [regAt, hword]

/-! ## Reads while idle -/

theorem applyInput_regRead_idle {s : State} {off : BitVec 12} {r : Reg} (hp : s.phase = .idle)
    (hr : s.resetHeld = false) (hreg : regAt off = some r) :
    applyInput (.regRead off) s = answer (readReg s r) s := by
  simp [applyInput, hostReadReg, State.busy, hp, hr, hreg]

theorem applyInput_dmemRead_idle {s : State} (hp : s.phase = .idle) (hr : s.resetHeld = false) (addr : Word) :
    applyInput (.dmemRead addr) s = answer (hostWord s (wordBase addr)) s := by
  simp [applyInput, hostReadDmem, State.busy, hp, hr]

/-! ## Little-endian words (R63) -/

theorem append_toNat {m n : Nat} (a : BitVec m) (b : BitVec n) : (a ++ b).toNat = a.toNat * 2 ^ n + b.toNat := by
  rw [BitVec.toNat_append, ← Nat.shiftLeft_add_eq_or_of_lt b.isLt, Nat.shiftLeft_eq]

theorem wordOfBytes_toNat (b0 b1 b2 b3 : Byte) :
    (wordOfBytes b0 b1 b2 b3).toNat = ((b3.toNat * 2 ^ 8 + b2.toNat) * 2 ^ 8 + b1.toNat) * 2 ^ 8 + b0.toNat := by
  have h : wordOfBytes b0 b1 b2 b3 = (b3 ++ b2 ++ b1 ++ b0 : BitVec (8 + 8 + 8 + 8)) := rfl
  rw [h, append_toNat, append_toNat, append_toNat]

theorem laneByte_toNat (w : Word) (j : Nat) : (laneByte w j).toNat = w.toNat / 2 ^ (8 * j) % 256 := by
  simp [laneByte, BitVec.extractLsb'_toNat, Nat.shiftRight_eq_div_pow]

/-- Byte lane j of the word of four bytes is byte j. -/
theorem laneByte_wordOfBytes (b : Nat → Byte) {j : Nat} (hj : j < 4) :
    laneByte (wordOfBytes (b 0) (b 1) (b 2) (b 3)) j = b j := by
  have h0 := (b 0).isLt
  have h1 := (b 1).isLt
  have h2 := (b 2).isLt
  have h3 := (b 3).isLt
  apply BitVec.eq_of_toNat_eq
  rw [laneByte_toNat, wordOfBytes_toNat]
  interval_cases j <;> omega

theorem laneByte_windowWord {n : Nat} (w : Vector Byte n) (k : Nat) {j : Nat} (hj : j < 4) :
    laneByte (windowWord w k) j = w.toList.getD (k + j) 0 :=
  laneByte_wordOfBytes (fun j => w.toList.getD (k + j) 0) hj

theorem laneByte_hostWord (s : State) (a : Nat) {j : Nat} (hj : j < 4) :
    laneByte (hostWord s a) j = hostByte s (a + j) :=
  laneByte_wordOfBytes (fun j => hostByte s (a + j)) hj

/-- Byte j of the word the host reads at byte index k of a window. -/
theorem regRead_window_byte {s : State} {off : BitVec 12} {r : Reg} {n : Nat} {w : Vector Byte n} {k j : Nat}
    (hp : s.phase = .idle) (hr : s.resetHeld = false) (hwf : r.wellFormed = true)
    (hoff : off.toNat / 4 * 4 = regOffset r) (hread : readReg s r = windowWord w k) (hj : j < 4) :
    ((applyInput (.regRead off) s).rdata.map fun v => v.extractLsb' (8 * j) 8) =
      some (w.toList.getD (k + j) 0) := by
  rw [applyInput_regRead_idle hp hr (regAt_of_regOffset hwf hoff), hread]
  exact congrArg some (laneByte_windowWord w k hj)

/-- Byte j of a DMEM word the host reads, where it lies inside DMEM. -/
theorem dmemRead_byte {s : State} {addr : Word} {j : Nat} (hp : s.phase = .idle) (hr : s.resetHeld = false)
    (hj : j < 4) (hin : addr.toNat / 4 * 4 + j < State.dmemBytes s) :
    ((applyInput (.dmemRead addr) s).rdata.map fun v => v.extractLsb' (8 * j) 8) =
      some (State.dmemByte s (addr.toNat / 4 * 4 + j)) := by
  rw [applyInput_dmemRead_idle hp hr]
  exact congrArg some ((laneByte_hostWord s _ hj).trans (if_pos hin))

/-! ## Register pairs (R63) -/

theorem dataNbytes_lo_toNat (s : State) : (readReg s .dataNbytesLo).toNat = s.dataNbytes.toNat % 2 ^ 32 := by
  simp [readReg, BitVec.extractLsb'_toNat]

theorem dataNbytes_hi_toNat (s : State) : (readReg s .dataNbytesHi).toNat = s.dataNbytes.toNat / 2 ^ 32 := by
  have := s.dataNbytes.isLt
  simp only [readReg, BitVec.extractLsb'_toNat, Nat.shiftRight_eq_div_pow]
  omega

theorem msgBits_toNat (s : State) :
    (State.msgBits s).toNat = s.msgBitsHi.toNat * 2 ^ 32 + s.msgBitsLo.toNat :=
  append_toNat _ _

theorem msgBits_lo_toNat (s : State) : (readReg s .msgBitsLo).toNat = (State.msgBits s).toNat % 2 ^ 32 := by
  have := s.msgBitsLo.isLt
  rw [msgBits_toNat, readReg]
  omega

theorem msgBits_hi_toNat (s : State) : (readReg s .msgBitsHi).toNat = (State.msgBits s).toNat / 2 ^ 32 := by
  have := s.msgBitsLo.isLt
  rw [msgBits_toNat, readReg]
  omega

/-- The number the host reads at a register's offset. -/
theorem regRead_toNat {s : State} {off : BitVec 12} {r : Reg} {m : Nat} (hp : s.phase = .idle)
    (hr : s.resetHeld = false) (hreg : regAt off = some r) (hm : (readReg s r).toNat = m) :
    ((applyInput (.regRead off) s).rdata.map fun v => v.toNat) = some m := by
  rw [applyInput_regRead_idle hp hr hreg]
  exact congrArg some hm

/-- Settles O55: the three windows, the DMEM word, and the two halves of each register pair. -/
theorem hostWordsAreLittleEndian : Obligations.HostWordsAreLittleEndian := by
  unfold Obligations.HostWordsAreLittleEndian
  intro s off addr j hp hr hj
  refine ⟨fun hlo hhi => ?_, fun hlo hhi => ?_, fun hlo hhi => ?_, dmemRead_byte hp hr hj,
    regRead_toNat hp hr rfl (dataNbytes_lo_toNat s), regRead_toNat hp hr rfl (dataNbytes_hi_toNat s),
    regRead_toNat hp hr rfl (msgBits_lo_toNat s), regRead_toNat hp hr rfl (msgBits_hi_toNat s)⟩
  · exact regRead_window_byte (r := .stateWin ((off.toNat - 0x100) / 4 * 4)) hp hr
      (windowIndexOk_iff.2 (by omega)) (by simp only [regOffset]; omega) rfl hj
  · exact regRead_window_byte (r := .padbufWin ((off.toNat - 0x200) / 4 * 4)) hp hr
      (windowIndexOk_iff.2 (by omega)) (by simp only [regOffset]; omega) rfl hj
  · exact regRead_window_byte (r := .digestWin ((off.toNat - 0x300) / 4 * 4)) hp hr
      (windowIndexOk_iff.2 (by omega)) (by simp only [regOffset]; omega) rfl hj

end Sys2Proof.Machine
end

section
/-! PROOFS. The statements of spec/30_encoding.md: the command word and its decoding (R94, R96, R98). What the decoder
answers is said once, by `decode_of_opc` and `opc_of_decode`: the command of the opcode map whose OPC is bits 7:0, with
bits 15:8 as its index. -/

namespace Sys2Proof.Machine

open Sys2Proof

/-! ## The index of a command (R92) -/

/-- The command with the index k, where it has one (R96: ARC_P, ARC_Q, RND_P and RND_Q). -/
def withIndex (k : Nat) : Instr → Instr
  | .arcP _ => .arcP k
  | .arcQ _ => .arcQ k
  | .rndP _ => .rndP k
  | .rndQ _ => .rndQ k
  | i => i

@[simp] theorem withIndex_self (i : Instr) : withIndex i.index i = i := by
  cases i <;> rfl

/-- Well-formedness of a command is a bound on its index alone (R98). -/
theorem wellFormed_iff_index_lt (i : Instr) : i.wellFormed = true ↔ i.index < 256 := by
  cases i <;> simp [Instr.wellFormed, Instr.index]

theorem withIndex_wellFormed {k : Nat} (hk : k < 256) (i : Instr) : (withIndex k i).wellFormed = true := by
  cases i <;> simp [withIndex, Instr.wellFormed, hk]

/-- A command that uses RND and is not changed by giving it the index k has the index k. -/
theorem index_of_withIndex_eq {k : Nat} {i : Instr} (h : withIndex k i = i)
    (hi : i = .arcP i.index ∨ i = .arcQ i.index ∨ i = .rndP i.index ∨ i = .rndQ i.index) : i.index = k := by
  rcases hi with hi | hi | hi | hi <;> rw [hi] at h <;> cases h <;> rfl

/-! ## Decoding (R96) -/

/-- `cmd = table[w[7:0]]`, and `i = w[15:8]` where the command uses it (R96). -/
theorem decode_of_opc {w : Word} {i : Instr} (h : i.opc.toNat = w.toNat % 256) :
    decode w = some (withIndex (w.toNat / 256 % 256) i) := by
  unfold decode decodeFields
  rw [opcField_toNat, rndField_toNat, ← h]
  cases i <;> rfl

theorem opc_of_decode {w : Word} {i : Instr} (h : decode w = some i) : i.opc.toNat = w.toNat % 256 := by
  rw [← opcField_toNat]
  unfold decode decodeFields at h
  split at h
  case h_21 => cases h
  all_goals
    next hopc =>
      cases h
      exact hopc.symm

/-- The index of a decoded command is bits 15:8 of the word, where the command has one. -/
theorem withIndex_of_decode {w : Word} {i : Instr} (h : decode w = some i) :
    withIndex (w.toNat / 256 % 256) i = i :=
  Option.some.inj ((decode_of_opc (opc_of_decode h)).symm.trans h)

theorem wellFormed_of_decode {w : Word} {i : Instr} (h : decode w = some i) : i.wellFormed = true := by
  rw [← withIndex_of_decode h]
  exact withIndex_wellFormed (Nat.mod_lt _ (by decide)) i

theorem decode_eq_none_iff (w : Word) : decode w = none ↔ ∀ i : Instr, i.opc.toNat ≠ w.toNat % 256 := by
  constructor
  · intro hn i hi
    cases hn.symm.trans (decode_of_opc hi)
  · intro hopc
    exact Option.eq_none_iff_forall_ne_some.2 fun i hi => hopc i (opc_of_decode hi)

/-- Settles O2: both clauses are read off the decoder's two rules. -/
theorem decodeReadsOpcAndRnd : Obligations.DecodeReadsOpcAndRnd := by
  unfold Obligations.DecodeReadsOpcAndRnd
  refine ⟨fun w i h => ?_, decode_eq_none_iff⟩
  exact ⟨wellFormed_of_decode h, opc_of_decode h, index_of_withIndex_eq (withIndex_of_decode h)⟩

/-! ## Encoding (R98) -/

theorem encode_toNat_of_wellFormed {i : Instr} (hi : i.wellFormed = true) :
    (encode i).toNat = i.index * 256 + i.opc.toNat := by
  rw [encode_toNat, Nat.mod_eq_of_lt ((wellFormed_iff_index_lt i).1 hi)]

theorem decode_encode {i : Instr} (hi : i.wellFormed = true) : decode (encode i) = some i := by
  have hw := encode_toNat_of_wellFormed hi
  have hindex := (wellFormed_iff_index_lt i).1 hi
  have hopc := i.opc.isLt
  have hlow : i.opc.toNat = (encode i).toNat % 256 := by omega
  have hhigh : (encode i).toNat / 256 % 256 = i.index := by omega
  rw [decode_of_opc hlow, hhigh, withIndex_self]

/-- The fields of a command word do not overlap, so the sum is the bitwise or. -/
theorem encode_toNat_eq_or {i : Instr} (hi : i.wellFormed = true) :
    (encode i).toNat = (i.index <<< 8) ||| i.opc.toNat := by
  rw [encode_toNat_of_wellFormed hi, ← Nat.shiftLeft_add_eq_or_of_lt i.opc.isLt, Nat.shiftLeft_eq]

theorem lineTurns_cmd (i : Instr) : lineTurns (.cmd i) = [.input (.regWrite 0x004 (encode i) 0b1111)] := by
  have hw : BitVec.ofNat 32 (encode i).toNat = encode i := by rw [BitVec.ofNat_toNat, BitVec.setWidth_eq]
  rw [lineTurns, commandTurn, writeTurn, hw]
  rfl

/-- Settles O1: the round trip, the word as a number, and the host line. -/
theorem commandLineEncodesAndDecodes : Obligations.CommandLineEncodesAndDecodes := by
  unfold Obligations.CommandLineEncodesAndDecodes
  refine ⟨fun i hi => ⟨decode_encode hi, encode_toNat_eq_or hi, lineTurns_cmd i⟩, ?_⟩
  decide

/-! ## Illegal OPC values (R94) -/

/-- The OPC values that no row of the opcode map has (R94). -/
def IllegalOpc (n : Nat) : Prop :=
  n = 0x00 ∨ (0x04 ≤ n ∧ n ≤ 0x0F) ∨ (0x1A ≤ n ∧ n ≤ 0x1F) ∨ (0x26 ≤ n ∧ n ≤ 0x2F) ∨ (0x31 ≤ n ∧ n ≤ 0xFF)

theorem opc_not_illegal (i : Instr) : ¬ IllegalOpc i.opc.toNat := by
  unfold IllegalOpc
  cases i <;> simp [Instr.opc]

theorem illegalOpc_of_decode {w : Word} (h : decode w = none) : IllegalOpc (w.toNat % 256) := by
  rw [← opcField_toNat]
  have hlt := (opcField w).isLt
  unfold decode decodeFields at h
  unfold IllegalOpc
  split at h
  case h_21 =>
    simp only [imp_false] at *
    omega
  all_goals cases h

theorem decode_eq_none_iff_illegalOpc (w : Word) : decode w = none ↔ IllegalOpc (w.toNat % 256) := by
  refine ⟨illegalOpc_of_decode, fun h => (decode_eq_none_iff w).2 fun i hi => ?_⟩
  rw [← hi] at h
  exact opc_not_illegal i h

/-- A word written to CMD while the core is idle is accepted (R264). -/
theorem applyInput_cmd_idle {s : State} (hp : s.phase = .idle) (hr : s.resetHeld = false) (w : Word) :
    applyInput (.regWrite 0x004 w 0b1111) s = accept w s := by
  have hreg : regAt 0x004 = some .cmd := regAt_of_regOffset rfl rfl
  simp only [applyInput, hostWriteReg, hostWrite, State.busy, hp, hr, hreg, writeReg, maskLanes_all,
    Bool.false_eq_true, if_false]

/-- Settles O4: the map's gaps are the illegal OPC values, and the end step of such a word raises ILLEGAL_CMD. -/
theorem illegalOpcodeRaisesIllegalCmd : Obligations.IllegalOpcodeRaisesIllegalCmd := by
  unfold Obligations.IllegalOpcodeRaisesIllegalCmd
  refine ⟨decode_eq_none_iff_illegalOpc, fun w s hd hp hr => ?_⟩
  rw [applyInput_cmd_idle hp hr]
  refine ⟨rfl, ?_⟩
  rw [coreTurn_running (accept_phase w s), runWord_none hd]
  rfl

end Sys2Proof.Machine
end

section
/-! PROOFS. The statements of spec/40_gf_multiplier.md: the product's corner cases and the effect of GFMUL (R122).
The multiplier's loop is followed once, by the lemmas on `gfLoop`. -/

namespace Sys2Proof.Machine

open Sys2Proof

/-! ## The shift-and-reduce loop (R120) -/

theorem gfDouble_zero : gfDouble 0 = 0 := by decide

/-- A zero multiplicand stays zero, and adds nothing. -/
theorem gfLoop_zero_multiplicand (n : Nat) (y r : Byte) : gfLoop n 0 y r = r := by
  induction n generalizing y r with
  | zero => rfl
  | succ n ih =>
    rw [gfLoop, gfDouble_zero, ih]
    simp

/-- A zero multiplier selects no multiple. -/
theorem gfLoop_zero_multiplier (n : Nat) (x r : Byte) : gfLoop n x 0 r = r := by
  induction n generalizing x with
  | zero => rfl
  | succ n ih => simpa [gfLoop] using ih (gfDouble x)

/-- Below bit 7 a power of two doubles without reduction. -/
theorem gfDouble_one_shiftLeft {k : Nat} (hk : k < 7) : gfDouble ((1 : Byte) <<< k) = (1 : Byte) <<< (k + 1) := by
  interval_cases k <;> rfl

/-- A byte is its bit 0 and its other bits. -/
theorem byte_eq_bit_xor_rest (y : Byte) : (if y.getLsbD 0 then (1 : Byte) else 0) ^^^ (y >>> 1) <<< 1 = y := by
  refine BitVec.eq_of_getLsbD_eq fun i hi => ?_
  cases i with
  | zero => cases y.getLsbD 0 <;> simp
  | succ i => split <;> simp [hi, Nat.add_comm 1 i]

/-- What one round adds to the accumulator, with the multiples still to come. -/
theorem round_xor_rest (y r : Byte) (k : Nat) :
    (if y.getLsbD 0 then r ^^^ (1 : Byte) <<< k else r) ^^^ (y >>> 1) <<< (k + 1) = r ^^^ y <<< k := by
  conv_rhs => rw [← byte_eq_bit_xor_rest y]
  rw [BitVec.shiftLeft_xor_distrib, ← BitVec.shiftLeft_add, Nat.add_comm 1 k, ← BitVec.xor_assoc]
  split <;> simp

/-- From the multiplicand `1 <<< k` on, the remaining `8 - k` rounds add the multiplier at bit k. -/
theorem gfLoop_one_shiftLeft {n k : Nat} (hk : n + k = 8) (y r : Byte) :
    gfLoop n ((1 : Byte) <<< k) y r = r ^^^ y <<< k := by
  induction n generalizing k y r with
  | zero =>
    obtain rfl : k = 8 := by omega
    simp [gfLoop]
  | succ n ih =>
    rw [gfLoop, ← round_xor_rest y r k]
    cases n with
    | zero =>
      obtain rfl : k = 7 := by omega
      simp [gfLoop]
    | succ n => rw [gfDouble_one_shiftLeft (by omega), ih (by omega)]

/-! ## The product's corner cases (R122) -/

theorem gfmul_zero_left (b : Byte) : gfmul 0 b = 0 := gfLoop_zero_multiplicand 8 b 0

theorem gfmul_zero_right (a : Byte) : gfmul a 0 = 0 := gfLoop_zero_multiplier 8 a 0

theorem gfmul_one_left (b : Byte) : gfmul 1 b = b :=
  (gfLoop_one_shiftLeft (k := 0) rfl b 0).trans (by simp)

/-! ## The command -/

theorem gfA_eq_setWidth (s : State) : State.gfA s = s.gfOps.setWidth 8 := rfl

theorem gfB_eq_setWidth (s : State) : State.gfB s = (s.gfOps >>> 8).setWidth 8 := rfl

/-- GFMUL has no check to fail, so it commits the product from every state. -/
theorem exec_gfmul (s : State) :
    exec .gfmul s = .next (commit { s with gfRes := gfmul (State.gfA s) (State.gfB s) }) :=
  exec_of_check_none rfl

/-- Settles O25: the command commits the product, whose corner cases are those of the loop. -/
theorem gfmulWritesProduct : Obligations.GfmulWritesProduct := by
  unfold Obligations.GfmulWritesProduct
  refine ⟨fun s => ?_, fun b => ⟨gfmul_zero_left b, gfmul_zero_right b, gfmul_one_left b⟩,
    by decide, by decide, by decide⟩
  rw [exec_gfmul, commit, gfA_eq_setWidth, gfB_eq_setWidth]

end Sys2Proof.Machine
end

section
/-! PROOFS. The statements of spec/41_permutation.md: the sub-transforms (R131 to R135), the round (R137) and the
permutations (R138). What a command of the engine leaves is said once, by `transformed`; what a sub-transform does to
the byte at row r, column c, by one lemma on `cell` each. -/

namespace Sys2Proof.Machine

open Sys2Proof

/-! ## The mode of a context (R27, R28) -/

theorem cfg_of_context {s : State} (hc : State.HasContext s) : s.cfg = Cfg.ofLength s.cfg.outBits.toNat := by
  obtain ⟨hv, hlegal⟩ := hc
  simp only [Cfg.legal, Bool.or_eq_true, Bool.and_eq_true, decide_eq_true_eq] at hlegal
  rcases hlegal with hz | ⟨_, h⟩
  · simp [hz, Cfg.zero] at hv
  · exact h

theorem cols_of_context {s : State} (hc : State.HasContext s) :
    State.cols s = if s.cfg.large then 16 else 8 := by
  rw [State.cols, State.nb, cfg_of_context hc]
  simp only [Cfg.ofLength]
  split <;> simp [*]

theorem rounds_of_context {s : State} (hc : State.HasContext s) :
    (State.engine s).rounds = if s.cfg.large then 14 else 10 := by
  rw [State.engine, cfg_of_context hc]
  simp only [Cfg.ofLength]
  split <;> simp [*]

/-! ## A command of the engine (R140 to R148) -/

/-- The state a command of the engine ends in: `STATE[0..NB) <- f(STATE[0..NB))`, committed. -/
def transformed (f : Engine → List Byte → List Byte) (s : State) : State := commit (hashStateResult f s)

/-- f gives NB bytes for NB bytes. -/
def KeepsLength (f : Engine → List Byte → List Byte) : Prop :=
  ∀ (E : Engine) (b : List Byte), b.length = E.nb → (f E b).length = E.nb

theorem KeepsLength.comp {f g : Engine → List Byte → List Byte} (hg : KeepsLength g) (hf : KeepsLength f) :
    KeepsLength fun E b => g E (f E b) :=
  fun E b hb => hg E _ (hf E b hb)

/-- Command i replaces the hash state by its image under f, given a context. -/
structure Computes (i : Instr) (f : Engine → List Byte → List Byte) : Prop where
  exec_eq : ∀ s, exec i s = onHashState f s
  keepsLength : KeepsLength f

theorem Computes.exec_of_context {i : Instr} {f : Engine → List Byte → List Byte} (h : Computes i f) {s : State}
    (hc : State.HasContext s) : exec i s = .next (transformed f s) := by
  rw [h.exec_eq, onHashState, checkContext_none_iff.2 hc.1, finish_none]
  rfl

theorem computes_arcP (i : Nat) : Computes (.arcP i) fun E => arcP E (BitVec.ofNat 8 i) :=
  ⟨fun _ => rfl, fun E b _ => arcP_length E _ b⟩

theorem computes_arcQ (i : Nat) : Computes (.arcQ i) fun E => arcQ E (BitVec.ofNat 8 i) :=
  ⟨fun _ => rfl, fun E b _ => arcQ_length E _ b⟩

theorem computes_sub : Computes .sub subBytes := ⟨fun _ => rfl, fun E b _ => subBytes_length E b⟩

theorem computes_shift : Computes .shift shiftRows := ⟨fun _ => rfl, fun E b _ => shiftRows_length E b⟩

theorem computes_mix : Computes .mix mixColumns := ⟨fun _ => rfl, fun E b _ => mixColumns_length E b⟩

theorem computes_rndP (i : Nat) : Computes (.rndP i) fun E => roundP E (BitVec.ofNat 8 i) :=
  ⟨fun _ => rfl, fun E b _ => roundP_length E _ b⟩

theorem computes_rndQ (i : Nat) : Computes (.rndQ i) fun E => roundQ E (BitVec.ofNat 8 i) :=
  ⟨fun _ => rfl, fun E b _ => roundQ_length E _ b⟩

theorem computes_permP : Computes .permP permP := ⟨fun _ => rfl, fun E _ hb => permP_length E hb⟩

theorem computes_permQ : Computes .permQ permQ := ⟨fun _ => rfl, fun E _ hb => permQ_length E hb⟩

/-- The frame of a command of the engine. -/
theorem transformed_eq (f : Engine → List Byte → List Byte) (s : State) :
    transformed f s = { s with hashState := (transformed f s).hashState, done := true, phase := .idle } := rfl

theorem transformed_hashState (f : Engine → List Byte → List Byte) (s : State) :
    (transformed f s).hashState = overwrite s.hashState (f (State.engine s) (State.hashBytes s)) := rfl

/-- Two maps that agree on the hash state leave the same state. -/
theorem transformed_congr {f g : Engine → List Byte → List Byte} {s : State}
    (h : f (State.engine s) (State.hashBytes s) = g (State.engine s) (State.hashBytes s)) :
    transformed f s = transformed g s := by
  rw [transformed, transformed, hashStateResult, hashStateResult, h]

/-- Writing the hash state back changes nothing. -/
theorem overwrite_hashBytes {s : State} (hc : State.HasContext s) :
    overwrite s.hashState (State.hashBytes s) = s.hashState := by
  have hlen := hashBytes_length hc.2
  refine array_ext fun k _ => ?_
  rw [overwrite_getD _ _ _ (hlen.trans_le (nb_le_128 hc)), hlen]
  split
  · next hk => rw [hashBytes_getD, if_pos hk]; rfl
  · rfl

section
variable {f g : Engine → List Byte → List Byte} {s : State} (hc : State.HasContext s) (hf : KeepsLength f)
include hc hf

theorem length_of_keepsLength : (f (State.engine s) (State.hashBytes s)).length = State.nb s :=
  hf _ _ (hashBytes_length hc.2)

/-- A byte of STATE after the command: the map's below NB, what STATE held above. -/
theorem transformed_stateByte (k : Nat) :
    State.stateByte (transformed f s) k =
      if k < State.nb s then (f (State.engine s) (State.hashBytes s)).getD k 0 else State.stateByte s k := by
  have hlen := length_of_keepsLength hc hf
  rw [State.stateByte, transformed_hashState, overwrite_getD _ _ _ (hlen.trans_le (nb_le_128 hc)), hlen]
  rfl

theorem transformed_stateByte_above {k : Nat} (hk : State.nb s ≤ k) :
    State.stateByte (transformed f s) k = State.stateByte s k := by
  rw [transformed_stateByte hc hf, if_neg (by omega)]

theorem transformed_hashBytes :
    State.hashBytes (transformed f s) = f (State.engine s) (State.hashBytes s) := by
  have hlen : (State.hashBytes (transformed f s)).length = State.nb s :=
    hashBytes_length (s := transformed f s) hc.2
  refine string_ext (hlen.trans (length_of_keepsLength hc hf).symm) fun k hk => ?_
  have hk : k < State.nb s := hlen ▸ hk
  rw [hashBytes_getD, transformed_stateByte hc hf, if_pos hk]
  exact if_pos hk

/-- Two commands of the engine, one after the other, are one command of the composed map. -/
theorem transformed_transformed (hg : KeepsLength g) :
    transformed g (transformed f s) = transformed (fun E b => g E (f E b)) s := by
  have hgf : KeepsLength fun E b => g E (f E b) := hg.comp hf
  have hbyte : ∀ k, State.stateByte (transformed g (transformed f s)) k =
      if k < State.nb s then (g (State.engine s) (f (State.engine s) (State.hashBytes s))).getD k 0
      else State.stateByte (transformed f s) k := by
    intro k
    rw [← transformed_hashBytes hc hf]
    exact transformed_stateByte (s := transformed f s) hc hg k
  have hstate : (transformed g (transformed f s)).hashState = (transformed (fun E b => g E (f E b)) s).hashState := by
    refine array_ext fun k _ => (hbyte k).trans (Eq.trans ?_ (transformed_stateByte hc hgf k).symm)
    split
    · rfl
    · next hk => exact transformed_stateByte_above hc hf (Nat.le_of_not_lt hk)
  exact congrArg (fun w => { s with hashState := w, done := true, phase := .idle }) hstate

/-- A command of the engine after another one. -/
theorem Computes.exec_transformed {j : Instr} (hj : Computes j g) :
    exec j (transformed f s) = .next (transformed (fun E b => g E (f E b)) s) := by
  rw [← transformed_transformed hc hf hj.keepsLength]
  exact hj.exec_of_context (s := transformed f s) hc

end

/-! ## Bytes by row and column (R31) -/

theorem cell_index_lt {E : Engine} {c : Nat} (hc : c < Engine.cols E) (r : Fin 8) : 8 * c + r.val < E.nb := by
  have := r.isLt
  simp only [Engine.cols] at hc
  omega

theorem cell_tabulate {E : Engine} (f : Fin 8 → Nat → Byte) {r : Fin 8} {c : Nat} (h : 8 * c + r.val < E.nb) :
    cell (tabulate E f) r c = f r c := by
  have hr := r.isLt
  have hrow : rowOf (8 * c + r.val) = r := Fin.ext (by simp only [rowOf]; omega)
  have hcol : (8 * c + r.val) / 8 = c := by omega
  rw [cell, tabulate_getD, if_pos h, hrow, hcol]

/-- Two NB-byte strings with the same byte at every row and column are equal. -/
theorem string_ext_of_cell {E : Engine} {a b : List Byte} (ha : a.length = E.nb) (hb : b.length = E.nb)
    (h : ∀ (r : Fin 8) (c : Nat), 8 * c + r.val < E.nb → cell a r c = cell b r c) : a = b := by
  refine string_ext (ha.trans hb.symm) fun k hk => ?_
  have hindex : 8 * (k / 8) + (rowOf k).val = k := Nat.div_add_mod k 8
  have hcell := h (rowOf k) (k / 8) (by omega)
  rwa [cell, cell, hindex] at hcell

theorem cell_hashBytes {s : State} {c : Nat} (hcol : c < State.cols s) (r : Fin 8) :
    cell (State.hashBytes s) r c = State.cellAt s r c := by
  have hk : 8 * c + r.val < State.nb s := cell_index_lt (E := State.engine s) hcol r
  rw [cell, hashBytes_getD, if_pos hk]
  rfl

theorem transformed_cellAt {f : Engine → List Byte → List Byte} {s : State} (hc : State.HasContext s)
    (hf : KeepsLength f) {c : Nat} (hcol : c < State.cols s) (r : Fin 8) :
    State.cellAt (transformed f s) r c = cell (f (State.engine s) (State.hashBytes s)) r c := by
  have hcol' : c < State.cols (transformed f s) := hcol
  rw [← cell_hashBytes hcol', transformed_hashBytes hc hf]

/-! ## P round-constant injection (R131) -/

theorem cell_arcP {E : Engine} (i : Byte) (b : List Byte) {r : Fin 8} {c : Nat} (h : 8 * c + r.val < E.nb) :
    cell (arcP E i b) r c = if r = 0 then cell b r c ^^^ (BitVec.ofNat 8 (c * 0x10) ^^^ i) else cell b r c :=
  cell_tabulate _ h

/-- The injection undoes itself. -/
theorem arcP_arcP {E : Engine} (i : Byte) {b : List Byte} (hb : b.length = E.nb) :
    arcP E i (arcP E i b) = b := by
  refine string_ext_of_cell (arcP_length E i _) hb fun r c h => ?_
  rw [cell_arcP i _ h, cell_arcP i b h]
  split
  · rw [BitVec.xor_assoc, BitVec.xor_self, BitVec.xor_zero]
  · rfl

/-- Settles O27: the injection by row, its frame, and that it undoes itself. -/
theorem arcPXorsRowZero : Obligations.ArcPXorsRowZero := by
  unfold Obligations.ArcPXorsRowZero
  intro s i hc
  have hlen := (computes_arcP i).keepsLength
  refine ⟨_, (computes_arcP i).exec_of_context hc, transformed_eq _ s, fun c hcol => ⟨?_, fun r hr => ?_⟩,
    fun k hk => transformed_stateByte_above hc hlen hk, _, (computes_arcP i).exec_transformed hc hlen, ?_⟩
  · rw [transformed_cellAt hc hlen hcol, cell_arcP _ _ (cell_index_lt hcol 0), if_pos rfl, cell_hashBytes hcol]
  · rw [transformed_cellAt hc hlen hcol, cell_arcP _ _ (cell_index_lt hcol r), if_neg hr, cell_hashBytes hcol]
  · rw [transformed_hashState, arcP_arcP _ (hashBytes_length hc.2), overwrite_hashBytes hc]

/-! ## Q round-constant injection (R132) -/

theorem cell_arcQ {E : Engine} (i : Byte) (b : List Byte) {r : Fin 8} {c : Nat} (h : 8 * c + r.val < E.nb) :
    cell (arcQ E i b) r c = (columnWord b c + constantQ (Engine.cols E) c i).extractLsb' (8 * r.val) 8 :=
  cell_tabulate _ h

/-- Eight digits of base 2^8, row 0 least significant. -/
theorem sum_rows (f : Fin 8 → Nat) :
    ((List.finRange 8).map fun r => f r * 2 ^ (8 * r.val)).sum =
      f 0 + f 1 * 2 ^ 8 + f 2 * 2 ^ 16 + f 3 * 2 ^ 24 + f 4 * 2 ^ 32 + f 5 * 2 ^ 40 + f 6 * 2 ^ 48 + f 7 * 2 ^ 56 := by
  rw [← List.ofFn_eq_map, List.sum_ofFn, Fin.sum_univ_eight]
  simp

/-- The column word is the integer of R132. -/
theorem columnWord_toNat (b : List Byte) (c : Nat) :
    (columnWord b c).toNat = ((List.finRange 8).map fun r => (cell b r c).toNat * 2 ^ (8 * r.val)).sum := by
  have hword : columnWord b c =
      (cell b 7 c ++ cell b 6 c ++ cell b 5 c ++ cell b 4 c ++ cell b 3 c ++ cell b 2 c ++ cell b 1 c ++ cell b 0 c :
        BitVec (8 + 8 + 8 + 8 + 8 + 8 + 8 + 8)) := rfl
  rw [hword, sum_rows fun r => (cell b r c).toNat]
  simp only [append_toNat]
  omega

/-- A 64-bit value is the sum of its bytes, each in its place. -/
theorem sum_bytes_of_dword (w : DWord) :
    ((List.finRange 8).map fun r => (w.extractLsb' (8 * r.val) 8).toNat * 2 ^ (8 * r.val)).sum = w.toNat := by
  have hbyte : ∀ k, (w.extractLsb' k 8).toNat = w.toNat / 2 ^ k % 2 ^ 8 := fun k => by
    rw [BitVec.extractLsb'_toNat, Nat.shiftRight_eq_div_pow]
  have := w.isLt
  rw [sum_rows fun r => (w.extractLsb' (8 * r.val) 8).toNat]
  simp only [hbyte, Fin.isValue, Fin.coe_ofNat_eq_mod, Nat.reduceMod, Nat.reduceMul]
  omega

/-- The round constant as a number: nothing is lost in the shift, a column number and an index being below 256. -/
theorem constantQ_toNat {cols i : Nat} (hcols : cols ≤ 16) (hi : i < 256) (c : Nat) :
    (constantQ cols c (BitVec.ofNat 8 i)).toNat =
      0x00F0F0F0F0F0F0F3 ^^^ ((((cols - c - 1) * 0x10) ^^^ i) * 2 ^ 56) := by
  have hx : (cols - c - 1) * 0x10 < 2 ^ 8 := by omega
  have hxi : (cols - c - 1) * 0x10 ^^^ i < 2 ^ 8 := Nat.xor_lt_two_pow hx hi
  have hshift : ((cols - c - 1) * 0x10 ^^^ i) * 2 ^ 56 < 2 ^ 64 := by omega
  rw [constantQ, BitVec.toNat_xor, BitVec.toNat_shiftLeft, BitVec.toNat_xor, BitVec.toNat_setWidth,
    BitVec.toNat_ofNat, BitVec.toNat_ofNat, BitVec.toNat_ofNat, Nat.shiftLeft_eq,
    Nat.mod_eq_of_lt (a := (cols - c - 1) * 0x10) (by omega), Nat.mod_eq_of_lt (a := i) hi,
    Nat.mod_eq_of_lt (a := i) (by omega), Nat.mod_eq_of_lt hshift]

theorem columnValue_eq_columnWord {s : State} {c : Nat} (hcol : c < State.cols s) :
    State.columnValue s c = (columnWord (State.hashBytes s) c).toNat := by
  simp only [columnWord_toNat, cell_hashBytes hcol]
  rfl

theorem columnWord_arcQ {E : Engine} (i : Byte) (b : List Byte) {c : Nat} (hcol : c < Engine.cols E) :
    columnWord (arcQ E i b) c = columnWord b c + constantQ (Engine.cols E) c i := by
  refine BitVec.eq_of_toNat_eq ?_
  simp only [columnWord_toNat (arcQ E i b), cell_arcQ i b (cell_index_lt hcol _), sum_bytes_of_dword]

/-- Settles O28: the column word after the command is the 64-bit sum, and its constant loses nothing. -/
theorem arcQAddsToColumns : Obligations.ArcQAddsToColumns := by
  unfold Obligations.ArcQAddsToColumns
  intro s i hc hi
  have hlen := (computes_arcQ i).keepsLength
  refine ⟨_, (computes_arcQ i).exec_of_context hc, transformed_eq _ s, fun c hcol => ?_,
    fun k hk => transformed_stateByte_above hc hlen hk⟩
  have hcol' : c < State.cols (transformed (fun E => arcQ E (BitVec.ofNat 8 i)) s) := hcol
  have hcols : State.cols s ≤ 16 := by
    rw [cols_of_context hc]
    split <;> omega
  rw [columnValue_eq_columnWord hcol', transformed_hashBytes hc hlen, columnWord_arcQ _ _ hcol, BitVec.toNat_add,
    ← constantQ_toNat hcols hi, columnValue_eq_columnWord hcol]
  rfl

/-! ## Byte substitution (R133) -/

theorem cell_subBytes {E : Engine} (b : List Byte) {r : Fin 8} {c : Nat} (h : 8 * c + r.val < E.nb) :
    cell (subBytes E b) r c = sboxAt E.rom (tableOf r) (cell b r c) :=
  cell_tabulate _ h

/-- Settles O29: the substitution by row and column, and its frame. -/
theorem subUsesTableOfRow : Obligations.SubUsesTableOfRow := by
  unfold Obligations.SubUsesTableOfRow
  intro s hc
  have hlen := computes_sub.keepsLength
  refine ⟨_, computes_sub.exec_of_context hc, transformed_eq _ s, fun r c hcol => ?_,
    fun k hk => transformed_stateByte_above hc hlen hk⟩
  rw [transformed_cellAt hc hlen hcol, cell_subBytes _ (cell_index_lt hcol r), cell_hashBytes hcol]
  rfl

/-! ## Row rotation (R134) -/

theorem cell_shiftRows {E : Engine} (b : List Byte) {r : Fin 8} {c : Nat} (h : 8 * c + r.val < E.nb) :
    cell (shiftRows E b) r c = cell b r (sourceColumn E.rotDir (Engine.cols E) r c) :=
  cell_tabulate _ h

/-- The shift amount, by the mode. -/
theorem rowShift_of_context {s : State} (hc : State.HasContext s) (r : Fin 8) :
    rowShift (State.cols s) r = if s.cfg.large = true ∧ r = 7 then 11 else r.val := by
  rw [cols_of_context hc, rowShift]
  cases s.cfg.large <;> simp

/-- TOWARD_HIGHER moves the byte at column c to column c + δ. -/
theorem sourceColumn_towardHigher {cols c : Nat} (r : Fin 8) (hcol : c < cols) :
    sourceColumn .towardHigher cols r ((c + rowShift cols r) % cols) = c := by
  have hback : (((c + rowShift cols r) % cols : Nat) - (rowShift cols r : Int)) % cols = c := by
    rw [Int.natCast_mod, Int.emod_sub_emod, Nat.cast_add, add_sub_cancel_right]
    exact Int.emod_eq_of_lt (by omega) (by omega)
  rw [sourceColumn, hback, Int.toNat_natCast]

theorem transformed_shiftRows_cellAt {s : State} (hc : State.HasContext s) {c : Nat} (hcol : c < State.cols s)
    (r : Fin 8) :
    State.cellAt (transformed shiftRows s) r c =
      cell (State.hashBytes s) r (sourceColumn s.params.rotDir (State.cols s) r c) := by
  rw [transformed_cellAt hc computes_shift.keepsLength hcol, cell_shiftRows _ (cell_index_lt hcol r)]
  rfl

/-- Settles O30: where the byte of a column comes from, in either direction, and the frame. -/
theorem shiftRotatesRows : Obligations.ShiftRotatesRows := by
  unfold Obligations.ShiftRotatesRows
  intro s hc
  refine ⟨_, computes_shift.exec_of_context hc, transformed_eq _ s, fun r c d hcol hd => ?_,
    fun k hk => transformed_stateByte_above hc computes_shift.keepsLength hk⟩
  obtain rfl := hd.trans (rowShift_of_context hc r).symm
  have htarget : (c + rowShift (State.cols s) r) % State.cols s < State.cols s := Nat.mod_lt _ (by omega)
  constructor
  case left =>
    intro hdir
    rw [transformed_shiftRows_cellAt hc hcol, hdir, sourceColumn, cell_hashBytes htarget]
  case right =>
    intro hdir
    rw [transformed_shiftRows_cellAt hc htarget, hdir, sourceColumn_towardHigher r hcol, cell_hashBytes hcol]

/-! ## Column mixing (R135) -/

/-- The sum over the rows, written out. -/
theorem cell_mixColumns {E : Engine} (b : List Byte) {r : Fin 8} {c : Nat} (h : 8 * c + r.val < E.nb) :
    cell (mixColumns E b) r c =
      gfmul (mdsAt E.rom r 0) (cell b 0 c) ^^^ gfmul (mdsAt E.rom r 1) (cell b 1 c)
        ^^^ gfmul (mdsAt E.rom r 2) (cell b 2 c) ^^^ gfmul (mdsAt E.rom r 3) (cell b 3 c)
        ^^^ gfmul (mdsAt E.rom r 4) (cell b 4 c) ^^^ gfmul (mdsAt E.rom r 5) (cell b 5 c)
        ^^^ gfmul (mdsAt E.rom r 6) (cell b 6 c) ^^^ gfmul (mdsAt E.rom r 7) (cell b 7 c) := by
  rw [mixColumns, cell_tabulate _ h, mixCell]
  simp only [List.foldl_cons, List.foldl_nil]
  rw [show (0 : Byte) = 0#8 from rfl, BitVec.zero_xor]

theorem cell_mixColumns_of_zero {E : Engine} {b : List Byte} {c : Nat} (hz : ∀ r : Fin 8, cell b r c = 0) {r : Fin 8}
    (h : 8 * c + r.val < E.nb) : cell (mixColumns E b) r c = 0 := by
  rw [cell_mixColumns b h]
  simp only [hz, gfmul_zero_right]
  rfl

/-- Settles O31: the product by row and column, a zero column, and the frame. -/
theorem mixMultipliesColumns : Obligations.MixMultipliesColumns := by
  unfold Obligations.MixMultipliesColumns
  intro s hc
  have hlen := computes_mix.keepsLength
  refine ⟨_, computes_mix.exec_of_context hc, transformed_eq _ s, fun r c hcol => ?_, fun c hcol hz r => ?_,
    fun k hk => transformed_stateByte_above hc hlen hk⟩
  · simp only [transformed_cellAt hc hlen hcol, cell_mixColumns _ (cell_index_lt (E := State.engine s) hcol r),
      cell_hashBytes hcol]
    rfl
  · rw [transformed_cellAt hc hlen hcol,
      cell_mixColumns_of_zero (fun r => (cell_hashBytes hcol r).trans (hz r)) (cell_index_lt hcol r)]

/-! ## Rounds (R136, R137) -/

/-- SUB, SHIFT and MIX after an injection. -/
theorem execAll_subTransforms {inject : Instr} {f : Engine → List Byte → List Byte} (h : Computes inject f)
    {s : State} (hc : State.HasContext s) :
    execAll [inject, .sub, .shift, .mix] s =
      .next (transformed (fun E b => mixColumns E (shiftRows E (subBytes E (f E b)))) s) := by
  have hsub := computes_sub.keepsLength.comp h.keepsLength
  have hshift := computes_shift.keepsLength.comp hsub
  rw [execAll_cons (h.exec_of_context hc), execAll_cons (computes_sub.exec_transformed hc h.keepsLength),
    execAll_cons (computes_shift.exec_transformed hc hsub), execAll_cons (computes_mix.exec_transformed hc hshift)]
  rfl

/-- Settles O32: the round's map is the composition of its four sub-transforms. -/
theorem roundIsFourSubTransforms : Obligations.RoundIsFourSubTransforms := by
  unfold Obligations.RoundIsFourSubTransforms
  intro s i hc
  exact ⟨⟨_, (computes_rndP i).exec_of_context hc, transformed_eq _ s, execAll_subTransforms (computes_arcP i) hc⟩,
    _, (computes_rndQ i).exec_of_context hc, transformed_eq _ s, execAll_subTransforms (computes_arcQ i) hc⟩

/-! ## Permutations (R138) -/

theorem execAll_append_singleton (l : List Instr) (i : Instr) (s : State) :
    execAll (l ++ [i]) s = andThen (execAll l s) (exec i) := by
  induction l generalizing s with
  | nil =>
    simp only [List.nil_append, execAll, andThen]
    cases exec i s <;> rfl
  | cons j rest ih =>
    obtain ⟨t, ht⟩ := exec_next j s
    rw [List.cons_append, execAll_cons ht, execAll_cons ht, ih]

section
variable {command : Nat → Instr} {round : Engine → Byte → List Byte → List Byte} {s : State}
  (hround : ∀ k, Computes (command k) fun E => round E (BitVec.ofNat 8 k))
  (hlen : ∀ E i b, (round E i b).length = E.nb)
  (hc : State.HasContext s)
include hround hlen hc

/-- The round commands with the indices 0 to n, in order, are one command of the folded rounds. -/
theorem execAll_rounds (n : Nat) :
    execAll ((List.range (n + 1)).map command) s =
      .next (transformed (fun E => allRounds (n + 1) (round E)) s) := by
  induction n with
  | zero => exact execAll_cons ((hround 0).exec_of_context hc) []
  | succ n ih =>
    have hkeeps : KeepsLength fun E => allRounds (n + 1) (round E) := fun E _ hb => allRounds_length (hlen E) _ hb
    rw [List.range_succ, List.map_append, List.map_singleton, execAll_append_singleton, ih, andThen,
      (hround (n + 1)).exec_transformed hc hkeeps]
    exact congrArg _ (transformed_congr (allRounds_succ (n + 1) _ _).symm)

/-- The round commands with the indices of R138 are one command of all rounds. -/
theorem execAll_rounds_of_context :
    execAll ((List.range (if s.cfg.large then 14 else 10)).map command) s =
      .next (transformed (fun E => allRounds E.rounds (round E)) s) := by
  obtain ⟨n, hn⟩ : ∃ n, (State.engine s).rounds = n + 1 := by
    refine Nat.exists_eq_add_one.2 ?_
    rw [rounds_of_context hc]
    split <;> decide
  rw [← rounds_of_context hc, hn, execAll_rounds hround hlen hc]
  exact congrArg _ (transformed_congr (by rw [hn]))

end

/-- Settles O33: ROUNDS is ten or fourteen by the mode, and the fold of the rounds is their sequence. -/
theorem permutationIsAllRounds : Obligations.PermutationIsAllRounds := by
  unfold Obligations.PermutationIsAllRounds
  intro s hc
  exact ⟨⟨_, computes_permP.exec_of_context hc, transformed_eq _ s,
      execAll_rounds_of_context computes_rndP roundP_length hc⟩,
    _, computes_permQ.exec_of_context hc, transformed_eq _ s,
      execAll_rounds_of_context computes_rndQ roundQ_length hc⟩

end Sys2Proof.Machine
end

section
/-! PROOFS. The statements of spec/42_padding.md: the zero-fill count and the length of the padding string (R174,
R176, R177), and the parts of the padding string that PAD leaves in PADBUF (R171, R172, R175, R176). -/

namespace Sys2Proof.Machine

open Sys2Proof

/-! ## Lengths (R171, R174, R176, R177) -/

theorem partialBits_lt (L : DWord) : partialBits L < 8 := Nat.mod_lt _ (by decide)

theorem prefixLen_add_remLen (nb : Nat) (L : DWord) : prefixLen nb L + remLen nb L = wholeBytes L :=
  Nat.sub_add_cancel (Nat.mod_le _ _)

/-- The derivation of R174: with `L = 8m + e` and `m + 12 = NB · q + k`, the number of zero bits is
`8(NB - k) - (e + 1)`. -/
theorem zeroCount_eq {nb : Nat} (hnb : 0 < nb) (L : DWord) :
    zeroCount nb L = nb - (wholeBytes L + 12) % nb - 1 := by
  have hk : (wholeBytes L + 12) % nb < nb := Nat.mod_lt _ hnb
  have hL : 8 * wholeBytes L + partialBits L = L.toNat := Nat.div_add_mod _ _
  have he := partialBits_lt L
  have hm := Nat.div_add_mod (wholeBytes L + 12) nb
  generalize (wholeBytes L + 12) % nb = k at hk hm ⊢
  generalize (wholeBytes L + 12) / nb = q at hm
  have hbits : -(L.toNat : Int) - 97 =
      ((8 * (nb - k) - (partialBits L + 1) : Nat) : Int) + ((8 * nb : Nat) : Int) * (-(q + 1)) := by
    have hsub : 8 * (nb - k) - (partialBits L + 1) + 8 * k + partialBits L + 1 = 8 * nb := by omega
    push_cast
    zify at hL hm hsub
    linarith
  rw [zeroCount, hbits, Int.add_mul_emod_self_left, ← Int.natCast_emod, Int.toNat_natCast,
    Nat.mod_eq_of_lt (by omega)]
  omega

/-- R176: one block, or two where the length field no longer fits beside the remainder. -/
theorem padLen_eq {nb : Nat} (hnb : 12 < nb) (L : DWord) :
    padLen nb L = if remLen nb L + 13 ≤ nb then nb else 2 * nb := by
  have hr : remLen nb L < nb := Nat.mod_lt _ (by omega)
  have hk : (wholeBytes L + 12) % nb =
      if nb ≤ remLen nb L + 12 then remLen nb L + 12 - nb else remLen nb L + 12 := by
    rw [Nat.add_mod_eq_ite, Nat.mod_eq_of_lt hnb]
    rfl
  rw [padLen, zeroCount_eq (by omega), hk]
  by_cases hfit : remLen nb L + 13 ≤ nb
  · rw [if_pos hfit, if_neg (by omega)]
    omega
  · rw [if_neg hfit, if_pos (by omega)]
    omega

theorem dvd_prefixLen (nb : Nat) (L : DWord) : nb ∣ prefixLen nb L := Nat.dvd_sub_mod _

theorem dvd_padLen {nb : Nat} (hnb : 12 < nb) (L : DWord) : nb ∣ padLen nb L := by
  rw [padLen_eq hnb]
  split
  · exact Nat.dvd_refl nb
  · exact Nat.dvd_mul_left nb 2

/-- R177: the padded message is longer than the message, since the padding string has 13 bytes besides the
remainder. -/
theorem ceilBytes_lt_padded (nb : Nat) (L : DWord) : ceilBytes L < prefixLen nb L + padLen nb L := by
  have hsplit := prefixLen_add_remLen nb L
  rw [wholeBytes] at hsplit
  rw [ceilBytes, padLen]
  omega

/-- Settles O35: R174's count, R176's two lengths, and R177's postconditions from them. -/
theorem paddingIsOneOrTwoBlocks : Obligations.PaddingIsOneOrTwoBlocks := by
  unfold Obligations.PaddingIsOneOrTwoBlocks
  intro L nb h
  have hnb : 12 < nb := by omega
  exact ⟨zeroCount_eq (by omega) L, padLen_eq hnb L,
    Nat.mod_eq_zero_of_dvd (Nat.dvd_add (dvd_prefixLen nb L) (dvd_padLen hnb L)), ceilBytes_lt_padded nb L⟩

/-! ## The terminator byte (R172) -/

/-- The e message bits are the most significant ones; the terminator is the next bit down. -/
theorem terminator_getLsbD {e j : Nat} (q : Byte) (he : e < 8) (hj : j < 8) :
    (terminator e q).getLsbD j = ((decide (8 ≤ j + e) && q.getLsbD j) || decide (j = 7 - e)) := by
  rw [terminator]
  split
  case isTrue h0 =>
    subst h0
    have hbyte : ∀ i < 8, (0x80 : Byte).getLsbD i = decide (i = 7) := by decide
    rw [hbyte j hj, decide_eq_false (by omega : ¬ 8 ≤ j + 0), Bool.false_and, Bool.false_or]
  case isFalse h0 =>
    have hones : (0xFF#8) = BitVec.allOnes 8 := rfl
    have hmask : ((0xFF#8 <<< (8 - e)) &&& 0xFF#8).getLsbD j = decide (8 ≤ j + e) := by
      rw [hones, BitVec.and_allOnes, BitVec.getLsbD_shiftLeft, BitVec.getLsbD_allOnes]
      simp only [← decide_not, ← Bool.decide_and, decide_eq_decide]
      omega
    have hbit : (1#8 <<< (7 - e)).getLsbD j = decide (j = 7 - e) := by
      rw [BitVec.getLsbD_shiftLeft, BitVec.getLsbD_one]
      simp only [← decide_not, ← Bool.decide_and, decide_eq_decide]
      omega
    rw [BitVec.getLsbD_or, BitVec.getLsbD_and, hmask, hbit, Bool.and_comm]

/-! ## The parts of the padding string (R176) -/

section
variable {m : Memory} {nb : Nat} {L : DWord} {a : Nat}

theorem padString_remainder {k : Nat} (hk : k < remLen nb L) :
    (padString m nb L a).getD k 0 = Memory.byte m (a + prefixLen nb L + k) := by
  rw [padString_getD, if_pos hk]

theorem padString_terminator :
    (padString m nb L a).getD (remLen nb L) 0 = terminator (partialBits L) (Memory.byte m (a + wholeBytes L)) := by
  rw [padString_getD, if_neg (Nat.lt_irrefl _), if_pos rfl]

/-- The terminator byte of the padding string, bit by bit. -/
theorem padString_terminator_getLsbD {j : Nat} (hj : j < 8) :
    ((padString m nb L a).getD (remLen nb L) 0).getLsbD j =
      ((decide (8 ≤ j + partialBits L) && (Memory.byte m (a + wholeBytes L)).getLsbD j)
        || decide (j = 7 - partialBits L)) := by
  rw [padString_terminator, terminator_getLsbD _ (partialBits_lt L) hj]

theorem padString_zeroFill {k : Nat} (hr : remLen nb L < k) (hk : k + 12 < padLen nb L) :
    (padString m nb L a).getD k 0 = 0 := by
  have hz : k < remLen nb L + 1 + zeroCount nb L := by
    rw [padLen] at hk
    omega
  rw [padString_getD, if_neg (by omega), if_neg (by omega), if_pos hz]

theorem padString_lengthField (j : Nat) :
    (padString m nb L a).getD (padLen nb L - 12 + j) 0 = if j < 8 then L.extractLsb' (8 * j) 8 else 0 := by
  rw [padLen, Nat.add_sub_cancel, padString_getD, if_neg (by omega), if_neg (by omega), if_neg (by omega),
    Nat.add_sub_cancel_left, lengthField_getD]

/-- The four high bytes of the length field are 0x00, and so is every byte past the end. -/
theorem padString_above {k : Nat} (hk : padLen nb L - 4 ≤ k) : (padString m nb L a).getD k 0 = 0 := by
  have hlen : 12 ≤ padLen nb L := Nat.le_add_left 12 _
  obtain ⟨j, rfl⟩ := Nat.exists_eq_add_of_le (show padLen nb L - 12 ≤ k by omega)
  rw [padString_lengthField, if_neg (by omega)]

end

/-! ## PAD (R178) -/

/-- The state PAD leaves when its checks pass. -/
def padded (s : State) : State := commit (State.putPadding (messagePadding s) s)

theorem exec_pad {s : State} (hc : State.HasContext s) (hm : State.MessageInside s) :
    exec .pad s = .next (padded s) := by
  refine exec_of_check_none ?_
  rw [checkOf, checkContext_none_iff.2 hc.1, Option.none_or, checkMessage_none_iff.2 hm]

/-- NB leaves room for the length field and a byte before it. -/
theorem twelve_lt_nb {s : State} (hc : State.HasContext s) : 12 < State.nb s := by
  rcases nb_of_context hc with h | h <;> omega

/-- The padding string fits PADBUF in both modes (R33, R177). -/
theorem padLen_le_256 {s : State} (hc : State.HasContext s) (L : DWord) : padLen (State.nb s) L ≤ 256 := by
  have hnb := nb_le_128 hc
  rw [padLen_eq (twelve_lt_nb hc)]
  split <;> omega

theorem padded_padByte {s : State} (hc : State.HasContext s) (k : Nat) :
    State.padByte (padded s) k = (padString s.dmem (State.nb s) (State.msgBits s) s.msgAddr.toNat).getD k 0 :=
  putPadding_padByte (messagePadding s) s k ((padString_length ..).trans_le (padLen_le_256 hc _))

theorem padded_padNbytes_toNat {s : State} (hc : State.HasContext s) :
    (padded s).padNbytes.toNat = padLen (State.nb s) (State.msgBits s) := by
  have hlen : (messagePadding s).bytes.length = padLen (State.nb s) (State.msgBits s) := padString_length ..
  have hfit := padLen_le_256 hc (State.msgBits s)
  rw [padded, commit_padNbytes, State.putPadding_padNbytes, hlen, BitVec.toNat_ofNat, Nat.mod_eq_of_lt (by omega)]

theorem padded_dataNbytes_toNat (s : State) :
    (padded s).dataNbytes.toNat = prefixLen (State.nb s) (State.msgBits s) := by
  have hfit : prefixLen (State.nb s) (State.msgBits s) < 2 ^ 64 :=
    calc prefixLen (State.nb s) (State.msgBits s)
      _ ≤ wholeBytes (State.msgBits s) := Nat.sub_le _ _
      _ ≤ (State.msgBits s).toNat := Nat.div_le_self _ _
      _ < 2 ^ 64 := (State.msgBits s).isLt
  exact (BitVec.toNat_ofNat ..).trans (Nat.mod_eq_of_lt hfit)

/-- Settles O36: PADBUF holds the padding string, whose parts are read off one by one. -/
theorem padBuildsPaddingString : Obligations.PadBuildsPaddingString := by
  unfold Obligations.PadBuildsPaddingString
  rintro s nb m e r p q hc hm rfl rfl rfl rfl rfl hp
  obtain rfl := hp.trans (padLen_eq (twelve_lt_nb hc) (State.msgBits s)).symm
  refine ⟨padded s, exec_pad hc hm, rfl, padded_dataNbytes_toNat s, padded_padNbytes_toNat hc, fun k hk => ?_,
    fun j hj => ?_, fun k hr hk => ?_, fun j hj => ?_, fun k hk => ?_⟩ <;> rw [padded_padByte hc]
  · exact padString_remainder hk
  · exact padString_terminator_getLsbD hj
  · exact padString_zeroFill hr hk
  · exact (padString_lengthField j).trans (if_pos hj)
  · exact padString_above hk

end Sys2Proof.Machine
end

section
/-! PROOFS. The statements of spec/43_compression.md: the initial value (R190), the compression of a block of DMEM
(R191, R193) and of the padding blocks (R194). That the model's `compress` is the compression of the statements, which
name the states PERM_P and PERM_Q leave, is said once, by `compresses_of_compress`. -/

namespace Sys2Proof.Machine

open Sys2Proof

/-! ## IVLOAD (R190) -/

/-- Byte 0 of the initial value. -/
theorem initialValue_getD_zero (nb : Nat) : (initialValue nb).getD 0 0 = BitVec.ofNat 8 nb := rfl

theorem exec_ivload {s : State} (hc : State.HasContext s) :
    exec .ivload s = .next (commit (State.loadHashState (initialValue (State.nb s)) s)) :=
  exec_of_check_none (checkContext_none_iff.2 hc.1)

theorem loadHashState_stateByte (v : List Byte) (s : State) (k : Nat) :
    State.stateByte (State.loadHashState v s) k = if k < 128 then v.getD k 0 else 0 :=
  zeroFill_getD 128 v k

/-- Settles O38: the bytes of the initial value, over zeros. -/
theorem ivloadLoadsInitialValue : Obligations.IvloadLoadsInitialValue := by
  unfold Obligations.IvloadLoadsInitialValue
  refine ⟨fun s hc => ⟨_, exec_ivload hc, rfl, ?_, fun k hk => ?_⟩,
    fun s hv => exec_of_check_some (checkOf_of_not_valid nofun nofun hv)⟩
  · calc State.stateByte (State.loadHashState (initialValue (State.nb s)) s) 0
      _ = (initialValue (State.nb s)).getD 0 0 := loadHashState_stateByte _ s 0
      _ = BitVec.ofNat 8 (State.nb s) := initialValue_getD_zero _
      _ = s.cfg.nb := by rw [State.nb, BitVec.ofNat_toNat, BitVec.setWidth_eq]
  · exact (loadHashState_stateByte _ s k).trans (by rw [initialValue_getD_of_pos _ hk, ite_self])

/-! ## Hash states made of given bytes -/

/-- The hash state of a state whose bytes below NB are those of the NB-byte string a. -/
theorem hashBytes_withBytes_of_string {s : State} (hc : State.HasContext s) {f : Nat → Byte} {a : List Byte}
    (ha : a.length = State.nb s) (hf : ∀ k, k < State.nb s → f k = a.getD k 0) :
    State.hashBytes (State.withBytes s f) = a := by
  have hlen : (State.hashBytes (State.withBytes s f)).length = State.nb s :=
    hashBytes_length (s := State.withBytes s f) hc.2
  refine string_ext (hlen.trans ha.symm) fun k hk => ?_
  have hk : k < State.nb s := hlen ▸ hk
  rw [hashBytes_getD, ← hf k hk, ← stateByte_withBytes s f (hk.trans_le (nb_le_128 hc))]
  exact if_pos hk

/-- A command of the engine on a state whose hash state is a. -/
theorem Computes.exec_withBytes {i : Instr} {f : Engine → List Byte → List Byte} (h : Computes i f) {s : State}
    (hc : State.HasContext s) {g : Nat → Byte} {a : List Byte} (ha : a.length = State.nb s)
    (hg : ∀ k, k < State.nb s → g k = a.getD k 0) :
    ∃ t, exec i (State.withBytes s g) = .next t
      ∧ ∀ k, k < State.nb s → State.stateByte t k = (f (State.engine s) a).getD k 0 := by
  refine ⟨_, h.exec_of_context (s := State.withBytes s g) hc, fun k hk => ?_⟩
  rw [transformed_stateByte (s := State.withBytes s g) hc h.keepsLength, hashBytes_withBytes_of_string hc ha hg]
  exact if_pos hk

/-! ## The compression function (R191) -/

theorem compress_getD {E : Engine} {b blk : List Byte} (hb : b.length = E.nb) (hblk : blk.length = E.nb) (k : Nat) :
    (compress E b blk).getD k 0 =
      b.getD k 0 ^^^ (permP E (xorBytes b blk)).getD k 0 ^^^ (permQ E blk).getD k 0 := by
  have hx : (xorBytes b blk).length = E.nb := by simp [hb, hblk]
  have hP : b.length = (permP E (xorBytes b blk)).length := hb.trans (permP_length E hx).symm
  have hQ : (xorBytes b (permP E (xorBytes b blk))).length = (permQ E blk).length := by
    simp [← hP, hb, permQ_length E hblk]
  rw [compress, xorBytes_getD hQ, xorBytes_getD hP]

/-- The model's compression of the hash state with the NB-byte block b is the compression of the statements. -/
theorem compresses_of_compress {s : State} (hc : State.HasContext s) {b : List Byte} (hb : b.length = State.nb s)
    {blk v : Nat → Byte} (hblk : ∀ k, k < State.nb s → blk k = b.getD k 0)
    (hv : ∀ k, k < State.nb s → v k = (compress (State.engine s) (State.hashBytes s) b).getD k 0) :
    Compresses s blk v := by
  have hlen := hashBytes_length hc.2
  have hx : (xorBytes (State.hashBytes s) b).length = State.nb s := by simp [hlen, hb]
  have hstate : ∀ k, k < State.nb s → (State.hashBytes s).getD k 0 = State.stateByte s k := fun k hk =>
    (hashBytes_getD s k).trans (if_pos hk)
  obtain ⟨x, hexecP, hP⟩ := computes_permP.exec_withBytes hc hx
    (g := fun k => State.stateByte s k ^^^ blk k)
    fun k hk => by rw [xorBytes_getD (hlen.trans hb.symm), hstate k hk, hblk k hk]
  obtain ⟨y, hexecQ, hQ⟩ := computes_permQ.exec_withBytes hc hb hblk
  refine ⟨x, y, hexecP, hexecQ, fun k hk => ?_⟩
  rw [hv k hk, compress_getD hlen hb, hstate k hk, hP k hk, hQ k hk]

/-! ## A command that writes NB bytes of STATE -/

section
variable {s : State} {v : List Byte} (hc : State.HasContext s) (hv : v.length = State.nb s)
include hc hv

theorem putHashState_stateByte (k : Nat) :
    State.stateByte (State.putHashState v s) k = if k < State.nb s then v.getD k 0 else State.stateByte s k := by
  rw [← hv]
  exact overwrite_getD _ v k (hv.trans_le (nb_le_128 hc))

theorem putHashState_stateByte_below {k : Nat} (hk : k < State.nb s) :
    State.stateByte (State.putHashState v s) k = v.getD k 0 := by
  rw [putHashState_stateByte hc hv, if_pos hk]

theorem putHashState_stateByte_above {k : Nat} (hk : State.nb s ≤ k) :
    State.stateByte (State.putHashState v s) k = State.stateByte s k := by
  rw [putHashState_stateByte hc hv, if_neg (Nat.not_lt.2 hk)]

end

/-! ## COMPRESS_BLK (R193) -/

theorem checkRange_range_iff {s : State} {a n : Nat} :
    checkRange s a n = some .range ↔ ¬State.RegionInside s a n := by
  rw [checkRange, require_some_iff, ← inRange_iff, Bool.not_eq_true]
  exact and_iff_left rfl

/-- The block of DMEM at BLK_ADDR. -/
def dmemBlock (s : State) : List Byte := memRead s.dmem s.blkAddr.toNat (State.nb s)

theorem dmemBlock_length (s : State) : (dmemBlock s).length = State.nb s := memRead_length ..

theorem dmemBlock_getD {s : State} {k : Nat} (hk : k < State.nb s) :
    (dmemBlock s).getD k 0 = State.dmemByte s (s.blkAddr.toNat + k) :=
  (memRead_getD ..).trans (if_pos hk)

/-- With a context, the only check left is that of the block's region. -/
theorem checkOf_compressBlk {s : State} (hc : State.HasContext s) :
    checkOf .compressBlk s = checkRange s s.blkAddr.toNat (State.nb s) := by
  rw [checkOf, checkContext_none_iff.2 hc.1, Option.none_or]

theorem exec_compressBlk {s : State} (hc : State.HasContext s)
    (hin : State.RegionInside s s.blkAddr.toNat (State.nb s)) :
    exec .compressBlk s =
      .next (commit (State.putHashState (compress (State.engine s) (State.hashBytes s) (dmemBlock s)) s)) :=
  exec_of_check_none ((checkOf_compressBlk hc).trans (checkRange_none_iff.2 hin))

theorem exec_compressBlk_range {s : State} (hc : State.HasContext s)
    (hout : State.dmemBytes s < s.blkAddr.toNat + State.nb s) :
    exec .compressBlk s = .next (raiseError .range s) := by
  have hnb := twelve_lt_nb hc
  have houtside : ¬State.RegionInside s s.blkAddr.toNat (State.nb s) := by
    unfold State.RegionInside
    omega
  exact exec_of_check_some ((checkOf_compressBlk hc).trans (checkRange_range_iff.2 houtside))

/-- Settles O39: the block's compression below NB, the frame above, and the two errors. -/
theorem compressBlkFoldsBlock : Obligations.CompressBlkFoldsBlock := by
  unfold Obligations.CompressBlkFoldsBlock
  refine ⟨fun s hc hin => ?_, fun s hc hout => exec_compressBlk_range hc hout,
    fun s hv => exec_of_check_some (checkOf_of_not_valid nofun nofun hv)⟩
  have hblk := dmemBlock_length s
  have hlen := compress_length (State.engine s) (hashBytes_length hc.2) hblk
  exact ⟨_, exec_compressBlk hc (.inr hin), rfl,
    compresses_of_compress hc hblk (fun _ hk => (dmemBlock_getD hk).symm)
      fun _ hk => putHashState_stateByte_below hc hlen hk,
    fun _ hk => putHashState_stateByte_above hc hlen hk⟩

/-! ## COMPRESS_PAD (R194) -/

/-- One more block is one more compression at the end. -/
theorem compressBytes_succ (E : Engine) (p : List Byte) (n : Nat) (b : List Byte) :
    compressBytes E p (n + 1) b = compress E (compressBytes E p n b) (slice p (n * E.nb) E.nb) := by
  simp [compressBytes, List.range_succ]

/-- Block j of PADBUF. -/
def padBlock (s : State) (j : Nat) : List Byte := slice s.padbuf.toList (j * State.nb s) (State.nb s)

theorem padBlock_getD {s : State} {j k : Nat} (hk : k < State.nb s) :
    (padBlock s j).getD k 0 = State.padByte s (j * State.nb s + k) :=
  (slice_getD ..).trans (if_pos hk)

/-- PADBUF holds two blocks in both modes (R33). -/
theorem padBlock_length {s : State} (hc : State.HasContext s) {j : Nat} (hj : j < 2) :
    (padBlock s j).length = State.nb s := by
  have hnb := nb_le_128 hc
  have hfit : j * State.nb s + State.nb s ≤ 256 := by
    interval_cases j <;> omega
  simp only [padBlock, slice, List.length_take, List.length_drop, Vector.length_toList]
  omega

/-- The hash state after the first n blocks of PADBUF. -/
def paddingFolded (s : State) (n : Nat) : List Byte :=
  compressBytes (State.engine s) s.padbuf.toList n (State.hashBytes s)

theorem paddingFolded_succ (s : State) (n : Nat) :
    paddingFolded s (n + 1) = compress (State.engine s) (paddingFolded s n) (padBlock s n) :=
  compressBytes_succ ..

theorem paddingFolded_length {s : State} (hc : State.HasContext s) {n : Nat} (hn : n ≤ 2) :
    (paddingFolded s n).length = State.nb s := by
  induction n with
  | zero => exact hashBytes_length hc.2
  | succ n ih =>
    rw [paddingFolded_succ]
    exact compress_length _ (ih (by omega)) (padBlock_length hc hn)

/-- Block n of PADBUF takes the hash state after n blocks to that after n + 1. -/
theorem compresses_padBlock {s : State} (hc : State.HasContext s) {n : Nat} (hn : n < 2) {f blk v : Nat → Byte}
    (hf : ∀ k, k < State.nb s → f k = (paddingFolded s n).getD k 0)
    (hblk : ∀ k, k < State.nb s → blk k = State.padByte s (n * State.nb s + k))
    (hv : ∀ k, k < State.nb s → v k = (paddingFolded s (n + 1)).getD k 0) :
    Compresses (State.withBytes s f) blk v := by
  refine compresses_of_compress (s := State.withBytes s f) hc (padBlock_length hc hn)
    (fun k hk => (hblk k hk).trans (padBlock_getD hk).symm) fun k hk => ?_
  rw [hv k hk, paddingFolded_succ, hashBytes_withBytes_of_string hc (paddingFolded_length hc (by omega)) hf]
  rfl

theorem withBytes_stateByte (s : State) : State.withBytes s (State.stateByte s) = s :=
  congrArg (fun w => { s with hashState := w }) (fillBytes_self s.hashState)

/-- The first block of PADBUF. -/
theorem compresses_first_padBlock {s : State} (hc : State.HasContext s) {v : Nat → Byte}
    (hv : ∀ k, k < State.nb s → v k = (paddingFolded s 1).getD k 0) : Compresses s (State.padByte s) v := by
  have h := compresses_padBlock hc (n := 0) (by omega) (f := State.stateByte s) (blk := State.padByte s)
    (fun k hk => ((hashBytes_getD s k).trans (if_pos hk)).symm)
    (fun k _ => by rw [Nat.zero_mul, Nat.zero_add]) hv
  rwa [withBytes_stateByte] at h

theorem exec_compressPad {s : State} (hc : State.HasContext s) {n : Nat} (hn : s.padNbytes.toNat = n * State.nb s) :
    exec .compressPad s = .next (commit (State.putHashState (paddingFolded s n) s)) := by
  have hblocks : s.padNbytes.toNat / State.nb s = n := by
    rw [hn, Nat.mul_div_cancel _ (by have := twelve_lt_nb hc; omega)]
  rw [← hblocks]
  exact exec_of_check_none (checkContext_none_iff.2 hc.1)

/-- Settles O40: PAD_NBYTES gives the number of blocks, and the fold compresses them one by one. -/
theorem compressPadFoldsPadding : Obligations.CompressPadFoldsPadding := by
  unfold Obligations.CompressPadFoldsPadding
  refine ⟨fun s hc hpad => ?_, fun s hv => exec_of_check_some (checkOf_of_not_valid nofun nofun hv)⟩
  have hnb := twelve_lt_nb hc
  obtain ⟨n, hn2, hn⟩ : ∃ n, n ≤ 2 ∧ s.padNbytes.toNat = n * State.nb s := by
    simp only [List.mem_cons, List.not_mem_nil, or_false] at hpad
    rcases hpad with h | h | h
    · exact ⟨0, by omega, by omega⟩
    · exact ⟨1, by omega, by omega⟩
    · exact ⟨2, by omega, h⟩
  have hlen := paddingFolded_length hc hn2
  have hcount : ∀ m, s.padNbytes.toNat = m * State.nb s → n = m := fun m hm =>
    Nat.eq_of_mul_eq_mul_right (by omega) (hn.symm.trans hm)
  refine ⟨_, exec_compressPad hc hn, rfl, fun h0 => ?_, fun h1 => ?_, fun h2 => ?_,
    fun k hk => putHashState_stateByte_above hc hlen hk⟩
  · obtain rfl := hcount 0 (by omega)
    exact overwrite_hashBytes hc
  · obtain rfl := hcount 1 (by omega)
    exact compresses_first_padBlock hc fun k hk => putHashState_stateByte_below hc hlen hk
  · obtain rfl := hcount 2 h2
    exact ⟨fun k => (paddingFolded s 1).getD k 0, compresses_first_padBlock hc fun _ _ => rfl,
      compresses_padBlock hc (n := 1) (by omega) (fun _ _ => rfl) (fun _ _ => by rw [Nat.one_mul])
        fun k hk => putHashState_stateByte_below hc hlen hk⟩

end Sys2Proof.Machine
end

section
/-! PROOFS. The statements of spec/44_output.md: the output transformation (R210) and the truncation (R211). -/

namespace Sys2Proof.Machine

open Sys2Proof

/-! ## OUTXF (R210) -/

theorem computes_outxf : Computes .outxf outputTransform :=
  ⟨fun _ => rfl, fun E _ hb => outputTransform_length E hb⟩

theorem outputTransform_getD {E : Engine} {b : List Byte} (hb : b.length = E.nb) (k : Nat) :
    (outputTransform E b).getD k 0 = b.getD k 0 ^^^ (permP E b).getD k 0 :=
  xorBytes_getD (hb.trans (permP_length E hb).symm) k

/-- Below NB, OUTXF leaves what STATE held ⊕ what PERM_P would leave. -/
theorem transformed_outputTransform_stateByte {s : State} (hc : State.HasContext s) {k : Nat}
    (hk : k < State.nb s) :
    State.stateByte (transformed outputTransform s) k =
      State.stateByte s k ^^^ State.stateByte (transformed permP s) k := by
  rw [transformed_stateByte hc computes_outxf.keepsLength, transformed_stateByte hc computes_permP.keepsLength,
    if_pos hk, if_pos hk, outputTransform_getD (hashBytes_length hc.2), hashBytes_getD, if_pos hk]

/-- Settles O41: OUTXF and PERM_P are commands of the engine on the same hash state. -/
theorem outxfXorsWithPermutation : Obligations.OutxfXorsWithPermutation := by
  unfold Obligations.OutxfXorsWithPermutation
  refine ⟨fun s hc => ?_, fun s hv => exec_of_check_some (checkOf_of_not_valid nofun nofun hv)⟩
  exact ⟨_, _, computes_outxf.exec_of_context hc, computes_permP.exec_of_context hc, transformed_eq _ s,
    fun _ hk => transformed_outputTransform_stateByte hc hk,
    fun _ hk => transformed_stateByte_above hc computes_outxf.keepsLength hk⟩

/-! ## The output length of a context (R27, R28) -/

theorem outBits_le_512 {s : State} (hc : State.HasContext s) : State.outBits s ≤ 512 := by
  obtain ⟨hv, hlegal⟩ := hc
  simp only [Cfg.legal, outLengthValid, Bool.or_eq_true, Bool.and_eq_true, decide_eq_true_eq] at hlegal
  rcases hlegal with hz | ⟨⟨_, hle⟩, _⟩
  · simp [hz, Cfg.zero] at hv
  · exact hle

theorem nb_eq_of_outBits {s : State} (hc : State.HasContext s) :
    State.nb s = if 256 < State.outBits s then 128 else 64 := by
  have hnb : State.nb s = (Cfg.ofLength (State.outBits s)).nb.toNat :=
    congrArg (fun c => c.nb.toNat) (cfg_of_context hc)
  simp only [hnb, Cfg.ofLength, isLarge, decide_eq_true_eq]
  split <;> rfl

/-- The hash code is at most half of the hash state, in both modes. -/
theorem two_mul_outBytes_le_nb {s : State} (hc : State.HasContext s) : 2 * State.outBytes s ≤ State.nb s := by
  have hle := outBits_le_512 hc
  rw [nb_eq_of_outBits hc, State.outBytes]
  split <;> omega

/-! ## TRUNC (R211) -/

theorem truncate_getD (nb h : Nat) (b : List Byte) (k : Nat) :
    (truncate nb h b).getD k 0 = if k < h then b.getD (nb - h + k) 0 else 0 :=
  slice_getD ..

theorem putDigest_digestByte (v : List Byte) (s : State) (k : Nat) :
    State.digestByte (State.putDigest v s) k = if k < 64 then v.getD k 0 else 0 :=
  zeroFill_getD 64 v k

/-- The hash code of a context: the trailing h = OUT_BITS/8 bytes of the hash state. -/
def hashCode (s : State) : List Byte := truncate (State.nb s) (State.outBytes s) (State.hashBytes s)

theorem exec_trunc {s : State} (hc : State.HasContext s) :
    exec .trunc s = .next (commit (State.putDigest (hashCode s) s)) :=
  exec_of_check_none (checkContext_none_iff.2 hc.1)

theorem hashCode_getD {s : State} (hc : State.HasContext s) {k : Nat} (hk : k < State.outBytes s) :
    (hashCode s).getD k 0 = State.stateByte s (State.nb s - State.outBytes s + k) := by
  have hhalf := two_mul_outBytes_le_nb hc
  rw [hashCode, truncate_getD, if_pos hk, hashBytes_getD, if_pos (by omega)]

theorem hashCode_getD_beyond (s : State) {k : Nat} (hk : State.outBytes s ≤ k) : (hashCode s).getD k 0 = 0 := by
  rw [hashCode, truncate_getD, if_neg (Nat.not_lt.2 hk)]

/-- Settles O42: DIGEST is the hash code over zeros, and DIGEST's 64 bytes hold every hash code. -/
theorem truncCopiesTrailingBytes : Obligations.TruncCopiesTrailingBytes := by
  unfold Obligations.TruncCopiesTrailingBytes
  refine ⟨fun s h hc hh => ?_, fun s hv => exec_of_check_some (checkOf_of_not_valid nofun nofun hv)⟩
  obtain rfl : h = State.outBytes s := hh
  have hhalf := two_mul_outBytes_le_nb hc
  have hnb := nb_le_128 hc
  refine ⟨_, exec_trunc hc, rfl, hhalf, fun k hk => ?_, fun k hk => ?_⟩
  · calc State.digestByte (State.putDigest (hashCode s) s) k
      _ = (hashCode s).getD k 0 := by rw [putDigest_digestByte, if_pos (by omega)]
      _ = State.stateByte s (State.nb s - State.outBytes s + k) := hashCode_getD hc hk
  · exact (putDigest_digestByte _ s k).trans (by rw [hashCode_getD_beyond s hk, ite_self])

end Sys2Proof.Machine
end

section
/-! PROOFS. The statements of spec/45_kmac.md: the order of the checks of MAC and KMAC_BUILD (R220, R225), and the
synthetic buffer KMAC_BUILD writes (R221 to R224, R226). -/

namespace Sys2Proof.Machine

open Sys2Proof

/-! ## The order of the checks (R220, R225) -/

/-- A check with others after it is an if: its own error where the check is bad, and theirs where it is not. -/
theorem require_or {ok : Bool} {bad : Prop} [Decidable bad] (h : bad ↔ ok = false) (c : ErrCode)
    (rest : Option ErrCode) : (require ok c).or rest = if bad then some c else rest := by
  cases ok <;> simp [h]

theorem checkRange_or (s : State) (a n : Nat) (rest : Option ErrCode) :
    (checkRange s a n).or rest = if ¬State.RegionInside s a n then some .range else rest :=
  require_or (by rw [← inRange_iff, Bool.not_eq_true]) .range rest

theorem require_apart_or (a1 n1 a2 n2 : Nat) (rest : Option ErrCode) :
    (require (!overlap a1 n1 a2 n2) .overlap).or rest =
      if ¬RegionsApart a1 n1 a2 n2 then some .overlap else rest :=
  require_or (by rw [← overlap_false_iff, Bool.not_eq_false, Bool.not_eq_false']) .overlap rest

theorem macLength_iff {n : Nat} : macLength n = true ↔ n ∈ [256, 384, 512] := by
  simp [macLength, or_assoc]

theorem require_macLength_or (n : Nat) (c : ErrCode) (rest : Option ErrCode) :
    (require (macLength n) c).or rest = if n ∉ [256, 384, 512] then some c else rest :=
  require_or (by rw [← macLength_iff, Bool.not_eq_true]) c rest

/-- R220 with KMAC_KEY_EQ_OUT false, as an if-chain. -/
theorem kmacCheck_or (s : State) (rest : Option ErrCode) :
    (kmacCheck s).or rest =
      if s.cfg.valid = false then some .notInit
      else if State.outBits s ∉ [256, 384, 512] then some .macOutbits
      else if s.keyBits.toNat ∉ [256, 384, 512] then some .macKeybits
      else rest := by
  have hkey : require (!Config.kmacKeyEqOut || decide (s.keyBits.toNat = State.outBits s)) .macKeybits = none := rfl
  rw [kmacCheck, hkey, Option.or_assoc, Option.or_assoc, Option.or_assoc, Option.none_or, checkContext,
    require_or Iff.rfl, require_macLength_or, require_macLength_or]

/-- The checks of MAC and KMAC_BUILD are the first error in the order of R266. -/
theorem kmacChecks_eq_firstMacError (s : State) : (kmacCheck s).or (kmacRegions s) = firstMacError s := by
  rw [kmacCheck_or, kmacRegions, checkRange_or, checkMessage, checkRange_or, checkRange_or, require_apart_or,
    ← Option.or_none (o := require _ _), require_apart_or]
  rfl

/-- Settles O14: both commands have the checks of `firstMacError`, and neither's result touches ERR or ERRCODE. -/
theorem macErrorsInOrder : Obligations.MacErrorsInOrder := by
  unfold Obligations.MacErrorsInOrder
  intro s
  have hmac : checkOf .mac s = firstMacError s := kmacChecks_eq_firstMacError s
  have hbuild : checkOf .kmacBuild s = firstMacError s := kmacChecks_eq_firstMacError s
  refine ⟨fun c hc => ⟨exec_of_check_some (hmac.trans hc), exec_of_check_some (hbuild.trans hc)⟩, fun hn => ?_⟩
  refine ⟨_, _, exec_of_check_none (hmac.trans hn), exec_of_check_none (hbuild.trans hn), ?_⟩
  simp

/-! ## The paddings of the synthetic buffer (R221, R222) -/

/-- The state in which the key is the message. -/
def keyAsMessage (s : State) : State := { s with msgAddr := s.keyAddr, msgBitsLo := s.keyBits, msgBitsHi := 0 }

/-- KEY_BITS as a bit length is the pair of registers with 0 in the high one. -/
theorem keyAsMessage_msgBits (s : State) : State.msgBits (keyAsMessage s) = State.keyLen s := by
  apply BitVec.eq_of_toNat_eq
  rw [keyLen_toNat, State.msgBits, append_toNat]
  simp [keyAsMessage]

/-- PAD of the key leaves the key's padding in PADBUF. -/
theorem padded_keyAsMessage_padByte {s : State} (hc : State.HasContext s) (k : Nat) :
    State.padByte (padded (keyAsMessage s)) k = (keyPadding s).bytes.getD k 0 := by
  rw [padded_padByte (s := keyAsMessage s) hc, keyAsMessage_msgBits]
  rfl

theorem wholeBytes_keyLen (s : State) : wholeBytes (State.keyLen s) = State.keyBytes s := by
  rw [wholeBytes, keyLen_toNat, State.keyBytes]

/-! ## What the checks give (R220, R225) -/

section
variable {s : State} (h : State.MacReady s)
include h

theorem keyBytes_cases : State.keyBytes s = 32 ∨ State.keyBytes s = 48 ∨ State.keyBytes s = 64 := by
  obtain ⟨-, -, hkey, -⟩ := h
  simp only [State.keyBytes, List.mem_cons, List.not_mem_nil, or_false] at hkey ⊢
  omega

/-- The key has whole bytes. -/
theorem keyBits_eq : s.keyBits.toNat = 8 * State.keyBytes s := by
  obtain ⟨-, -, hkey, -⟩ := h
  simp only [State.keyBytes, List.mem_cons, List.not_mem_nil, or_false] at hkey ⊢
  omega

/-- A key is a whole block, or leaves 13 bytes of one free. -/
theorem keyBytes_fit : State.keyBytes s = State.nb s ∨ State.keyBytes s + 13 ≤ State.nb s := by
  have hkb := keyBytes_cases h
  have hnb := nb_of_context h.1
  omega

theorem remLen_keyLen :
    remLen (State.nb s) (State.keyLen s) = if State.keyBytes s = State.nb s then 0 else State.keyBytes s := by
  have hfit := keyBytes_fit h
  rw [remLen, wholeBytes_keyLen]
  split
  case isTrue heq => rw [heq, Nat.mod_self]
  case isFalse hne => exact Nat.mod_eq_of_lt (by omega)

/-- R221: the key has full blocks before its padding only where it is a whole block. -/
theorem prefixLen_keyLen :
    prefixLen (State.nb s) (State.keyLen s) = if State.keyBytes s = State.nb s then State.nb s else 0 := by
  rw [prefixLen, wholeBytes_keyLen, remLen_keyLen h]
  split <;> omega

/-- The key's padding is always one block. -/
theorem padLen_keyLen : padLen (State.nb s) (State.keyLen s) = State.nb s := by
  have hfit := keyBytes_fit h
  have hnb := twelve_lt_nb h.1
  rw [padLen_eq hnb, remLen_keyLen h, if_pos]
  split <;> omega

/-- R224: the length of the buffer, from the lengths alone. -/
theorem synLen_eq :
    State.synLen s = prefixLen (State.nb s) (State.keyLen s) + State.nb s
      + prefixLen (State.nb s) (State.msgBits s) + padLen (State.nb s) (State.msgBits s) + State.keyBytes s := by
  rw [State.synLen, padLen_keyLen h]

/-- R224: the buffer and the key are disjoint inside at most 2^32 bytes. -/
theorem synLen_lt : State.synLen s < 2 ^ 32 := by
  have hkb := keyBytes_cases h
  obtain ⟨-, -, -, hkeyIn, -, hsynIn, hapart, -⟩ := h
  have htop : State.dmemBytes s ≤ 2 ^ 32 := s.params.dmemTop.isLt
  rw [State.keyBytes] at hkb
  unfold State.RegionInside at hkeyIn hsynIn
  unfold RegionsApart at hapart
  omega

theorem exec_pad_keyAsMessage : exec .pad (keyAsMessage s) = .next (padded (keyAsMessage s)) := by
  have hbits := keyBits_eq h
  obtain ⟨hc, -, -, hkeyIn, -⟩ := h
  have hlen : ((State.msgBits (keyAsMessage s)).toNat + 7) / 8 = s.keyBits.toNat / 8 := by
    rw [keyAsMessage_msgBits, keyLen_toNat]
    omega
  exact exec_pad (s := keyAsMessage s) hc (by rw [State.MessageInside, hlen]; exact hkeyIn)

end

/-! ## DMEM after KMAC_BUILD (R223, R226) -/

/-- The state KMAC_BUILD leaves when its checks pass. -/
def built (s : State) : State := commit (State.putPadding (messagePadding s) (State.putSynthetic (synBuffer s) s))

theorem exec_kmacBuild {s : State} (h : State.MacReady s) : exec .kmacBuild s = .next (built s) :=
  exec_of_check_none (macChecks_pass h)

theorem built_dmemByte_other {s : State} {a : Nat}
    (ha : a < s.synAddr.toNat ∨ s.synAddr.toNat + State.synLen s ≤ a) :
    State.dmemByte (built s) a = State.dmemByte s a :=
  memWrite_other _ _ _ (by rwa [synBuffer_length])

/-- DMEM holds the part b that follows a in the buffer, from the address where it begins on. -/
theorem built_dmemByte_part {s : State} {a b : List Byte} (hpart : a ++ b <+: synBuffer s) {n k : Nat}
    (hn : n = s.synAddr.toNat + a.length) (hk : k < b.length) :
    State.dmemByte (built s) (n + k) = b.getD k 0 := by
  obtain ⟨c, hc⟩ := hpart
  have hab : a.length + k < (a ++ b).length := by rw [List.length_append]; omega
  have habc : a.length + k < (synBuffer s).length := by rw [← hc, List.length_append]; omega
  calc State.dmemByte (built s) (n + k)
    _ = State.dmemByte (built s) (s.synAddr.toNat + (a.length + k)) := by rw [hn, Nat.add_assoc]
    _ = (synBuffer s).getD (a.length + k) 0 := memWrite_byte _ _ _ habc
    _ = (a ++ b).getD (a.length + k) 0 := by rw [← hc, List.getD_append _ _ _ _ hab]
    _ = b.getD k 0 := by rw [List.getD_append_right _ _ _ _ (Nat.le_add_right _ _), Nat.add_sub_cancel_left]

/-- Where the part is a copy of DMEM from `src` on. -/
theorem built_dmemByte_copy {s : State} {a : List Byte} {src len : Nat}
    (hpart : a ++ memRead s.dmem src len <+: synBuffer s) {n k : Nat} (hn : n = s.synAddr.toNat + a.length)
    (hk : k < len) : State.dmemByte (built s) (n + k) = State.dmemByte s (src + k) := by
  rw [built_dmemByte_part hpart hn (by rwa [memRead_length]), memRead_getD, if_pos hk]
  rfl

/-! ## The five parts (R223) -/

/-- The buffer's parts before the message's: the padded key. -/
def paddedKey (s : State) : List Byte :=
  memRead s.dmem s.keyAddr.toNat (keyPadding s).dataN ++ (keyPadding s).bytes

/-- The buffer's parts before the message's padding. -/
def paddedKeyAndPrefix (s : State) : List Byte :=
  paddedKey s ++ memRead s.dmem s.msgAddr.toNat (messagePadding s).dataN

/-- The buffer's parts before the complemented key: the padded key and the padded message. -/
def paddedKeyAndMessage (s : State) : List Byte := paddedKeyAndPrefix s ++ (messagePadding s).bytes

/-- The complemented key is the last part: nothing follows it. -/
theorem complementedKey_prefix (s : State) :
    paddedKeyAndMessage s ++ complement (memRead s.dmem s.keyAddr.toNat (State.keyBytes s)) <+: synBuffer s :=
  List.prefix_rfl

theorem paddedKeyAndMessage_prefix (s : State) : paddedKeyAndMessage s <+: synBuffer s := List.prefix_append ..

theorem paddedKeyAndPrefix_prefix (s : State) : paddedKeyAndPrefix s <+: synBuffer s :=
  (List.prefix_append ..).trans (paddedKeyAndMessage_prefix s)

theorem paddedKey_prefix (s : State) : paddedKey s <+: synBuffer s :=
  (List.prefix_append ..).trans (paddedKeyAndPrefix_prefix s)

/-- The key again, every byte complemented. -/
theorem built_dmemByte_complementedKey {s : State} {n k : Nat}
    (hn : n = s.synAddr.toNat + (paddedKeyAndMessage s).length) (hk : k < State.keyBytes s) :
    State.dmemByte (built s) (n + k) = State.dmemByte s (s.keyAddr.toNat + k) ^^^ 0xFF := by
  rw [built_dmemByte_part (complementedKey_prefix s) hn (by simpa), complement_getD (by simpa),
    memRead_getD, if_pos hk]
  rfl

section
variable {s : State} (h : State.MacReady s)
include h

theorem paddedKey_length :
    (paddedKey s).length = prefixLen (State.nb s) (State.keyLen s) + State.nb s := by
  simp [paddedKey, keyPadding, padLen_keyLen h]

theorem paddedKeyAndPrefix_length :
    (paddedKeyAndPrefix s).length =
      prefixLen (State.nb s) (State.keyLen s) + State.nb s + prefixLen (State.nb s) (State.msgBits s) := by
  simp [paddedKeyAndPrefix, paddedKey_length h, messagePadding]

theorem paddedKeyAndMessage_length :
    (paddedKeyAndMessage s).length =
      prefixLen (State.nb s) (State.keyLen s) + State.nb s + prefixLen (State.nb s) (State.msgBits s)
        + padLen (State.nb s) (State.msgBits s) := by
  simp [paddedKeyAndMessage, paddedKeyAndPrefix_length h, messagePadding]

end

/-- Settles O44: the buffer's parts stand in DMEM one after another, each from the sum of the lengths before it on. -/
theorem kmacBuildWritesSyntheticBuffer : Obligations.KmacBuildWritesSyntheticBuffer := by
  unfold Obligations.KmacBuildWritesSyntheticBuffer
  rintro s kb kd nb md mp base hr hkb rfl hkd rfl
  obtain ⟨hc, -, -, -, hmsgIn, -⟩ := id hr
  obtain rfl : kb = State.keyBytes s := hkb
  obtain rfl : kd = prefixLen (State.nb s) (State.keyLen s) := hkd.trans (prefixLen_keyLen hr).symm
  refine ⟨built s, padded (keyAsMessage s), padded s, exec_kmacBuild hr, exec_pad_keyAsMessage hr,
    exec_pad hc hmsgIn, fun hmd hmp => ?_, rfl⟩
  obtain rfl := hmd.trans (padded_dataNbytes_toNat s)
  obtain rfl := hmp.trans (padded_padNbytes_toNat hc)
  rw [← synLen_eq hr]
  refine ⟨fun k hk => ?_, fun k hk => ?_, fun k hk => ?_, fun k hk => ?_, fun k hk => ?_, fun a ha => ?_, ?_⟩
  · exact built_dmemByte_copy (a := []) ((List.prefix_append ..).trans (paddedKey_prefix s)) rfl hk
  · rw [padded_keyAsMessage_padByte hc]
    exact built_dmemByte_part (paddedKey_prefix s) (by simp [keyPadding]) (by simpa [keyPadding, padLen_keyLen hr])
  · exact built_dmemByte_copy (paddedKeyAndPrefix_prefix s) (by rw [paddedKey_length hr]; omega) hk
  · rw [padded_padByte hc]
    exact built_dmemByte_part (paddedKeyAndMessage_prefix s) (by rw [paddedKeyAndPrefix_length hr]; omega)
      (by simpa [messagePadding])
  · exact built_dmemByte_complementedKey (by rw [paddedKeyAndMessage_length hr]; omega) hk
  · exact built_dmemByte_other ha
  · exact (BitVec.toNat_ofNat ..).trans (Nat.mod_eq_of_lt (synLen_lt hr))

end Sys2Proof.Machine
end

section
/-! PROOFS. The statements of spec/46_top_level.md: what a command leaves of the arguments and of DMEM (R245), INIT
(R240), and MAC as KMAC_BUILD and then HASH of the synthetic buffer (R243, R244). -/

namespace Sys2Proof.Machine

open Sys2Proof

/-! ## Arguments and DMEM (R245) -/

/-- Every byte a command writes of DMEM is one of the synthetic buffer. -/
theorem resultOf_dmem_byte_other (i : Instr) {s : State} {a : Nat}
    (ha : a < s.synAddr.toNat ∨ s.synAddr.toNat + State.synLen s ≤ a) :
    Memory.byte (resultOf i s).dmem a = Memory.byte s.dmem a := by
  by_cases hi : i = .mac ∨ i = .kmacBuild
  · rw [resultOf_dmem_synthetic hi]
    exact memWrite_other _ _ _ (by rwa [synBuffer_length])
  · rw [resultOf_dmem (fun h => hi (.inl h)) fun h => hi (.inr h)]

/-- Settles O22: a result keeps the arguments, and DMEM outside the synthetic buffer; an error changes STATUS alone. -/
theorem commandsKeepArguments : Obligations.CommandsKeepArguments := by
  unfold Obligations.CommandsKeepArguments
  intro i s t h
  rcases exec_cases h with ⟨_, rfl⟩ | ⟨c, _, rfl⟩
  · exact ⟨resultOf_ie i s, resultOf_argOutbits i s, resultOf_msgAddr i s, resultOf_msgBitsLo i s,
      resultOf_msgBitsHi i s, resultOf_keyAddr i s, resultOf_keyBits i s, resultOf_synAddr i s,
      resultOf_blkAddr i s, resultOf_gfOps i s, fun hm hb => resultOf_dmem hm hb s,
      fun a ha => resultOf_dmem_byte_other i ha⟩
  · exact ⟨rfl, rfl, rfl, rfl, rfl, rfl, rfl, rfl, rfl, rfl, fun _ _ => rfl, fun _ _ => rfl⟩

/-! ## INIT (R240) -/

theorem outLengthValid_iff {n : Nat} : outLengthValid n = true ↔ n % 8 = 0 ∧ 8 ≤ n ∧ n ≤ 512 := by
  simp [outLengthValid, and_assoc]

/-- CFG's word as a number: the fields at their places (R28). -/
theorem cfgWord_toNat (c : Cfg) :
    (Cfg.word c).toNat =
      c.nb.toNat * 2 ^ 24 + c.rounds.toNat * 2 ^ 20 + c.large.toNat * 2 ^ 17 + c.valid.toNat * 2 ^ 16
        + c.outBits.toNat := by
  have h : Cfg.word c = (c.nb ++ c.rounds ++ 0#2 ++ bit c.large ++ bit c.valid ++ 0#6 ++ c.outBits :
      BitVec (8 + 4 + 2 + 1 + 1 + 6 + 10)) := rfl
  rw [h]
  simp only [append_toNat, bit, BitVec.toNat_ofBool, BitVec.toNat_ofNat]
  omega

section
variable {n : Nat}

theorem ofLength_outBits_toNat (hn : n ≤ 512) : (Cfg.ofLength n).outBits.toNat = n :=
  (BitVec.toNat_ofNat ..).trans (Nat.mod_eq_of_lt (by omega))

theorem ofLength_large_iff : (Cfg.ofLength n).large = true ↔ 256 < n := decide_eq_true_iff

theorem isLarge_eq : isLarge n = !decide (n ≤ 256) := by
  rw [isLarge, ← decide_not, decide_eq_decide, Nat.not_le]

theorem ofLength_rounds_toNat : (Cfg.ofLength n).rounds.toNat = if n ≤ 256 then 10 else 14 := by
  rw [Cfg.ofLength, isLarge_eq]
  by_cases h : n ≤ 256 <;> simp [h]

theorem ofLength_nb_toNat : (Cfg.ofLength n).nb.toNat = if n ≤ 256 then 64 else 128 := by
  rw [Cfg.ofLength, isLarge_eq]
  by_cases h : n ≤ 256 <;> simp [h]

theorem ofLength_word_toNat (hn : n ≤ 512) :
    (Cfg.word (Cfg.ofLength n)).toNat = (if n ≤ 256 then 0x40A10000 else 0x80E30000) + n := by
  have hlarge : (Cfg.ofLength n).large = !decide (n ≤ 256) := isLarge_eq
  have hvalid : (Cfg.ofLength n).valid = true := rfl
  rw [cfgWord_toNat, ofLength_nb_toNat, ofLength_rounds_toNat, ofLength_outBits_toNat hn, hlarge, hvalid]
  by_cases h : n ≤ 256 <;> simp [h]

end

/-- The state INIT leaves when ARG_OUTBITS is a valid length. -/
def initialised (s : State) : State := commit (State.initContext s.argOutbits.toNat s)

theorem exec_init {s : State} (h : outLengthValid s.argOutbits.toNat = true) :
    exec .init s = .next (initialised s) :=
  exec_of_check_none (require_none_iff.2 h)

/-- STATE after INIT is the initial value over zeros. -/
theorem initialised_stateByte (s : State) (k : Nat) :
    State.stateByte (initialised s) k =
      if k < 128 then (initialValue (initialised s).cfg.nb.toNat).getD k 0 else 0 :=
  zeroFill_getD 128 _ k

theorem initialised_padByte (s : State) (k : Nat) : State.padByte (initialised s) k = 0 :=
  putPadding_padByte { dataN := 0, bytes := [] } s k (Nat.zero_le _)

/-- Settles O45: CFG is that of the length, STATE its initial value; the check is R27's condition. -/
theorem initLoadsContextOrRejects : Obligations.InitLoadsContextOrRejects := by
  unfold Obligations.InitLoadsContextOrRejects
  refine ⟨?_, fun s hbad => ?_⟩
  · rintro s n rfl h8 hlo hhi
    refine ⟨initialised s, exec_init (outLengthValid_iff.2 ⟨h8, hlo, hhi⟩), rfl, ofLength_word_toNat hhi, rfl,
      ofLength_outBits_toNat hhi, ofLength_large_iff, ofLength_rounds_toNat, ofLength_nb_toNat, ?_, fun k hk => ?_,
      initialised_padByte s⟩
    · rw [initialised_stateByte, if_pos (by decide), initialValue_getD_zero, BitVec.ofNat_toNat, BitVec.setWidth_eq]
    · rw [initialised_stateByte, initialValue_getD_of_pos _ hk, ite_self]
  · have hinvalid : outLengthValid s.argOutbits.toNat = false := by
      rw [← Bool.not_eq_true, outLengthValid_iff]
      omega
    exact exec_of_check_some (require_some_iff.2 ⟨hinvalid, rfl⟩)

/-! ## HASH of the synthetic buffer (R243) -/

/-- The state in which the synthetic buffer of SYN_NBYTES bytes is the message. -/
def synAsMessage (s : State) : State :=
  { s with
    msgAddr := s.synAddr
    msgBitsLo := BitVec.ofNat 32 (8 * s.synNbytes.toNat % 2 ^ 32)
    msgBitsHi := BitVec.ofNat 32 (8 * s.synNbytes.toNat / 2 ^ 32) }

theorem synAsMessage_msgBits (s : State) :
    State.msgBits (synAsMessage s) = BitVec.ofNat 64 (8 * s.synNbytes.toNat) := by
  have hn := s.synNbytes.isLt
  apply BitVec.eq_of_toNat_eq
  rw [msgBits_toNat]
  simp only [synAsMessage, BitVec.toNat_ofNat]
  omega

theorem exec_hash {s : State} (hc : State.HasContext s) (hm : State.MessageInside s) :
    exec .hash s =
      .next (commit (State.putHash
        (hashFn (State.engine s) s.dmem (State.outBytes s) (State.msgBits s) s.msgAddr.toNat) s)) :=
  exec_of_check_none (messageChecks_pass hc.1 hm)

/-- The bit length of the synthetic buffer. -/
def synBits (s : State) : DWord := BitVec.ofNat 64 (8 * State.synLen s)

section
variable {s : State} (h : State.MacReady s)
include h

theorem synBits_toNat : (synBits s).toNat = 8 * State.synLen s := by
  have hlt := synLen_lt h
  exact (BitVec.toNat_ofNat ..).trans (Nat.mod_eq_of_lt (by omega))

theorem built_synNbytes_toNat : (built s).synNbytes.toNat = State.synLen s :=
  (BitVec.toNat_ofNat ..).trans (Nat.mod_eq_of_lt (synLen_lt h))

/-- HASH of the built buffer reads the bit length MAC hashes. -/
theorem synAsMessage_built_msgBits : State.msgBits (synAsMessage (built s)) = synBits s := by
  rw [synAsMessage_msgBits, built_synNbytes_toNat h, synBits]

/-- The region HASH checks is the one KMAC_BUILD checked for the buffer. -/
theorem synAsMessage_built_messageInside : State.MessageInside (synAsMessage (built s)) := by
  have hlen : ((State.msgBits (synAsMessage (built s))).toNat + 7) / 8 = State.synLen s := by
    rw [synAsMessage_built_msgBits h, synBits_toNat h]
    omega
  obtain ⟨-, -, -, -, -, hsynIn, -⟩ := h
  rw [State.MessageInside, hlen]
  exact hsynIn

/-- HASH of the built buffer computes `mac_fn()`. -/
theorem exec_hash_synAsMessage_built :
    exec .hash (synAsMessage (built s)) = .next (commit (State.putHash (macFn s) (synAsMessage (built s)))) := by
  rw [exec_hash (s := synAsMessage (built s)) h.1 (synAsMessage_built_messageInside h),
    synAsMessage_built_msgBits h]
  rfl

/-- Before the key that ends it, the buffer is whole blocks: its remainder is the key's. -/
theorem remLen_synBits : remLen (State.nb s) (synBits s) = remLen (State.nb s) (State.keyLen s) := by
  have hnb := twelve_lt_nb h.1
  have hblocks : State.nb s ∣ prefixLen (State.nb s) (State.keyLen s) + State.nb s
      + prefixLen (State.nb s) (State.msgBits s) + padLen (State.nb s) (State.msgBits s) :=
    Nat.dvd_add (Nat.dvd_add (Nat.dvd_add (dvd_prefixLen _ _) (Nat.dvd_refl _)) (dvd_prefixLen _ _))
      (dvd_padLen hnb _)
  have hbytes : wholeBytes (synBits s) = State.synLen s := by
    rw [wholeBytes, synBits_toNat h]
    omega
  rw [remLen, remLen, hbytes, synLen_eq h, wholeBytes_keyLen, Nat.add_mod, Nat.mod_eq_zero_of_dvd hblocks,
    Nat.zero_add, Nat.mod_mod]

/-- R243: so the buffer's padding is one block, as the key's is. -/
theorem padLen_synBits : padLen (State.nb s) (synBits s) = State.nb s := by
  have hnb := twelve_lt_nb h.1
  rw [padLen_eq hnb, remLen_synBits h, ← padLen_eq hnb, padLen_keyLen h]

end

/-! ## MAC (R244) -/

/-- The state MAC leaves when its checks pass. -/
def maced (s : State) : State := commit (State.putHash (macFn s) (State.putSynthetic (synBuffer s) s))

theorem exec_mac {s : State} (h : State.MacReady s) : exec .mac s = .next (maced s) :=
  exec_of_check_none (macChecks_pass h)

theorem maced_padNbytes_toNat {s : State} (h : State.MacReady s) : (maced s).padNbytes.toNat = State.nb s := by
  have hlen : (macFn s).padding.bytes.length = State.nb s := (padString_length ..).trans (padLen_synBits h)
  have hnb := nb_le_128 h.1
  rw [maced, commit_padNbytes, State.putHash_padNbytes, hlen, BitVec.toNat_ofNat, Nat.mod_eq_of_lt (by omega)]

/-- Settles O47: HASH of the built buffer puts the same hash, `mac_fn()`, over the message's padding that KMAC_BUILD
left. -/
theorem macEqualsBuildThenHash : Obligations.MacEqualsBuildThenHash := by
  unfold Obligations.MacEqualsBuildThenHash
  intro s h
  exact ⟨maced s, built s, _, exec_mac h, exec_kmacBuild h, exec_hash_synAsMessage_built h, rfl,
    maced_padNbytes_toNat h⟩

end Sys2Proof.Machine
end

section
/-! PROOFS. The statements of spec/60_exceptions.md: every command ends, and an error changes only STATUS (R263)
and has a code of the command's row (R262). -/

namespace Sys2Proof.Machine

open Sys2Proof

/-! ## The codes of the checks (R262) -/

theorem code_of_checkContext {s : State} {c : ErrCode} (h : checkContext s = some c) : c = .notInit :=
  (require_some_iff.1 h).2

theorem code_of_checkRange {s : State} {a n : Nat} {c : ErrCode} (h : checkRange s a n = some c) : c = .range :=
  (require_some_iff.1 h).2

/-- The checks of a command that reads one region of DMEM. -/
theorem code_of_context_or_range {s : State} {a n : Nat} {c : ErrCode}
    (h : (checkContext s).or (checkRange s a n) = some c) : c ∈ [.notInit, .range] := by
  rcases Option.or_eq_some_iff.1 h with hctx | ⟨-, hrange⟩
  · simp [code_of_checkContext hctx]
  · simp [code_of_checkRange hrange]

/-- Each rung of R266's order for MAC and KMAC_BUILD answers one of their five codes. -/
theorem code_of_firstMacError {s : State} {c : ErrCode} (h : firstMacError s = some c) :
    c ∈ [.macOutbits, .macKeybits, .notInit, .range, .overlap] := by
  unfold firstMacError at h
  split_ifs at h <;> cases h <;> decide

/-- The checks of a command find only codes R262 allows it. -/
theorem checkOf_mem_mayRaise {i : Instr} {s : State} {c : ErrCode} (h : checkOf i s = some c) :
    c ∈ mayRaise i := by
  cases i with
  | init => exact List.mem_singleton.2 (require_some_iff.1 h).2
  | gfmul => exact absurd h nofun
  | hash | pad | compressBlk => exact code_of_context_or_range h
  | mac | kmacBuild => exact code_of_firstMacError ((kmacChecks_eq_firstMacError s).symm.trans h)
  | _ => exact List.mem_singleton.2 (code_of_checkContext h)

/-! ## The end of a command (R263, R265) -/

/-- Settles O10: a command whose checks pass commits a result that keeps ERR and ERRCODE; otherwise it is
`raise Error` of the code its checks found. -/
theorem everyCommandEndsOrRaises : Obligations.EveryCommandEndsOrRaises := by
  unfold Obligations.EveryCommandEndsOrRaises
  intro i s
  cases hcheck : checkOf i s with
  | none => exact ⟨_, exec_of_check_none hcheck, rfl, rfl, .inl ⟨resultOf_err i s, resultOf_errCode i s⟩⟩
  | some c => exact ⟨_, exec_of_check_some hcheck, rfl, rfl, .inr ⟨c, checkOf_mem_mayRaise hcheck, rfl⟩⟩

end Sys2Proof.Machine
end

section
/-! PROOFS. The statements of spec/30_encoding.md and spec/60_exceptions.md on decoding (R93, R95), on steps and runs
(spec/10_state.md R39, spec/20_memory.md R70, R278), and on commands that raise an error (R72, R270). -/

namespace Sys2Proof.Machine

open Sys2Proof

/-! ## Ignored bits (R91, R95) -/

/-- A command whose OPC is not one of the four that use RND has no index to give. -/
theorem withIndex_of_opc {i : Instr} (h : i.opc.toNat ∉ [0x11, 0x12, 0x16, 0x17]) (k : Nat) : withIndex k i = i := by
  cases i with
  | arcP | arcQ | rndP | rndQ => simp [Instr.opc] at h
  | _ => rfl

/-- Settles O3: the command is that of the OPC, with bits 15:8 as its index where it has one. -/
theorem ignoredBitsSelectSameCommand : Obligations.IgnoredBitsSelectSameCommand := by
  unfold Obligations.IgnoredBitsSelectSameCommand
  intro w v hopc hbits
  by_cases hlegal : ∃ i : Instr, i.opc.toNat = w.toNat % 256
  · obtain ⟨i, hi⟩ := hlegal
    rw [decode_of_opc hi, decode_of_opc (hi.trans hopc)]
    rcases hbits with hlow | hnone
    · rw [show w.toNat / 256 % 256 = v.toNat / 256 % 256 by omega]
    · rw [← hi] at hnone
      rw [withIndex_of_opc hnone, withIndex_of_opc hnone]
  · have hall : ∀ i : Instr, i.opc.toNat ≠ w.toNat % 256 := fun i hi => hlegal ⟨i, hi⟩
    rw [(decode_eq_none_iff w).2 hall, (decode_eq_none_iff v).2 (hopc ▸ hall)]

/-- Settles O5: the decoder is evaluated on the words of R93's rows. -/
theorem opcodeMapWordsDecode : Obligations.OpcodeMapWordsDecode := by
  unfold Obligations.OpcodeMapWordsDecode
  decide

/-! ## One step (R39, R264) -/

/-- Settles O6: the core's turn runs the command the word decodes to. -/
theorem stepRunsDecodedCommand : Obligations.StepRunsDecodedCommand := by
  unfold Obligations.StepRunsDecodedCommand
  intro s w i hp hd hs
  rw [step_core hs, coreTurn_running (s := State.popTurn s) hp, runWord_some hd]
  rfl

/-- Settles O7: an input that is due is applied, and the core's turn of an idle core changes nothing. -/
theorem stepTakesInputOrIdles : Obligations.StepTakesInputOrIdles := by
  unfold Obligations.StepTakesInputOrIdles
  refine ⟨fun s x rest hs => ?_, fun s hp hs => ?_⟩
  · rw [step_input hs, State.popTurn, hs]
    rfl
  · rw [step_core hs, coreTurn_idle (s := State.popTurn s) hp]
    rfl

/-- Settles O8: the word is accepted and the core's turn is the first one. -/
theorem placedWordRunsNext : Obligations.PlacedWordRunsNext := by
  unfold Obligations.PlacedWordRunsNext
  intro s nbits w i hd
  rw [step_core (s := State.withFetchWord s nbits w) (.inl rfl),
    coreTurn_running (w := BitVec.ofNat 32 (w % 2 ^ nbits)) rfl, runWord_some hd]
  rfl

/-! ## Runs (R70, R278) -/

/-- A machine reaches IDLE in at most as many steps as the scheduled turns take, and one more. -/
theorem exists_run_idle (n : Nat) (s : State) (hn : (s.schedule.map Turn.steps).sum = n) :
    ∃ k, k ≤ n + 1 ∧ ∃ t, Host.Core.run Sys2Proof.core k s = .next t ∧ t.phase = .idle := by
  induction n using Nat.strong_induction_on generalizing s with
  | _ n ih =>
    obtain ⟨t, ht, hidle | hfewer⟩ := step_next s
    · exact ⟨1, by omega, t, run_succ ht 0, hidle⟩
    · obtain ⟨k, hk, u, hrun, hu⟩ := ih _ (hn ▸ hfewer) t rfl
      exact ⟨k + 1, by omega, u, (run_succ ht k).trans hrun, hu⟩

/-- Settles O15: every step reaches IDLE or leaves fewer steps of the schedule. -/
theorem everyRunReachesIdle : Obligations.EveryRunReachesIdle := by
  unfold Obligations.EveryRunReachesIdle
  exact fun s => exists_run_idle _ s rfl

/-- A run of reads and writes while a command runs changes DROP, the word last read and the draws only. -/
theorem run_accesses {s : State} {w : Word} (hp : s.phase = .running w) (hr : s.resetHeld = false) (xs : List Input)
    (hxs : ∀ x ∈ xs, x.isRead = true ∨ x.isWrite = true) (ts : List Turn) (n : Nat) :
    ∃ r d, Host.Core.run Sys2Proof.core (xs.length + n) { s with schedule := xs.map Turn.input ++ ts } =
      Host.Core.run Sys2Proof.core n
        { s with drop := s.drop || xs.any Input.isWrite, schedule := ts, rdata := r, draws := d } := by
  induction xs generalizing s with
  | nil => exact ⟨s.rdata, s.draws, by simp⟩
  | cons x xs ih =>
    obtain ⟨r, d, hx⟩ := access_running (s := { s with schedule := xs.map Turn.input ++ ts }) hp hr
      (hxs x List.mem_cons_self)
    have hstep := step_input (s := { s with schedule := (x :: xs).map Turn.input ++ ts }) (x := x)
      (rest := xs.map Turn.input ++ ts) rfl
    obtain ⟨r', d', hrest⟩ := ih (s := { s with drop := s.drop || x.isWrite, rdata := r, draws := d }) hp hr
      fun y hy => hxs y (List.mem_cons_of_mem x hy)
    refine ⟨r', d', ?_⟩
    rw [List.length_cons, Nat.succ_add, run_succ hstep, List.any_cons, ← Bool.or_assoc]
    exact (congrArg (Host.Core.run Sys2Proof.core (xs.length + n)) hx).trans hrest

/-- Settles O16: the accesses change what the core's turn neither reads nor writes. -/
theorem commandIsAtomic : Obligations.CommandIsAtomic := by
  unfold Obligations.CommandIsAtomic
  intro s w xs rest hp hr hxs
  obtain ⟨t, ht, _⟩ := coreTurn_next s
  obtain ⟨r, d, hrun⟩ := run_accesses hp hr xs hxs (.core :: rest) 1
  have hend := coreTurn_bus ht (s.drop || xs.any Input.isWrite) rest r d
  have hstep := (step_core (s := { s with
    drop := s.drop || xs.any Input.isWrite, schedule := .core :: rest, rdata := r, draws := d }) (.inl rfl)).trans hend
  exact ⟨t, _, ht, hrun.trans (run_succ hstep 0), rfl⟩

/-! ## Errors (R72, R270) -/

/-- No check reads STATUS or the phase. -/
theorem checkOf_status (i : Instr) (s : State) (d e : Bool) (c : ErrCode) (p : Phase) :
    checkOf i { s with done := d, err := e, errCode := c, phase := p } = checkOf i s := by
  cases i <;> rfl

/-- Settles O11: an error changes nothing its checks read. -/
theorem failedCommandFailsAgain : Obligations.FailedCommandFailsAgain := by
  unfold Obligations.FailedCommandFailsAgain
  intro i s t w hs he ht
  rcases exec_cases he with ⟨_, rfl⟩ | ⟨c, hc, rfl⟩
  · simp [hs] at ht
  · exact exec_of_check_some ((checkOf_status i s _ _ _ _).trans hc)

/-- A command whose context is valid and whose region is not inside DMEM finds RANGE. -/
theorem context_or_range {s : State} {a n : Nat} (hv : s.cfg.valid = true) (h : ¬State.RegionInside s a n) :
    (checkContext s).or (checkRange s a n) = some .range := by
  rw [checkContext_none_iff.2 hv, Option.none_or, checkRange_range_iff.2 h]

/-- Settles O13: with a valid context the region's check is the one that fails. -/
theorem regionOutsideDmemRaisesRange : Obligations.RegionOutsideDmemRaisesRange := by
  unfold Obligations.RegionOutsideDmemRaisesRange
  refine fun s hv => ⟨fun hm => ?_, fun hb => exec_of_check_some (context_or_range hv hb)⟩
  exact ⟨exec_of_check_some (context_or_range hv hm), exec_of_check_some (context_or_range hv hm)⟩

end Sys2Proof.Machine
end

section
/-! PROOFS. The laws of the product in GF(2^8) (spec/40_gf_multiplier.md R121). The idea: the shift-and-reduce loop
commutes with every map that is additive and commutes with doubling (`gfLoop_map`), and multiplying by a fixed byte is
such a map; commutativity and associativity are two instances of this. -/

namespace Sys2Proof.Machine

open Sys2Proof

/-! ## Additivity -/

/-- Exclusive or of two pairs, summed crosswise. -/
theorem xor_xor_xor_comm (a b c d : Byte) : (a ^^^ b) ^^^ (c ^^^ d) = (a ^^^ c) ^^^ (b ^^^ d) := by ac_rfl

theorem gfDouble_xor (x y : Byte) : gfDouble (x ^^^ y) = gfDouble x ^^^ gfDouble y := by
  simp only [gfDouble, BitVec.getLsbD_xor, BitVec.shiftLeft_xor_distrib]
  have hcancel : ∀ u v : Byte, u ^^^ v = (u ^^^ 0x1D) ^^^ (v ^^^ 0x1D) := fun u v => by
    rw [xor_xor_xor_comm, BitVec.xor_self, BitVec.xor_zero]
  cases x.getLsbD 7 <;> cases y.getLsbD 7
  case true.true => exact hcancel _ _
  case true.false =>
    show (x <<< 1 ^^^ y <<< 1) ^^^ 0x1D = (x <<< 1 ^^^ 0x1D) ^^^ y <<< 1
    ac_rfl
  case false.true => exact BitVec.xor_assoc ..
  case false.false => rfl

/-- The loop is additive in its multiplicand and accumulator together. -/
theorem gfLoop_xor (n : Nat) (x x' y r r' : Byte) :
    gfLoop n (x ^^^ x') y (r ^^^ r') = gfLoop n x y r ^^^ gfLoop n x' y r' := by
  induction n generalizing x x' y r r' with
  | zero => rfl
  | succ n ih =>
    simp only [gfLoop, gfDouble_xor, ← ih]
    split
    · rw [xor_xor_xor_comm]
    · rfl

theorem gfmul_xor_left (a b c : Byte) : gfmul (a ^^^ b) c = gfmul a c ^^^ gfmul b c :=
  gfLoop_xor 8 a b c 0 0

/-! ## Maps that commute with the loop -/

/-- A map that is additive and commutes with doubling goes through the loop. -/
theorem gfLoop_map {f : Byte → Byte} (hadd : ∀ x y, f (x ^^^ y) = f x ^^^ f y)
    (hdouble : ∀ x, f (gfDouble x) = gfDouble (f x)) (n : Nat) (x y r : Byte) :
    f (gfLoop n x y r) = gfLoop n (f x) y (f r) := by
  induction n generalizing x y r with
  | zero => rfl
  | succ n ih =>
    rw [gfLoop, gfLoop, ih, hdouble, apply_ite f, hadd]

theorem gfmul_gfDouble_left (a b : Byte) : gfmul (gfDouble a) b = gfDouble (gfmul a b) :=
  (gfLoop_map gfDouble_xor (fun _ => rfl) 8 a b 0).symm

/-- Multiplying by b goes through the loop: `(x · y) · b = (x · b) · y`. -/
theorem gfmul_right_comm (x y b : Byte) : gfmul (gfmul x y) b = gfmul (gfmul x b) y := by
  have h := gfLoop_map (f := fun a => gfmul a b) (fun x y => gfmul_xor_left x y b)
    (fun x => gfmul_gfDouble_left x b) 8 x y 0
  rwa [gfmul_zero_left] at h

theorem gfmul_comm (a b : Byte) : gfmul a b = gfmul b a := by
  simpa only [gfmul_one_left] using gfmul_right_comm 1 a b

theorem gfmul_xor_right (a b c : Byte) : gfmul a (b ^^^ c) = gfmul a b ^^^ gfmul a c := by
  rw [gfmul_comm a, gfmul_xor_left, gfmul_comm b, gfmul_comm c]

theorem gfmul_assoc (a b c : Byte) : gfmul a (gfmul b c) = gfmul (gfmul a b) c := by
  rw [gfmul_comm a (gfmul b c), gfmul_right_comm b c a, gfmul_comm b a]

theorem gfmul_one_right (a : Byte) : gfmul a 1 = a := (gfmul_comm a 1).trans (gfmul_one_left a)

/-- Multiplying by 0x02 is doubling. -/
theorem gfmul_two_left (a : Byte) : gfmul 0x02 a = gfDouble a := by
  rw [show (0x02 : Byte) = gfDouble 1 from rfl, gfmul_gfDouble_left, gfmul_one_left]

theorem gfDouble_eq (a : Byte) : gfDouble a = (a <<< 1) ^^^ (if a.getLsbD 7 then 0x1D else 0x00) := by
  rw [gfDouble]
  split <;> simp

/-! ## The powers of 0x02 -/

/-- The k-th power of 0x02. -/
def twoPow (k : Nat) : Byte := (gfmul 0x02)^[k] 1

theorem twoPow_add (m n : Nat) : twoPow (m + n) = gfmul (twoPow m) (twoPow n) := by
  induction m with
  | zero => rw [Nat.zero_add, show twoPow 0 = 1 from rfl, gfmul_one_left]
  | succ m ih =>
    have hsucc : ∀ k, twoPow (k + 1) = gfmul 0x02 (twoPow k) := fun k => Function.iterate_succ_apply' _ k 1
    rw [Nat.succ_add, hsucc, hsucc, ih, gfmul_assoc]

/-- The powers of 0x02 at 255 and at its quotients by 3, 5 and 17. -/
theorem twoPow_values : twoPow 15 = 0x26 ∧ twoPow 51 = 0x0A ∧ twoPow 85 = 0xD6 ∧ twoPow 255 = 1 := by
  have htriple : ∀ k, twoPow (k + (k + k)) = gfmul (twoPow k) (gfmul (twoPow k) (twoPow k)) := fun k => by
    rw [twoPow_add, twoPow_add]
  have h5 : twoPow 5 = 0x20 := by decide
  have h15 : twoPow 15 = 0x26 := (htriple 5).trans (by rw [h5]; decide)
  have h17 : twoPow 17 = 0x98 := (twoPow_add 15 2).trans (by rw [h15]; decide)
  have h51 : twoPow 51 = 0x0A := (htriple 17).trans (by rw [h17]; decide)
  have h85 : twoPow 85 = 0xD6 := (twoPow_add 51 34).trans (by rw [h51, twoPow_add 17 17, h17]; decide)
  have h255 : twoPow 255 = 1 := (htriple 85).trans (by rw [h85]; decide)
  exact ⟨h15, h51, h85, h255⟩

/-- A proper divisor of 255 = 3 · 5 · 17 divides one of its quotients by a prime. -/
theorem dvd_of_dvd_255 {d : Nat} (h : d ∣ 255) : d = 255 ∨ d ∣ 15 ∨ d ∣ 51 ∨ d ∣ 85 := by
  have hmem : d ∈ Nat.divisors 255 := Nat.mem_divisors.2 ⟨h, by decide⟩
  simp only [Nat.divisors_ofNat, Finset.mem_insert, Finset.mem_singleton] at hmem
  rcases hmem with rfl | rfl | rfl | rfl | rfl | rfl | rfl | rfl <;> decide

/-- The order of 0x02 is 255. -/
theorem minimalPeriod_gfmul_two : Function.minimalPeriod (gfmul 0x02) 1 = 255 := by
  obtain ⟨h15, h51, h85, h255⟩ := twoPow_values
  have hperiod : ∀ {k c}, twoPow k = c → Function.minimalPeriod (gfmul 0x02) 1 ∣ k → c = 1 := fun hk hd =>
    hk.symm.trans (Function.isPeriodicPt_iff_minimalPeriod_dvd.2 hd)
  rcases dvd_of_dvd_255 (Function.isPeriodicPt_iff_minimalPeriod_dvd.1 h255) with h | h | h | h
  · exact h
  · exact absurd (hperiod h15 h) (by decide)
  · exact absurd (hperiod h51 h) (by decide)
  · exact absurd (hperiod h85 h) (by decide)

theorem twoPow_eq_one_iff (n : Nat) : twoPow n = 1 ↔ 255 ∣ n := by
  rw [← minimalPeriod_gfmul_two]
  exact Function.isPeriodicPt_iff_minimalPeriod_dvd

/-- No power of 0x02 is 0: its product with another one is 1. -/
theorem twoPow_mul_twoPow_sub {k : Nat} (hk : k ≤ 255) : gfmul (twoPow k) (twoPow (255 - k)) = 1 := by
  rw [← twoPow_add, Nat.add_sub_of_le hk]
  exact (twoPow_eq_one_iff 255).2 (dvd_refl 255)

/-- The 255 powers are all the nonzero bytes: they are distinct, and none is 0. -/
theorem exists_twoPow {a : Byte} (ha : a ≠ 0) : ∃ k, k < 255 ∧ twoPow k = a := by
  have hnonzero : (Finset.range 255).image twoPow ⊆ Finset.univ.erase 0 := by
    intro b hb
    obtain ⟨k, hk, rfl⟩ := Finset.mem_image.1 hb
    refine Finset.mem_erase.2 ⟨fun h0 => ?_, Finset.mem_univ _⟩
    have hone := twoPow_mul_twoPow_sub (Finset.mem_range.1 hk).le
    rw [h0, gfmul_zero_left] at hone
    exact absurd hone (by decide)
  have hinj : Set.InjOn twoPow (Finset.range 255) := by
    have h := Function.iterate_injOn_Iio_minimalPeriod (f := gfmul 0x02) (x := 1)
    rw [minimalPeriod_gfmul_two] at h
    rwa [Finset.coe_range]
  have hcard : (Finset.univ.erase (0 : Byte)).card ≤ ((Finset.range 255).image twoPow).card := by
    rw [Finset.card_image_of_injOn hinj, Finset.card_range, Finset.card_erase_of_mem (Finset.mem_univ _),
      Finset.card_univ, ← FinEnum.card_eq_fintypeCard, FinEnum.card_bitVec]
    decide
  have hall := Finset.eq_of_subset_of_card_le hnonzero hcard
  have hmem : a ∈ (Finset.range 255).image twoPow := hall ▸ Finset.mem_erase.2 ⟨ha, Finset.mem_univ a⟩
  obtain ⟨k, hk, hka⟩ := Finset.mem_image.1 hmem
  exact ⟨k, Finset.mem_range.1 hk, hka⟩

theorem exists_gfmul_eq_one {a : Byte} (ha : a ≠ 0) : ∃ b, gfmul a b = 1 := by
  obtain ⟨k, hk, rfl⟩ := exists_twoPow ha
  exact ⟨twoPow (255 - k), twoPow_mul_twoPow_sub hk.le⟩

/-- Settles O26: the laws follow from additivity and `gfLoop_map`, the inverses from the order of 0x02. -/
theorem gfmulFieldLaws : Obligations.GfmulFieldLaws := by
  unfold Obligations.GfmulFieldLaws
  refine ⟨gfmul_comm, gfmul_xor_right, gfmul_assoc, fun a => ⟨gfmul_zero_right a, gfmul_one_right a, ?_⟩,
    fun a ha => exists_gfmul_eq_one ha, fun n hpos hle => (twoPow_eq_one_iff n).trans ?_⟩
  · rw [gfmul_comm, gfmul_two_left, gfDouble_eq]
  · exact ⟨fun h => Nat.le_antisymm hle (Nat.le_of_dvd hpos h), fun h => by rw [h]⟩

end Sys2Proof.Machine
end

section
/-! PROOFS. The permutations lose nothing of STATE (spec/41_permutation.md R139): each sub-transform is injective on the
NB-byte strings (`InjectiveOnStrings`), MIX by the matrix's left inverse, which is a computation with sums over ⊕. -/

namespace Sys2Proof.Machine

open Sys2Proof

/-! ## Sums over ⊕ (R135) -/

/-- The sum of f over a list of rows. -/
def xorSum (l : List (Fin 8)) (f : Fin 8 → Byte) : Byte := l.foldl (fun acc b => acc ^^^ f b) 0

theorem foldl_xor (l : List (Fin 8)) (f : Fin 8 → Byte) (a : Byte) :
    l.foldl (fun acc b => acc ^^^ f b) a = a ^^^ xorSum l f := by
  induction l generalizing a with
  | nil => simp [xorSum]
  | cons b l ih =>
    have hzero : (0 : Byte) ^^^ f b = f b := by simp
    rw [xorSum, List.foldl_cons, List.foldl_cons, ih, ih, hzero, BitVec.xor_assoc]

theorem xorSum_cons (b : Fin 8) (l : List (Fin 8)) (f : Fin 8 → Byte) : xorSum (b :: l) f = f b ^^^ xorSum l f := by
  rw [xorSum, List.foldl_cons, foldl_xor]
  simp

theorem xorSum_xor (l : List (Fin 8)) (f g : Fin 8 → Byte) :
    xorSum l (fun b => f b ^^^ g b) = xorSum l f ^^^ xorSum l g := by
  induction l with
  | nil => simp [xorSum]
  | cons b l ih => rw [xorSum_cons, xorSum_cons, xorSum_cons, ih, xor_xor_xor_comm]

theorem xorSum_zero (l : List (Fin 8)) : xorSum l (fun _ => 0) = 0 := by
  induction l with
  | nil => rfl
  | cons b l ih => rw [xorSum_cons, ih]; rfl

/-- Two sums may be interchanged. -/
theorem xorSum_comm (l l' : List (Fin 8)) (f : Fin 8 → Fin 8 → Byte) :
    xorSum l (fun b => xorSum l' (f b)) = xorSum l' fun c => xorSum l fun b => f b c := by
  induction l with
  | nil => exact (xorSum_zero l').symm
  | cons b l ih => simp only [xorSum_cons, ih, xorSum_xor]

theorem gfmul_xorSum (a : Byte) (l : List (Fin 8)) (f : Fin 8 → Byte) :
    gfmul a (xorSum l f) = xorSum l fun b => gfmul a (f b) := by
  induction l with
  | nil => exact gfmul_zero_right a
  | cons b l ih => rw [xorSum_cons, xorSum_cons, gfmul_xor_right, ih]

theorem xorSum_gfmul (l : List (Fin 8)) (f : Fin 8 → Byte) (a : Byte) :
    xorSum l (fun b => gfmul (f b) a) = gfmul (xorSum l f) a := by
  simp only [gfmul_comm _ a, gfmul_xorSum]

/-- A sum with one term. -/
theorem xorSum_single (r : Fin 8) (l : List (Fin 8)) (hl : l.Nodup) (f : Fin 8 → Byte) :
    xorSum l (fun c => if r = c then f c else 0) = if r ∈ l then f r else 0 := by
  induction l with
  | nil => rfl
  | cons b l ih =>
    obtain ⟨hb, hl⟩ := List.nodup_cons.1 hl
    rw [xorSum_cons, ih hl]
    by_cases h : r = b
    · subst h
      simp [hb]
    · simp [h]

theorem mixCell_eq_xorSum (rom : Rom) (s : List Byte) (r : Fin 8) (c : Nat) :
    mixCell rom s r c = xorSum (List.finRange 8) fun b => gfmul (mdsAt rom r b) (cell s b c) := rfl

/-- The matrix inv is a left inverse of MDS over GF(2^8). -/
def LeftInverse (inv : Fin 8 → Fin 8 → Byte) (rom : Rom) : Prop :=
  ∀ r c : Fin 8, xorSum (List.finRange 8) (fun b => gfmul (inv r b) (mdsAt rom b c)) = if r = c then 1 else 0

/-- The inverse matrix gives a column back from its mixed bytes. -/
theorem xorSum_inv_mixCell {inv : Fin 8 → Fin 8 → Byte} {rom : Rom} (hinv : LeftInverse inv rom) (s : List Byte)
    (r : Fin 8) (c : Nat) :
    xorSum (List.finRange 8) (fun b => gfmul (inv r b) (mixCell rom s b c)) = cell s r c := by
  calc xorSum (List.finRange 8) (fun b => gfmul (inv r b) (mixCell rom s b c))
    _ = xorSum (List.finRange 8) (fun b => xorSum (List.finRange 8) fun k =>
          gfmul (gfmul (inv r b) (mdsAt rom b k)) (cell s k c)) := by
        simp only [mixCell_eq_xorSum, gfmul_xorSum, gfmul_assoc]
    _ = xorSum (List.finRange 8) (fun k => gfmul (if r = k then 1 else 0) (cell s k c)) := by
        rw [xorSum_comm]
        simp only [xorSum_gfmul, hinv r]
    _ = xorSum (List.finRange 8) (fun k => if r = k then cell s k c else 0) := by
        refine congrArg _ (funext fun k => ?_)
        split
        · exact gfmul_one_left _
        · exact gfmul_zero_left _
    _ = cell s r c := by
        rw [xorSum_single r _ (List.nodup_finRange 8), if_pos (List.mem_finRange r)]

/-! ## Injective maps of NB-byte strings -/

/-- f keeps different NB-byte strings different. -/
def InjectiveOnStrings (E : Engine) (f : List Byte → List Byte) : Prop :=
  ∀ a b : List Byte, a.length = E.nb → b.length = E.nb → f a = f b → a = b

theorem InjectiveOnStrings.comp {E : Engine} {f g : List Byte → List Byte} (hg : InjectiveOnStrings E g)
    (hf : InjectiveOnStrings E f) (hlen : ∀ b, (f b).length = E.nb) : InjectiveOnStrings E fun b => g (f b) :=
  fun a b ha hb h => hf a b ha hb (hg _ _ (hlen a) (hlen b) h)

/-- A map that lets every cell of its argument be recovered is injective. -/
theorem injectiveOnStrings_of_cell {E : Engine} {f : List Byte → List Byte}
    (h : ∀ a b, f a = f b → ∀ (r : Fin 8) (c : Nat), 8 * c + r.val < E.nb → cell a r c = cell b r c) :
    InjectiveOnStrings E f :=
  fun a b ha hb hab => string_ext_of_cell ha hb (h a b hab)

theorem injective_arcP (E : Engine) (i : Byte) : InjectiveOnStrings E (arcP E i) := fun a b ha hb h => by
  rw [← arcP_arcP i ha, h, arcP_arcP i hb]

theorem injective_subBytes {E : Engine}
    (hsbox : ∀ (k : Fin 4) (x y : Byte), sboxAt E.rom k x = sboxAt E.rom k y → x = y) :
    InjectiveOnStrings E (subBytes E) := by
  refine injectiveOnStrings_of_cell fun a b h r c hc => hsbox (tableOf r) _ _ ?_
  rw [← cell_subBytes a hc, h, cell_subBytes b hc]

theorem injective_mixColumns {E : Engine} {inv : Fin 8 → Fin 8 → Byte} (hinv : LeftInverse inv E.rom)
    (hnb : E.nb % 8 = 0) : InjectiveOnStrings E (mixColumns E) := by
  refine injectiveOnStrings_of_cell fun a b h r c hc => ?_
  have hmix : ∀ (k : Fin 8), mixCell E.rom a k c = mixCell E.rom b k c := fun k => by
    have hk : 8 * c + k.val < E.nb := by omega
    have hcell := congrArg (fun s => cell s k c) h
    simpa only [mixColumns, cell_tabulate _ hk] using hcell
  rw [← xorSum_inv_mixCell hinv a, ← xorSum_inv_mixCell hinv b]
  simp only [hmix]

/-- Row r of a column word is bits 8r+7 : 8r. -/
theorem extract_columnWord (b : List Byte) (c : Nat) (r : Fin 8) :
    (columnWord b c).extractLsb' (8 * r.val) 8 = cell b r c := by
  have hlt : ∀ k : Fin 8, (cell b k c).toNat < 2 ^ 8 := fun k => (cell b k c).isLt
  have h0 := hlt 0
  have h1 := hlt 1
  have h2 := hlt 2
  have h3 := hlt 3
  have h4 := hlt 4
  have h5 := hlt 5
  have h6 := hlt 6
  have h7 := hlt 7
  apply BitVec.eq_of_toNat_eq
  rw [BitVec.extractLsb'_toNat, Nat.shiftRight_eq_div_pow, columnWord_toNat, sum_rows fun r => (cell b r c).toNat]
  match r with
  | 0 | 1 | 2 | 3 | 4 | 5 | 6 | 7 =>
    simp only [Fin.isValue, Fin.coe_ofNat_eq_mod, Nat.reduceMod, Nat.reduceMul]
    omega

theorem injective_arcQ {E : Engine} (i : Byte) (hnb : E.nb % 8 = 0) : InjectiveOnStrings E (arcQ E i) := by
  refine injectiveOnStrings_of_cell fun a b h r c hc => ?_
  have hcol : c < Engine.cols E := by
    rw [Engine.cols]
    omega
  have hword : columnWord a c + constantQ (Engine.cols E) c i = columnWord b c + constantQ (Engine.cols E) c i := by
    rw [← columnWord_arcQ i a hcol, h, columnWord_arcQ i b hcol]
  rw [← extract_columnWord a, ← extract_columnWord b, (BitVec.add_left_inj _).1 hword]

/-- Every column is the source of one: the rotation drops none. -/
theorem exists_sourceColumn (dir : RotDir) {cols : Nat} {r : Fin 8} (hshift : rowShift cols r ≤ cols) {c : Nat}
    (hc : c < cols) : ∃ d, d < cols ∧ sourceColumn dir cols r d = c := by
  cases dir with
  | towardLower =>
    refine ⟨(c + cols - rowShift cols r) % cols, Nat.mod_lt _ (by omega), ?_⟩
    rw [sourceColumn, Nat.mod_add_mod, Nat.sub_add_cancel (by omega), Nat.add_mod_right, Nat.mod_eq_of_lt hc]
  | towardHigher => exact ⟨_, Nat.mod_lt _ (by omega), sourceColumn_towardHigher r hc⟩

theorem injective_shiftRows {E : Engine} (hnb : E.nb % 8 = 0)
    (hshift : ∀ r, rowShift (Engine.cols E) r ≤ Engine.cols E) :
    InjectiveOnStrings E (shiftRows E) := by
  refine injectiveOnStrings_of_cell fun a b h r c hc => ?_
  obtain ⟨d, hd, hsource⟩ := exists_sourceColumn E.rotDir (hshift r) (c := c) (by rw [Engine.cols]; omega)
  rw [← hsource, ← cell_shiftRows a (cell_index_lt hd r), h, cell_shiftRows b (cell_index_lt hd r)]

/-! ## Permutations (R138, R139) -/

theorem injective_allRounds {E : Engine} {round : Byte → List Byte → List Byte}
    (hround : ∀ i, InjectiveOnStrings E (round i)) (hlen : ∀ i b, (round i b).length = E.nb) (n : Nat) :
    InjectiveOnStrings E (allRounds n round) := by
  induction n with
  | zero => exact fun _ _ _ _ h => h
  | succ n ih =>
    intro a b ha hb h
    rw [allRounds_succ, allRounds_succ] at h
    exact ih a b ha hb (hround _ _ _ (allRounds_length hlen n ha) (allRounds_length hlen n hb) h)

/-- What R139 asks of the tables. -/
structure Invertible (rom : Rom) : Prop where
  sbox : ∀ (k : Fin 4) (x y : Byte), sboxAt rom k x = sboxAt rom k y → x = y
  mds : ∃ inv, LeftInverse inv rom

theorem engine_nb_mod_eight {s : State} (hc : State.HasContext s) : (State.engine s).nb % 8 = 0 := by
  rcases nb_of_context hc with h | h <;> simp [State.engine, h]

theorem rowShift_le_cols {s : State} (hc : State.HasContext s) (r : Fin 8) :
    rowShift (State.cols s) r ≤ State.cols s := by
  rw [rowShift_of_context hc, cols_of_context hc]
  have hr := r.isLt
  cases s.cfg.large with
  | false => simp [hr.le]
  | true =>
    simp only [true_and, if_true]
    split <;> omega

section
variable {E : Engine} (hnb : E.nb % 8 = 0) (hshift : ∀ r, rowShift (Engine.cols E) r ≤ Engine.cols E)
  (hrom : Invertible E.rom)
include hnb hshift hrom

/-- A round is injective where its injection of the round constant is. -/
theorem injective_round {inject : List Byte → List Byte} (hinject : InjectiveOnStrings E inject)
    (hlen : ∀ b, (inject b).length = E.nb) :
    InjectiveOnStrings E fun b => mixColumns E (shiftRows E (subBytes E (inject b))) := by
  obtain ⟨hsbox, inv, hinv⟩ := hrom
  have hsub := (injective_subBytes hsbox).comp hinject hlen
  have hrotated := (injective_shiftRows hnb hshift).comp hsub fun b => subBytes_length E (inject b)
  exact (injective_mixColumns hinv hnb).comp hrotated fun b => shiftRows_length E (subBytes E (inject b))

theorem injective_permP : InjectiveOnStrings E (permP E) :=
  injective_allRounds (fun i => injective_round hnb hshift hrom (injective_arcP E i) (arcP_length E i))
    (roundP_length E) E.rounds

theorem injective_permQ : InjectiveOnStrings E (permQ E) :=
  injective_allRounds (fun i => injective_round hnb hshift hrom (injective_arcQ i hnb) (arcQ_length E i))
    (roundQ_length E) E.rounds

end

/-- A command of the engine whose map is injective loses nothing of STATE. -/
theorem hashState_of_transformed {f : Engine → List Byte → List Byte} {s : State} {w : Vector Byte 128}
    (hc : State.HasContext s) (hf : KeepsLength f) (hinj : InjectiveOnStrings (State.engine s) (f (State.engine s)))
    (h : (transformed f s).hashState = (transformed f { s with hashState := w }).hashState) : s.hashState = w := by
  have hct : State.HasContext { s with hashState := w } := hc
  have hbytes : State.hashBytes s = State.hashBytes { s with hashState := w } := by
    refine hinj _ _ (hashBytes_length hc.2) (hashBytes_length hct.2) ?_
    have heq := congrArg (fun v : Vector Byte 128 => v.toList.take (State.nb s)) h
    exact (transformed_hashBytes hc hf).symm.trans (heq.trans (transformed_hashBytes hct hf))
  refine array_ext fun k _ => ?_
  by_cases hk : k < State.nb s
  · have hbyte := congrArg (fun b : List Byte => b.getD k 0) hbytes
    simp only [hashBytes_getD] at hbyte
    rwa [if_pos hk, if_pos (show k < State.nb { s with hashState := w } from hk)] at hbyte
  · have hk := Nat.le_of_not_lt hk
    calc State.stateByte s k
      _ = State.stateByte (transformed f s) k := (transformed_stateByte_above hc hf hk).symm
      _ = State.stateByte (transformed f { s with hashState := w }) k := by rw [State.stateByte, h]; rfl
      _ = w.toList.getD k 0 := transformed_stateByte_above hct hf hk

/-- Settles O34: the rounds are compositions of injective sub-transforms, and STATE above NB is kept. -/
theorem permutationsAreInjective : Obligations.PermutationsAreInjective := by
  unfold Obligations.PermutationsAreInjective
  intro s t u v inv hc ht hsbox hinv hexec hstate
  obtain ⟨w, rfl⟩ : ∃ w, t = { s with hashState := w } := ⟨_, ht⟩
  have hct : State.HasContext { s with hashState := w } := hc
  have hrom : Invertible s.rom := ⟨hsbox, inv, hinv⟩
  have hnb := engine_nb_mod_eight hc
  have hshift := rowShift_le_cols hc
  rcases hexec with ⟨hu, hv⟩ | ⟨hu, hv⟩
  · cases hu.symm.trans (computes_permP.exec_of_context hc)
    cases hv.symm.trans (computes_permP.exec_of_context hct)
    exact hashState_of_transformed hc computes_permP.keepsLength (injective_permP hnb hshift hrom) hstate
  · cases hu.symm.trans (computes_permQ.exec_of_context hc)
    cases hv.symm.trans (computes_permQ.exec_of_context hct)
    exact hashState_of_transformed hc computes_permQ.keepsLength (injective_permQ hnb hshift hrom) hstate

end Sys2Proof.Machine
end

section
/-! PROOFS. What PAD and HASH read of DMEM (spec/42_padding.md R179, spec/46_top_level.md R246), the length of the
synthetic buffer (spec/45_kmac.md R224, R227), and HASH as its unit commands (R242, R247). A command that writes the
hash state leaves `hashed v s`; two of them, one after the other, leave what the second leaves. -/

namespace Sys2Proof.Machine

open Sys2Proof

/-! ## What PAD reads of DMEM (R179) -/

/-- The terminator byte depends on the e most significant bits of the partial byte alone (R172). -/
theorem terminator_congr {e : Nat} (he : e < 8) {q q' : Byte}
    (h : ∀ j, j < 8 → 8 ≤ j + e → q.getLsbD j = q'.getLsbD j) : terminator e q = terminator e q' := by
  refine BitVec.eq_of_getLsbD_eq fun j hj => ?_
  rw [terminator_getLsbD q he hj, terminator_getLsbD q' he hj]
  by_cases hbit : 8 ≤ j + e
  · rw [h j hj hbit]
  · simp [hbit]

/-- The padding string depends on the remainder bytes and the terminator byte alone. -/
theorem padString_congr {m m' : Memory} {nb : Nat} {L : DWord} {a : Nat}
    (hrem : ∀ k, k < remLen nb L → Memory.byte m (a + prefixLen nb L + k) = Memory.byte m' (a + prefixLen nb L + k))
    (hterm : terminator (partialBits L) (Memory.byte m (a + wholeBytes L)) =
      terminator (partialBits L) (Memory.byte m' (a + wholeBytes L))) :
    padString m nb L a = padString m' nb L a := by
  have hread : memRead m (a + prefixLen nb L) (remLen nb L) = memRead m' (a + prefixLen nb L) (remLen nb L) :=
    List.map_congr_left fun k hk => hrem k (List.mem_range.1 hk)
  rw [padString, padString, hread, hterm]

/-- Settles O37: the two padding strings are equal, part by part. -/
theorem padReadsOnlyTheTail : Obligations.PadReadsOnlyTheTail := by
  unfold Obligations.PadReadsOnlyTheTail
  intro s t u v d hc hm ht hu hv hd hrem hbits
  obtain ⟨m, rfl⟩ : ∃ m, t = { s with dmem := m } := ⟨_, ht⟩
  cases hu.symm.trans (exec_pad hc hm)
  cases hv.symm.trans (exec_pad (s := { s with dmem := m }) hc hm)
  obtain rfl := hd.trans (padded_dataNbytes_toNat s)
  have hlen : wholeBytes (State.msgBits s) - prefixLen (State.nb s) (State.msgBits s) =
      remLen (State.nb s) (State.msgBits s) := by
    rw [← prefixLen_add_remLen (State.nb s), Nat.add_sub_cancel_left]
  have hstring : padString s.dmem (State.nb s) (State.msgBits s) s.msgAddr.toNat =
      padString m (State.nb s) (State.msgBits s) s.msgAddr.toNat :=
    padString_congr (fun k hk => hrem k (hlen ▸ hk)) (terminator_congr (partialBits_lt _) hbits)
  have hpadding : messagePadding { s with dmem := m } = messagePadding s :=
    congrArg (Padding.mk (prefixLen (State.nb s) (State.msgBits s))) hstring.symm
  rw [padded, padded, hpadding]
  rfl

/-! ## What HASH reads (R246) -/

theorem memRead_congr {m m' : Memory} (h : ∀ a, Memory.byte m a = Memory.byte m' a) : memRead m = memRead m' :=
  funext fun a => funext fun n => congrArg (List.map · (List.range n)) (funext fun i => h (a + i))

/-- The hash function reads DMEM byte by byte. -/
theorem hashFn_congr {m m' : Memory} (hbyte : ∀ a, Memory.byte m a = Memory.byte m' a) (E : Engine) (h : Nat)
    (L : DWord) (a : Nat) : hashFn E m h L a = hashFn E m' h L a := by
  have hpad : padFn m E.nb L a = padFn m' E.nb L a := by
    rw [padFn, padFn, padString_congr (fun k _ => hbyte _) (by rw [hbyte])]
  have hmem : compressMem E m = compressMem E m' := by
    unfold compressMem
    rw [memRead_congr hbyte]
  simp only [hashFn, compressAll, hpad, hmem]

/-- What HASH computes from CFG, the arguments, DMEM, the tables and the parameters. -/
def hashOut (s : State) : HashOut :=
  hashFn (State.engine s) s.dmem (State.outBytes s) (State.msgBits s) s.msgAddr.toNat

/-- The frame of a command that puts a hash. -/
theorem commit_putHash_frame (h : HashOut) (s : State) :
    commit (State.putHash h s) =
      { s with
        hashState := (commit (State.putHash h s)).hashState, padbuf := (commit (State.putHash h s)).padbuf,
        padNbytes := (commit (State.putHash h s)).padNbytes, dataNbytes := (commit (State.putHash h s)).dataNbytes,
        digest := (commit (State.putHash h s)).digest, done := true, phase := .idle } := by
  simp only [State.putHash, State.putDigest, State.putPadding, State.loadHashState, commit]

/-- The state HASH leaves when its checks pass. -/
def hashedMessage (s : State) : State := commit (State.putHash (hashOut s) s)

theorem exec_hash_eq {s : State} (hc : State.HasContext s) (hm : State.MessageInside s) :
    exec .hash s = .next (hashedMessage s) := exec_hash hc hm

/-- Settles O24: the five results are functions of `hashOut`, which reads the inputs alone. -/
theorem hashDependsOnlyOnItsInputs : Obligations.HashDependsOnlyOnItsInputs := by
  unfold Obligations.HashDependsOnlyOnItsInputs
  intro s t u v hcfg haddr hlo hhi hrom hparams hdmem hc hm hu hv
  have hct : State.HasContext t := by rwa [State.HasContext, ← hcfg]
  have hbits : State.msgBits t = State.msgBits s := by rw [State.msgBits, State.msgBits, hlo, hhi]
  have hmt : State.MessageInside t := by
    rw [State.MessageInside, State.RegionInside, State.dmemBytes, hbits, ← haddr, ← hparams]
    exact hm
  have hengine : State.engine t = State.engine s := by
    rw [State.engine, State.engine, State.nb, State.nb, hcfg, hrom, hparams]
  have hout : State.outBytes t = State.outBytes s := by
    rw [State.outBytes, State.outBytes, State.outBits, State.outBits, hcfg]
  have hsame : hashOut s = hashOut t := by
    rw [hashOut, hashOut, hengine, hout, hbits, ← haddr]
    exact hashFn_congr hdmem _ _ _ _
  cases hu.symm.trans (exec_hash_eq hc hm)
  cases hv.symm.trans (exec_hash_eq hct hmt)
  simp [hashedMessage, hsame]

/-! ## The length of the synthetic buffer (R224, R227) -/

/-- Settles O43: the lengths of the five parts, of which all but the last are whole blocks. -/
theorem syntheticLengthBounds : Obligations.SyntheticLengthBounds := by
  unfold Obligations.SyntheticLengthBounds
  intro s h
  have hnb := twelve_lt_nb h.1
  have hcases := nb_of_context h.1
  have hkb := keyBytes_cases h
  have hbits := keyBits_eq h
  have hlen := synLen_eq h
  have hblocks : State.nb s ∣ prefixLen (State.nb s) (State.keyLen s) + State.nb s
      + prefixLen (State.nb s) (State.msgBits s) + padLen (State.nb s) (State.msgBits s) :=
    Nat.dvd_add (Nat.dvd_add (Nat.dvd_add (dvd_prefixLen _ _) (Nat.dvd_refl _)) (dvd_prefixLen _ _))
      (dvd_padLen hnb _)
  have hpad : State.nb s ≤ padLen (State.nb s) (State.msgBits s) :=
    Nat.le_of_dvd (by rw [padLen]; omega) (dvd_padLen hnb _)
  refine ⟨synLen_lt h, by omega, ?_, ?_, padLen_keyLen h⟩
  · rw [hlen, ← State.keyBytes, Nat.add_sub_cancel]
    exact Nat.mod_eq_zero_of_dvd hblocks
  · rw [prefixLen_keyLen h]
    split <;> split <;> omega

/-! ## Commands that write the hash state, one after another -/

/-- The state a command leaves that writes the NB bytes v as the hash state. -/
def hashed (v : List Byte) (s : State) : State := commit (State.putHashState v s)

section
variable {s : State} {v w : List Byte} (hc : State.HasContext s) (hv : v.length = State.nb s)
include hc hv

theorem hashBytes_hashed : State.hashBytes (hashed v s) = v := by
  have hlen : (State.hashBytes (hashed v s)).length = State.nb s := hashBytes_length (s := hashed v s) hc.2
  refine string_ext (hlen.trans hv.symm) fun k hk => ?_
  have hk : k < State.nb s := hlen ▸ hk
  rw [hashBytes_getD, ← putHashState_stateByte_below hc hv hk]
  exact if_pos hk

theorem hashed_hashed (hw : w.length = State.nb s) : hashed w (hashed v s) = hashed w s := by
  have hstate : overwrite (overwrite s.hashState v) w = overwrite s.hashState w := by
    refine array_ext fun k _ => ?_
    have hfit := nb_le_128 hc
    rw [overwrite_getD _ _ _ (by omega), overwrite_getD _ _ _ (by omega), overwrite_getD _ _ _ (by omega), hv, hw]
    split <;> simp_all
  exact congrArg (fun x => { commit s with hashState := x }) hstate

end

/-- A machine that is idle after a command and whose hash state is v. -/
theorem hashed_self {s : State} (hc : State.HasContext s) (hd : s.done = true) (hp : s.phase = .idle) :
    hashed (State.hashBytes s) s = s := by
  have hstate := overwrite_hashBytes hc
  rw [hashed, State.putHashState, hstate, commit, ← hd, ← hp]

/-! ## HASH as its unit commands (R247) -/

/-- The blocks j of a list, in DMEM from a on, compressed in order. -/
def foldBlocks (E : Engine) (m : Memory) (a : Nat) (l : List Nat) (v : List Byte) : List Byte :=
  l.foldl (fun t j => compress E t (memRead m (a + j * E.nb) E.nb)) v

theorem foldBlocks_length (E : Engine) (m : Memory) (a : Nat) (l : List Nat) {v : List Byte} (hv : v.length = E.nb) :
    (foldBlocks E m a l v).length = E.nb := by
  induction l generalizing v with
  | nil => exact hv
  | cons j l ih => exact ih (compress_length E hv (memRead_length ..))

/-- COMPRESS_BLK of a block at b, from a state whose hash state is v. -/
theorem exec_compressBlk_hashed {s : State} (hc : State.HasContext s) {v : List Byte} (hv : v.length = State.nb s)
    {b : Word} (hin : b.toNat + State.nb s ≤ State.dmemBytes s) :
    exec .compressBlk { hashed v s with blkAddr := b } =
      .next (hashed (compress (State.engine s) v (memRead s.dmem b.toNat (State.nb s))) { s with blkAddr := b }) := by
  have hstart : { hashed v s with blkAddr := b } = hashed v { s with blkAddr := b } := rfl
  have hcb : State.HasContext { s with blkAddr := b } := hc
  rw [hstart, exec_compressBlk (s := hashed v { s with blkAddr := b }) hc (.inr hin), hashBytes_hashed hcb hv]
  have hblock : dmemBlock (hashed v { s with blkAddr := b }) = memRead s.dmem b.toNat (State.nb s) := rfl
  rw [hblock]
  exact congrArg _ (hashed_hashed hcb hv (compress_length _ hv (memRead_length ..)))

section
variable {s : State} {v : List Byte} (hc : State.HasContext s) (hv : v.length = State.nb s)
include hc hv

theorem exec_compressPad_hashed {n : Nat} (hn : s.padNbytes.toNat = n * State.nb s)
    (hlen : (compressBytes (State.engine s) s.padbuf.toList n v).length = State.nb s) :
    exec .compressPad (hashed v s) = .next (hashed (compressBytes (State.engine s) s.padbuf.toList n v) s) := by
  rw [exec_compressPad (s := hashed v s) hc hn, paddingFolded, hashBytes_hashed hc hv]
  exact congrArg _ (hashed_hashed hc hv hlen)

theorem Computes.exec_hashed {i : Instr} {f : Engine → List Byte → List Byte} (h : Computes i f) :
    exec i (hashed v s) = .next (hashed (f (State.engine s) v) s) := by
  rw [h.exec_of_context (s := hashed v s) hc, transformed, hashStateResult, hashBytes_hashed hc hv]
  exact congrArg _ (hashed_hashed hc hv (h.keepsLength _ _ hv))

theorem exec_trunc_hashed :
    exec .trunc (hashed v s) =
      .next (commit (State.putDigest (truncate (State.nb s) (State.outBytes s) v) (hashed v s))) := by
  rw [exec_trunc (s := hashed v s) hc, hashCode, hashBytes_hashed hc hv]
  rfl

end

theorem compressPrefix_hashed {s : State} (hc : State.HasContext s) {a : Nat} (l : List Nat)
    (hin : ∀ j ∈ l, a + j * State.nb s + State.nb s ≤ State.dmemBytes s) {v : List Byte}
    (hv : v.length = State.nb s) :
    ∃ b, compressPrefix a (State.nb s) l (hashed v s) =
      .next (hashed (foldBlocks (State.engine s) s.dmem a l v) { s with blkAddr := b }) := by
  induction l generalizing s v with
  | nil => exact ⟨s.blkAddr, rfl⟩
  | cons j l ih =>
    have hj := hin j List.mem_cons_self
    have hnb := twelve_lt_nb hc
    have htop : State.dmemBytes s ≤ 2 ^ 32 := s.params.dmemTop.isLt
    have haddr : (BitVec.ofNat 32 (a + j * State.nb s)).toNat = a + j * State.nb s :=
      (BitVec.toNat_ofNat ..).trans (Nat.mod_eq_of_lt (by omega))
    have hstep := exec_compressBlk_hashed hc hv (b := BitVec.ofNat 32 (a + j * State.nb s)) (by rwa [haddr])
    rw [haddr] at hstep
    obtain ⟨b, hb⟩ := ih (s := { s with blkAddr := BitVec.ofNat 32 (a + j * State.nb s) }) hc
      (fun i hi => hin i (List.mem_cons_of_mem j hi))
      (v := compress (State.engine s) v (memRead s.dmem (a + j * State.nb s) (State.nb s)))
      (compress_length _ hv (memRead_length ..))
    refine ⟨b, ?_⟩
    rw [compressPrefix, hstep]
    exact hb

/-- A block of a byte string is the same block of PADBUF, where the string has been put. -/
theorem slice_zeroFill {p : List Byte} {i n : Nat} (hin : i + n ≤ p.length) (hp : p.length ≤ 256) :
    slice (zeroFill 256 p).toList i n = slice p i n := by
  refine string_ext (by simp only [slice_length, Vector.length_toList]; omega) fun k hk => ?_
  rw [slice_getD, slice_getD, zeroFill_getD]
  simp only [slice_length] at hk
  rw [if_pos (show i + k < 256 by omega)]

theorem compressBytes_zeroFill (E : Engine) {p : List Byte} (hp : p.length ≤ 256) {n : Nat}
    (hn : n * E.nb ≤ p.length) (v : List Byte) :
    compressBytes E (zeroFill 256 p).toList n v = compressBytes E p n v := by
  induction n with
  | zero => rfl
  | succ n ih =>
    rw [Nat.succ_mul] at hn
    rw [compressBytes_succ, compressBytes_succ, ih (by omega), slice_zeroFill hn hp]

/-- The blocks of a padding string keep the length of the hash state. -/
theorem compressBytes_length (E : Engine) {p : List Byte} {n : Nat} (hn : n * E.nb ≤ p.length) {v : List Byte}
    (hv : v.length = E.nb) : (compressBytes E p n v).length = E.nb := by
  induction n with
  | zero => exact hv
  | succ n ih =>
    rw [Nat.succ_mul] at hn
    rw [compressBytes_succ]
    exact compress_length E (ih (by omega)) (by rw [slice_length]; omega)

/-- The state IVLOAD and PAD leave. -/
def primed (s : State) : State := padded (commit (State.loadHashState (initialValue (State.nb s)) s))

/-- That state with another BLK_ADDR. -/
def primedAt (b : Word) (s : State) : State := { primed s with blkAddr := b }

/-- The hash state after the message's full blocks, and after its padding. -/
def prefixHash (s : State) : List Byte :=
  foldBlocks (State.engine s) s.dmem s.msgAddr.toNat
    (List.range (prefixLen (State.nb s) (State.msgBits s) / State.nb s)) (initialValue (State.nb s))

def paddedHash (s : State) : List Byte :=
  compressBytes (State.engine s) (messagePadding s).bytes ((messagePadding s).bytes.length / State.nb s)
    (prefixHash s)

/-- The state of the hash function is the output transformation of the hash state after the padding. -/
theorem hashOut_state (s : State) : (hashOut s).state = outputTransform (State.engine s) (paddedHash s) := rfl

section
variable {s : State} (hc : State.HasContext s)
include hc

theorem initialValue_length_nb : (initialValue (State.nb s)).length = State.nb s := by
  have hnb := twelve_lt_nb hc
  rw [initialValue_length]
  omega

theorem prefixHash_length : (prefixHash s).length = State.nb s :=
  foldBlocks_length _ _ _ _ (initialValue_length_nb hc)

theorem paddedHash_length : (paddedHash s).length = State.nb s :=
  compressBytes_length _ (Nat.div_mul_le_self _ _) (prefixHash_length hc)

theorem hashOut_state_length : (hashOut s).state.length = State.nb s :=
  outputTransform_length _ (paddedHash_length hc)

theorem primed_eq_hashed : primed s = hashed (initialValue (State.nb s)) (primed s) := by
  have hcp : State.HasContext (primed s) := hc
  have hbytes : State.hashBytes (primed s) = initialValue (State.nb s) := by
    have hfit := nb_le_128 hc
    refine string_ext ((hashBytes_length hcp.2).trans (initialValue_length_nb hc).symm) fun k hk => ?_
    have hk : k < State.nb s := hk.trans_eq (hashBytes_length hcp.2)
    rw [hashBytes_getD, if_pos (show k < State.nb (primed s) from hk)]
    exact (loadHashState_stateByte _ s k).trans (if_pos (by omega))
  rw [← hbytes]
  exact (hashed_self hcp rfl rfl).symm

/-- COMPRESS_PAD, OUTXF and TRUNC after the message's full blocks. -/
theorem execAll_finish_hash (b : Word) :
    execAll [.compressPad, .outxf, .trunc] (hashed (prefixHash s) (primedAt b s)) =
      .next (commit (State.putDigest (hashOut s).code (hashed (hashOut s).state (primedAt b s)))) := by
  have hcb : State.HasContext (primedAt b s) := hc
  have hlen : (messagePadding s).bytes.length = padLen (State.nb s) (State.msgBits s) := padString_length ..
  have hblocks : (messagePadding s).bytes.length / State.nb s * State.nb s = (messagePadding s).bytes.length :=
    Nat.div_mul_cancel (hlen ▸ dvd_padLen (twelve_lt_nb hc) _)
  have hpad : (primedAt b s).padNbytes.toNat = (messagePadding s).bytes.length / State.nb s * State.nb s := by
    rw [hblocks, hlen]
    exact padded_padNbytes_toNat (s := commit (State.loadHashState (initialValue (State.nb s)) s)) hc
  have hfold : compressBytes (State.engine (primedAt b s)) (primedAt b s).padbuf.toList
      ((messagePadding s).bytes.length / State.nb s) (prefixHash s) = paddedHash s :=
    compressBytes_zeroFill (State.engine s) (hlen.trans_le (padLen_le_256 hc _)) hblocks.le _
  have hafterPad := exec_compressPad_hashed (v := prefixHash s) hcb (prefixHash_length hc) hpad
    (by rw [hfold]; exact paddedHash_length hc)
  have hafterOutxf := computes_outxf.exec_hashed (v := paddedHash s) hcb (paddedHash_length hc)
  have hafterTrunc := exec_trunc_hashed (v := (hashOut s).state) hcb (hashOut_state_length hc)
  rw [hfold] at hafterPad
  exact (execAll_cons hafterPad _).trans ((execAll_cons hafterOutxf _).trans (execAll_cons hafterTrunc []))

/-- The full blocks of a message inside DMEM are inside DMEM. -/
theorem block_inside (hm : State.MessageInside s) {j : Nat}
    (hj : j < prefixLen (State.nb s) (State.msgBits s) / State.nb s) :
    s.msgAddr.toNat + j * State.nb s + State.nb s ≤ State.dmemBytes s := by
  have hnb := twelve_lt_nb hc
  have hprefix := prefixLen_add_remLen (State.nb s) (State.msgBits s)
  have hblock : (j + 1) * State.nb s ≤ prefixLen (State.nb s) (State.msgBits s) :=
    (Nat.mul_le_mul_right _ hj).trans (Nat.div_mul_le_self _ _)
  rw [Nat.succ_mul] at hblock
  unfold State.MessageInside State.RegionInside at hm
  rw [wholeBytes] at hprefix
  omega

theorem hashByUnits_eq (hm : State.MessageInside s) :
    ∃ b, hashByUnits s =
      .next (commit (State.putDigest (hashOut s).code (hashed (hashOut s).state (primedAt b s)))) := by
  have hprimed : execAll [.ivload, .pad] s = .next (primed s) := by
    rw [execAll_cons (exec_ivload hc)]
    exact execAll_cons (exec_pad (s := commit (State.loadHashState (initialValue (State.nb s)) s)) hc hm) []
  have hdata : (primed s).dataNbytes.toNat = prefixLen (State.nb s) (State.msgBits s) :=
    padded_dataNbytes_toNat (commit (State.loadHashState (initialValue (State.nb s)) s))
  obtain ⟨b, hb⟩ := compressPrefix_hashed (s := primed s) hc (a := s.msgAddr.toNat)
    (List.range (prefixLen (State.nb s) (State.msgBits s) / State.nb s))
    (fun j hj => block_inside hc hm (List.mem_range.1 hj)) (v := initialValue (State.nb s))
    (initialValue_length_nb hc)
  rw [← primed_eq_hashed hc] at hb
  refine ⟨b, ?_⟩
  rw [hashByUnits, hprimed, andThen, hdata]
  exact (congrArg (andThen · _) hb).trans (execAll_finish_hash hc b)

/-- STATE is loaded with the hash's state over zeros, or has it written over the initial value. -/
theorem overwrite_zeroFill_initialValue {v : List Byte} (hv : v.length = State.nb s) :
    overwrite (zeroFill 128 (initialValue (State.nb s))) v = zeroFill 128 v := by
  have hfit := nb_le_128 hc
  have hinit := initialValue_length_nb hc
  refine array_ext fun k hk => ?_
  rw [overwrite_getD _ _ _ (by omega), zeroFill_getD, zeroFill_getD, if_pos hk, if_pos hk]
  split
  · rfl
  · rw [getD_beyond (by omega), getD_beyond (by omega)]

end

/-- Settles O46: the unit commands leave `hashOut` piece by piece, and STATE above NB is 0 on both sides. -/
theorem hashEqualsUnitCommands : Obligations.HashEqualsUnitCommands := by
  unfold Obligations.HashEqualsUnitCommands
  intro s hc hm
  obtain ⟨b, hb⟩ := hashByUnits_eq hc hm
  refine ⟨hashedMessage s, _, exec_hash_eq hc hm, commit_putHash_frame (hashOut s) s, hb, ?_⟩
  have hstate := overwrite_zeroFill_initialValue hc (hashOut_state_length hc)
  exact congrArg (fun w => { hashedMessage s with hashState := w }) hstate.symm

end Sys2Proof.Machine
end

section
/-! PROOFS. The statements of spec/20_memory.md on accesses: the register map (R66, R67), byte lanes (R60), DMEM words
(R61), reads while BUSY = 1 (R65), and the acceptance of a command (R264). A register word stands at one offset
(`regOffset_of_regAt`), a bit of a written word is that of the data or the old one by its lane (`mergeLanes_getLsbD`),
and an idle core answers `regWord`. -/

namespace Sys2Proof.Machine

open Sys2Proof

/-! ## Byte lanes (R60) -/

theorem laneByte_getLsbD (w : Word) (i : Nat) {k : Nat} (hk : k < 8) :
    (laneByte w i).getLsbD k = w.getLsbD (8 * i + k) := by
  simp [laneByte, hk]

/-- Bit j of the word of four bytes is bit j mod 8 of byte j div 8. -/
theorem wordOfBytes_getLsbD (b : Nat → Byte) {j : Nat} (hj : j < 32) :
    (wordOfBytes (b 0) (b 1) (b 2) (b 3)).getLsbD j = (b (j / 8)).getLsbD (j % 8) := by
  rw [← laneByte_wordOfBytes b (show j / 8 < 4 by omega), laneByte_getLsbD _ _ (Nat.mod_lt j (by decide)),
    Nat.div_add_mod]

theorem laneMask_getLsbD (strb : BitVec 4) {j : Nat} (hj : j < 32) :
    (laneMask strb).getLsbD j = strb.getLsbD (j / 8) := by
  have hones : ∀ k < 8, (0xFF : Byte).getLsbD k = true := by decide
  rw [laneMask, wordOfBytes_getLsbD (fun i => if strb.getLsbD i then 0xFF else 0) hj]
  cases strb.getLsbD (j / 8) with
  | true => exact hones _ (Nat.mod_lt j (by decide))
  | false => simp

theorem mergeLanes_getLsbD (old data : Word) (strb : BitVec 4) {j : Nat} (hj : j < 32) :
    (mergeLanes old data strb).getLsbD j = if strb.getLsbD (j / 8) then data.getLsbD j else old.getLsbD j := by
  simp only [mergeLanes, BitVec.getLsbD_or, BitVec.getLsbD_and, BitVec.getLsbD_not, laneMask_getLsbD strb hj]
  cases strb.getLsbD (j / 8) <;> simp [hj]

theorem lanesWritten_mergeLanes (old data : Word) (strb : BitVec 4) :
    LanesWritten old data strb (mergeLanes old data strb) :=
  fun _ hj => mergeLanes_getLsbD old data strb hj

theorem maskLanes_getLsbD (data : Word) (strb : BitVec 4) {j : Nat} (hj : j < 32) :
    (maskLanes data strb).getLsbD j = (data.getLsbD j && strb.getLsbD (j / 8)) := by
  rw [maskLanes, BitVec.getLsbD_and, laneMask_getLsbD strb hj]

theorem windowWord_getLsbD {n : Nat} (w : Vector Byte n) (k : Nat) {j : Nat} (hj : j < 32) :
    (windowWord w k).getLsbD j = (w.toList.getD (k + j / 8) 0).getLsbD (j % 8) :=
  wordOfBytes_getLsbD (fun i => w.toList.getD (k + i) 0) hj

/-- Every byte of a window after a write of the word at byte index k. -/
theorem writeWindow_getD_eq {n : Nat} (w : Vector Byte n) (k : Nat) (data : Word) (strb : BitVec 4) (x : Nat) :
    (writeWindow w k data strb).toList.getD x 0 =
      if x < n ∧ k ≤ x ∧ x < k + 4 ∧ strb.getLsbD (x - k) = true then laneByte data (x - k) else w.toList.getD x 0 := by
  rw [writeWindow, fillBytes_getD]
  by_cases hx : x < n
  · simp [hx]
  · rw [if_neg hx, if_neg fun h => hx h.1, getD_beyond (by simpa using Nat.le_of_not_lt hx)]

/-! ## The register map (R66, R67) -/

/-- An offset names only the register that stands there. -/
theorem regOffset_of_regAt {off : BitVec 12} {r : Reg} (h : regAt off = some r) :
    r.wellFormed = true ∧ off.toNat / 4 * 4 = regOffset r := by
  unfold regAt at h
  split at h
  case h_19 =>
    dsimp only at h
    split_ifs at h <;> cases h
    all_goals exact ⟨windowIndexOk_iff.2 (by omega), by simp only [regOffset]; omega⟩
  all_goals
    next hword =>
      cases h
      exact ⟨rfl, congrArg (· * 4) hword⟩

/-- The argument registers (R36), which the host writes and every command may read. -/
def isArgument : Reg → Bool
  | .argOutbits | .msgAddr | .msgBitsLo | .msgBitsHi | .keyAddr | .keyBits | .synAddr | .blkAddr | .gfOps => true
  | .ctrl | .cmd | .status | .cfg | .gfRes | .synNbytes | .padInfo | .dataNbytesLo | .dataNbytesHi => false
  | .stateWin _ | .padbufWin _ | .digestWin _ => false

theorem regAt_argument {off : BitVec 12} (hlo : 0x010 ≤ off.toNat) (hhi : off.toNat < 0x034) :
    ∃ r, regAt off = some r ∧ isArgument r = true := by
  obtain ⟨n, hn⟩ : ∃ n, off.toNat / 4 = n := ⟨_, rfl⟩
  have hlo : 4 ≤ n := by omega
  have hhi : n ≤ 12 := by omega
  unfold regAt
  rw [hn]
  interval_cases n <;> exact ⟨_, rfl, rfl⟩

theorem regAt_result {off : BitVec 12}
    (h : (0x034 ≤ off.toNat ∧ off.toNat < 0x048) ∨ (0x100 ≤ off.toNat ∧ off.toNat < 0x180)
      ∨ (0x200 ≤ off.toNat ∧ off.toNat < 0x340)) : ∃ r, regAt off = some r ∧ isResult r = true := by
  rcases h with h | h | h
  · obtain ⟨n, hn⟩ : ∃ n, off.toNat / 4 = n := ⟨_, rfl⟩
    have hlo : 13 ≤ n := by omega
    have hhi : n ≤ 17 := by omega
    unfold regAt
    rw [hn]
    interval_cases n <;> exact ⟨_, rfl, rfl⟩
  · exact ⟨_, regAt_stateWin h.1 h.2, rfl⟩
  · rw [regAt_of_window rfl (by omega), if_neg (by omega)]
    split
    · exact ⟨_, rfl, rfl⟩
    · rw [if_pos (by omega)]
      exact ⟨_, rfl, rfl⟩

/-- No register stands at an offset outside the map. -/
theorem regAt_unmapped {off : BitVec 12}
    (h : (0x048 ≤ off.toNat ∧ off.toNat < 0x100) ∨ (0x180 ≤ off.toNat ∧ off.toNat < 0x200) ∨ 0x340 ≤ off.toNat) :
    regAt off = none := by
  refine Option.eq_none_iff_forall_ne_some.2 fun r hr => ?_
  obtain ⟨hwf, hoff⟩ := regOffset_of_regAt hr
  cases r with
  | stateWin k | padbufWin k | digestWin k =>
    obtain ⟨_, hk⟩ := windowIndexOk_iff.1 hwf
    simp only [regOffset] at hoff
    omega
  | _ =>
    simp only [regOffset] at hoff
    omega

/-- A write to a register the host only reads changes nothing. -/
theorem writeReg_readOnly {off : BitVec 12} {r : Reg} (hr : regAt off = some r)
    (h : off.toNat / 4 = 3 ∨ (0x034 ≤ off.toNat ∧ off.toNat < 0x100) ∨ 0x180 ≤ off.toNat) (data : Word)
    (strb : BitVec 4) (s : State) : writeReg r data strb s = s := by
  obtain ⟨hwf, hoff⟩ := regOffset_of_regAt hr
  cases r with
  | cfg | gfRes | synNbytes | padInfo | dataNbytesLo | dataNbytesHi | padbufWin | digestWin => rfl
  | stateWin k =>
    obtain ⟨_, hk⟩ := windowIndexOk_iff.1 hwf
    simp only [regOffset] at hoff
    omega
  | _ =>
    simp only [regOffset] at hoff
    omega

/-! ## Accesses of an idle core -/

/-- What the host reads at an offset by the normal rules (R60, R67). -/
def regWord (off : BitVec 12) (s : State) : Word := ((regAt off).map (readReg s)).getD 0

theorem regWord_of_regAt {off : BitVec 12} {r : Reg} (h : regAt off = some r) (s : State) :
    regWord off s = readReg s r := by
  rw [regWord, h, Option.map_some, Option.getD_some]

theorem regWord_of_none {off : BitVec 12} (h : regAt off = none) (s : State) : regWord off s = 0 := by
  rw [regWord, h, Option.map_none, Option.getD_none]

theorem hostReadReg_unmapped {off : BitVec 12} (h : regAt off = none) (s : State) :
    hostReadReg off s = answer 0 s := by
  unfold hostReadReg
  rw [h]
  split <;> rfl

theorem applyInput_regRead {s : State} (hp : s.phase = .idle) (hr : s.resetHeld = false) (off : BitVec 12) :
    applyInput (.regRead off) s = answer (regWord off s) s := by
  cases h : regAt off with
  | none => rw [regWord_of_none h, applyInput, hostReadReg_unmapped h]
  | some r => rw [regWord_of_regAt h, applyInput_regRead_idle hp hr h]

theorem hostWrite_idle {s : State} (hp : s.phase = .idle) (hr : s.resetHeld = false) (effect : State → State) :
    hostWrite effect s = effect s := by
  simp [hostWrite, State.busy, hp, hr]

theorem applyInput_regWrite {s : State} {off : BitVec 12} {r : Reg} (hp : s.phase = .idle) (hr : s.resetHeld = false)
    (hreg : regAt off = some r) (data : Word) (strb : BitVec 4) :
    applyInput (.regWrite off data strb) s = writeReg r data strb s := by
  rw [applyInput, hostWriteReg, hostWrite_idle hp hr, hreg]

theorem applyInput_regWrite_unmapped {s : State} {off : BitVec 12} (hp : s.phase = .idle) (hr : s.resetHeld = false)
    (hreg : regAt off = none) (data : Word) (strb : BitVec 4) : applyInput (.regWrite off data strb) s = s := by
  rw [applyInput, hostWriteReg, hostWrite_idle hp hr, hreg]

theorem applyInput_dmemWrite {s : State} (hp : s.phase = .idle) (hr : s.resetHeld = false) (addr data : Word)
    (strb : BitVec 4) :
    applyInput (.dmemWrite addr data strb) s =
      { s with dmem := writeDmemWord (State.dmemBytes s) (wordBase addr) data strb s.dmem } := by
  rw [applyInput, hostWriteDmem, hostWrite_idle hp hr]

/-- Settles O9: the word accepted is the data under the mask of the lanes. -/
theorem cmdWriteIsAccepted : Obligations.CmdWriteIsAccepted := by
  unfold Obligations.CmdWriteIsAccepted
  intro s off data strb hp hr hoff
  have hreg : regAt off = some .cmd := regAt_of_regOffset rfl (congrArg (· * 4) hoff)
  exact ⟨maskLanes data strb, applyInput_regWrite hp hr hreg data strb, fun j hj => maskLanes_getLsbD data strb hj⟩

/-! ## Reads while BUSY = 1 (R65) -/

theorem busy_of_running {s : State} {w : Word} (hp : s.phase = .running w) : State.busy s = true := by
  rw [State.busy, hp]

theorem applyInput_regRead_busy {s : State} {w : Word} {off : BitVec 12} {r : Reg} (hp : s.phase = .running w)
    (hr : s.resetHeld = false) (hreg : regAt off = some r) :
    applyInput (.regRead off) s = if isResult r then answerUnspecified s else answer (readReg s r) s := by
  simp [applyInput, hostReadReg, busy_of_running hp, hr, hreg]

theorem applyInput_dmemRead_busy {s : State} {w : Word} (hp : s.phase = .running w) (hr : s.resetHeld = false)
    {addr : Word} (h : addr.toNat / 4 * 4 < State.dmemBytes s) :
    applyInput (.dmemRead addr) s = answerUnspecified s := by
  simp [applyInput, hostReadDmem, busy_of_running hp, hr, wordBase, h]

theorem isResult_of_isArgument {r : Reg} (h : isArgument r = true) : isResult r = false := by
  cases r <;> simp_all [isArgument, isResult]

/-- An argument register reads alike in every phase. -/
theorem readReg_phase {r : Reg} (h : isArgument r = true) (s : State) (p : Phase) :
    readReg { s with phase := p } r = readReg s r := by
  cases r with
  | status => exact absurd h nofun
  | _ => rfl

/-- No word the host reads by the normal rules depends on the draws. -/
theorem regWord_draws (off : BitVec 12) (s : State) (n : Nat) : regWord off { s with draws := n } = regWord off s := by
  have hread : readReg { s with draws := n } = readReg s := funext fun r => by cases r <;> rfl
  rw [regWord, hread, regWord]

section
variable {s : State} (hp : s.phase = .idle) (hr : s.resetHeld = false)
include hp hr

theorem regRead_idle_draws (off : BitVec 12) : (applyInput (.regRead off) s).draws = s.draws := by
  rw [applyInput_regRead hp hr, answer_draws]

theorem dmemRead_idle_draws (addr : Word) : (applyInput (.dmemRead addr) s).draws = s.draws := by
  rw [applyInput_dmemRead_idle hp hr, answer_draws]

theorem regRead_idle_rdata (off : BitVec 12) (n : Nat) :
    (applyInput (.regRead off) { s with draws := n }).rdata = (applyInput (.regRead off) s).rdata := by
  rw [applyInput_regRead (s := { s with draws := n }) hp hr, applyInput_regRead hp hr, regWord_draws]
  rfl

theorem dmemRead_idle_rdata (addr : Word) (n : Nat) :
    (applyInput (.dmemRead addr) { s with draws := n }).rdata = (applyInput (.dmemRead addr) s).rdata := by
  rw [applyInput_dmemRead_idle (s := { s with draws := n }) hp hr, applyInput_dmemRead_idle hp hr]
  rfl

end

/-- Settles O51: the result registers and DMEM draw, the others answer, and an idle core never draws. -/
theorem busyReadsAreUnspecified : Obligations.BusyReadsAreUnspecified := by
  unfold Obligations.BusyReadsAreUnspecified
  intro s w hp hr
  refine ⟨fun off h => ?_, fun addr h => applyInput_dmemRead_busy hp hr h,
    applyInput_regRead_busy (r := .ctrl) hp hr rfl, applyInput_regRead_busy (r := .cmd) hp hr rfl,
    applyInput_regRead_busy (r := .status) hp hr rfl, applyInput_regRead_busy (r := .cfg) hp hr rfl,
    fun off hlo hhi => ?_, fun off addr => ?_⟩
  · obtain ⟨r, hreg, hres⟩ := regAt_result h
    rw [applyInput_regRead_busy hp hr hreg, if_pos hres, answerUnspecified]
  · obtain ⟨r, hreg, harg⟩ := regAt_argument hlo hhi
    refine ⟨readReg s r, ?_, ?_⟩
    · rw [applyInput_regRead_busy hp hr hreg, isResult_of_isArgument harg]
      rfl
    · rw [applyInput_regRead_idle (s := { s with phase := .idle }) rfl hr hreg, readReg_phase harg, answer]
  · exact ⟨regRead_idle_draws (s := { s with phase := .idle }) rfl hr off,
      dmemRead_idle_draws (s := { s with phase := .idle }) rfl hr addr,
      fun n => ⟨regRead_idle_rdata (s := { s with phase := .idle }) rfl hr off n,
        dmemRead_idle_rdata (s := { s with phase := .idle }) rfl hr addr n⟩⟩

end Sys2Proof.Machine
end

section
/-! PROOFS. What every step keeps: the invariant (spec/10_state.md R28, R33, R34, spec/20_memory.md R61,
spec/60_exceptions.md R263, R264, spec/70_reset_and_hazards.md R290), CFG, DROP, the tables and the parameters. What an
input and a step can do is said once, by `applyInput_cases` and `step_effect`. -/

namespace Sys2Proof.Machine

open Sys2Proof

/-! ## What an input and a step can do -/

/-- Input x changes the word last read, the draws and DROP alone, which it only sets, and not under reset. -/
def TouchesBusOnly (x : Input) (s : State) : Prop :=
  ∃ d r n, (s.drop = true → d = true) ∧ (s.resetHeld = true → d = s.drop)
    ∧ applyInput x s = { s with drop := d, rdata := r, draws := n }

theorem touchesBusOnly_of_same {x : Input} {s : State} (h : applyInput x s = s) : TouchesBusOnly x s :=
  ⟨s.drop, s.rdata, s.draws, id, fun _ => rfl, h⟩

theorem touchesBusOnly_of_drop {x : Input} {s : State} (hr : s.resetHeld = false)
    (h : applyInput x s = { s with drop := true }) : TouchesBusOnly x s :=
  ⟨true, s.rdata, s.draws, fun _ => rfl, fun hr' => by simp [hr] at hr', h⟩

/-- An input is a read, a write that is ignored or dropped, a write that is taken while the core is idle, or an edge of
the reset input. -/
theorem applyInput_cases (x : Input) (s : State) :
    TouchesBusOnly x s
      ∨ (∃ off data strb r, x = .regWrite off data strb ∧ regAt off = some r ∧ s.resetHeld = false
          ∧ State.busy s = false ∧ applyInput x s = writeReg r data strb s)
      ∨ (∃ addr data strb, s.resetHeld = false
          ∧ applyInput x s = { s with dmem := writeDmemWord (State.dmemBytes s) (wordBase addr) data strb s.dmem })
      ∨ (x = .resetAssert ∧ applyInput x s = assertReset s)
      ∨ applyInput x s = releaseReset s := by
  cases x with
  | regWrite off data strb =>
    rcases hostWriteReg_cases off data strb s with h | ⟨hr, _, h⟩ | ⟨r, ha, hr, hb, h⟩
    · exact .inl (touchesBusOnly_of_same h)
    · exact .inl (touchesBusOnly_of_drop hr h)
    · exact .inr (.inl ⟨off, data, strb, r, rfl, ha, hr, hb, h⟩)
  | regRead off =>
    obtain ⟨v, n, h⟩ := hostReadReg_keeps off s
    exact .inl ⟨s.drop, v, n, id, fun _ => rfl, h⟩
  | dmemWrite addr data strb =>
    rcases hostWriteDmem_cases addr data strb s with h | ⟨hr, _, h⟩ | ⟨hr, _, h⟩
    · exact .inl (touchesBusOnly_of_same h)
    · exact .inl (touchesBusOnly_of_drop hr h)
    · exact .inr (.inr (.inl ⟨addr, data, strb, hr, h⟩))
  | dmemRead addr =>
    obtain ⟨v, n, h⟩ := hostReadDmem_keeps addr s
    exact .inl ⟨s.drop, v, n, id, fun _ => rfl, h⟩
  | resetAssert => exact .inr (.inr (.inr (.inl ⟨rfl, rfl⟩)))
  | resetRelease =>
    cases hr : s.resetHeld with
    | true => exact .inr (.inr (.inr (.inr (if_pos hr))))
    | false => exact .inl (touchesBusOnly_of_same (if_neg (by simp [hr])))

/-- A step is an input, the core's turn, or a poll, with the schedule moved on. -/
theorem step_effect {s t : State} (h : step s = .next t) :
    (∃ x rest, s.schedule = .input x :: rest ∧ t = applyInput x (State.popTurn s))
      ∨ (∃ ts, coreTurn { s with schedule := ts } = .next t)
      ∨ ∃ r ts, t = { s with rdata := r, schedule := ts } := by
  rcases step_cases h with hin | ⟨_, hcore⟩ | ⟨polls, rest, _, ⟨_, _, hcore⟩ | ⟨_, rfl⟩⟩
  · exact .inl hin
  · exact .inr (.inl ⟨_, hcore⟩)
  · exact .inr (.inl ⟨s.schedule, hcore⟩)
  · exact .inr (.inr ⟨_, _, pollStatus_eq polls rest s⟩)

/-! ## Checks that passed -/

/-- A command other than INIT and GFMUL whose checks pass has VALID = 1 (R29). -/
theorem valid_of_check_none {i : Instr} {s : State} (hi : i ≠ .init) (hg : i ≠ .gfmul) (h : checkOf i s = none) :
    s.cfg.valid = true := by
  by_contra hv
  rw [checkOf_of_not_valid hi hg (Bool.eq_false_iff.2 hv)] at h
  cases h

/-- MAC and KMAC_BUILD pass their checks only with the synthetic buffer inside DMEM (R225). -/
theorem synInside_of_firstMacError_none {s : State} (h : firstMacError s = none) :
    State.RegionInside s s.synAddr.toNat (State.synLen s) := by
  by_contra hout
  unfold firstMacError at h
  split_ifs at h

theorem code_ne_noError {i : Instr} {s : State} {c : ErrCode} (h : checkOf i s = some c) : c ≠ .noError := by
  rintro rfl
  have hmem := checkOf_mem_mayRaise h
  cases i <;> simp [mayRaise] at hmem

/-! ## The hash context (R28, R33, R34) -/

theorem contextOk_congr {s t : State} (h : State.ContextOk s) (hcfg : t.cfg = s.cfg)
    (hbuf : t.padbuf = s.padbuf) (hpad : t.padNbytes = s.padNbytes) (hdata : t.dataNbytes = s.dataNbytes) :
    State.ContextOk t := by
  simpa only [State.ContextOk, State.nb, State.padByte, hcfg, hbuf, hpad, hdata] using h

/-- A context with nothing padded. -/
theorem contextOk_of_zero {s : State} (hcfg : Cfg.legal s.cfg = true) (hpad : s.padNbytes = 0)
    (hdata : s.dataNbytes = 0) (hbuf : ∀ k, State.padByte s k = 0) : State.ContextOk s :=
  ⟨hcfg, by simp [hpad], by simp [hdata], fun k _ _ => hbuf k⟩

theorem contextOk_of_padding {s : State} (hc : State.HasContext s) (m : Memory) (L : DWord) (a : Nat) :
    State.ContextOk (State.putPadding (padFn m (State.nb s) L a) s) := by
  have hfit : (padFn m (State.nb s) L a).bytes.length ≤ 256 := (padString_length ..).trans_le (padLen_le_256 hc L)
  have hpad : (State.putPadding (padFn m (State.nb s) L a) s).padNbytes.toNat = padLen (State.nb s) L := by
    rw [State.putPadding_padNbytes, BitVec.toNat_ofNat, Nat.mod_eq_of_lt (by omega), padFn_bytes, padString_length]
  have hprefix : prefixLen (State.nb s) L < 2 ^ 64 :=
    ((Nat.sub_le _ _).trans (Nat.div_le_self _ _)).trans_lt L.isLt
  have hdata : (State.putPadding (padFn m (State.nb s) L a) s).dataNbytes.toNat = prefixLen (State.nb s) L :=
    (BitVec.toNat_ofNat ..).trans (Nat.mod_eq_of_lt hprefix)
  refine ⟨hc.2, ?_, ?_, fun k _ hk => ?_⟩
  · rw [hpad, padLen_eq (twelve_lt_nb hc)]
    split <;> simp [State.nb]
  · rw [hdata]
    exact Nat.mod_eq_zero_of_dvd (dvd_prefixLen _ _)
  · rw [hpad] at hk
    rw [putPadding_padByte _ _ _ hfit]
    exact padString_above (by omega)

theorem legal_ofLength {n : Nat} (h : outLengthValid n = true) : Cfg.legal (Cfg.ofLength n) = true := by
  obtain ⟨_, _, hn⟩ := outLengthValid_iff.1 h
  simp [Cfg.legal, ofLength_outBits_toNat hn, h]

/-- A command's result keeps the context, or is INIT's, or has a padding of the context put into it. -/
theorem contextOk_resultOf {i : Instr} {s : State} (h : State.ContextOk s) (hcheck : checkOf i s = none) :
    State.ContextOk (resultOf i s) := by
  have hcontext : i ≠ .init → i ≠ .gfmul → State.HasContext s :=
    fun hi hg => ⟨valid_of_check_none hi hg hcheck, h.1⟩
  cases i with
  | init =>
    exact contextOk_of_zero (legal_ofLength (require_none_iff.1 hcheck)) rfl rfl (initialised_padByte s)
  | hash | mac | pad | kmacBuild =>
    exact contextOk_congr (contextOk_of_padding (hcontext nofun nofun) _ _ _) rfl rfl rfl rfl
  | _ => exact contextOk_congr h rfl rfl rfl rfl

/-! ## DMEM (R61) -/

theorem memoryOk_memWrite {s : State} (h : State.MemoryOk s) {a : Nat} {v : List Byte}
    (hin : State.RegionInside s a v.length) : State.MemoryOk { s with dmem := memWrite s.dmem a v } := by
  refine ⟨wf_memWrite a v h.1, fun c hcell => ?_⟩
  rcases mem_memWrite hcell with hold | hnew
  · exact h.2 c hold
  · unfold State.RegionInside at hin
    exact show c.1 < State.dmemBytes s by omega

theorem memoryOk_congr {s t : State} (h : State.MemoryOk s) (hd : t.dmem = s.dmem) (hp : t.params = s.params) :
    State.MemoryOk t := by
  simpa only [State.MemoryOk, State.dmemBytes, hd, hp] using h

theorem memoryOk_resultOf {i : Instr} {s : State} (h : State.MemoryOk s) (hcheck : checkOf i s = none) :
    State.MemoryOk (resultOf i s) := by
  by_cases hi : i = .mac ∨ i = .kmacBuild
  · have hchecks : (kmacCheck s).or (kmacRegions s) = none := by rcases hi with rfl | rfl <;> exact hcheck
    have hin := synInside_of_firstMacError_none ((kmacChecks_eq_firstMacError s).symm.trans hchecks)
    rw [← synBuffer_length] at hin
    exact memoryOk_congr (memoryOk_memWrite h hin) (resultOf_dmem_synthetic hi s) (resultOf_params i s)
  · exact memoryOk_congr h (resultOf_dmem (fun e => hi (.inl e)) (fun e => hi (.inr e)) s) (resultOf_params i s)

theorem memoryOk_writeDmemWord {s : State} (h : State.MemoryOk s) (a : Nat) (data : Word) (strb : BitVec 4) :
    State.MemoryOk { s with dmem := writeDmemWord (State.dmemBytes s) a data strb s.dmem } :=
  ⟨wf_writeDmemWord _ _ _ _ h.1, fun c hcell => (mem_writeDmemWord hcell).elim (h.2 c) id⟩

/-! ## STATUS and the reset input (R263, R264, R290) -/

/-- A state with the phase IDLE needs a code where ERR = 1, and no more. -/
theorem statusOk_of_idle {s : State} (hp : s.phase = .idle) (h : s.err = true → s.errCode ≠ .noError) :
    State.StatusOk s :=
  ⟨fun hb => by simp [State.busy, hp] at hb, h⟩

/-- A command runs only while the reset input is not asserted. -/
theorem resetHeld_of_running {s : State} {w : Word} (h : State.ResetOk s) (hp : s.phase = .running w) :
    s.resetHeld = false := by
  by_contra hr
  have hidle : s.phase = .idle := congrArg State.phase (h (Bool.eq_true_of_not_eq_false hr))
  cases hp.symm.trans hidle

theorem resetOk_of_not_held {s : State} (h : s.resetHeld = false) : State.ResetOk s :=
  fun hr => by simp [h] at hr

/-! ## The invariant -/

/-- The invariant does not speak of the schedule, the word last read and the draws, nor of DROP out of reset. -/
theorem inv_bus {s : State} (h : State.Inv s) {d : Bool} (hd : s.resetHeld = true → d = s.drop) (ts : List Turn)
    (r : Option Word) (n : Nat) : State.Inv { s with drop := d, schedule := ts, rdata := r, draws := n } := by
  obtain ⟨hstatus, hcontext, hmemory, hreset⟩ := h
  refine ⟨hstatus, hcontext, hmemory, fun hr => ?_⟩
  rw [hd hr]
  exact congrArg (fun s => { s with schedule := ts, rdata := r, draws := n }) (hreset hr)

/-- The end step of a command keeps the invariant: it commits a result, or raises an error with a code. -/
theorem inv_exec {i : Instr} {s t : State} (h : State.Inv s) (hr : s.resetHeld = false) (he : exec i s = .next t) :
    State.Inv t := by
  obtain ⟨hstatus, hcontext, hmemory, _⟩ := h
  rcases exec_cases he with ⟨hcheck, rfl⟩ | ⟨c, hcheck, rfl⟩
  · refine ⟨statusOk_of_idle rfl ?_, contextOk_congr (contextOk_resultOf hcontext hcheck) rfl rfl rfl rfl,
      memoryOk_resultOf hmemory hcheck, resetOk_of_not_held ((resultOf_resetHeld i s).trans hr)⟩
    simpa using hstatus.2
  · exact ⟨statusOk_of_idle rfl fun _ => code_ne_noError hcheck, hcontext, hmemory, resetOk_of_not_held hr⟩

theorem inv_coreTurn {s t : State} (h : State.Inv s) (ht : coreTurn s = .next t) : State.Inv t := by
  rcases coreTurn_cases ht with ⟨_, rfl⟩ | ⟨w, hp, hw⟩
  · exact h
  · have hr := resetHeld_of_running h.2.2.2 hp
    rcases runWord_cases hw with ⟨i, _, he⟩ | ⟨_, rfl⟩
    · exact inv_exec h hr he
    · obtain ⟨_, hcontext, hmemory, _⟩ := h
      exact ⟨statusOk_of_idle rfl nofun, hcontext, hmemory, resetOk_of_not_held hr⟩

/-- A write to a register word touches STATUS only by acceptance, which clears it, and by acknowledgement. -/
theorem statusOk_writeReg {s : State} (h : State.StatusOk s) (r : Reg) (data : Word) (strb : BitVec 4) :
    State.StatusOk (writeReg r data strb s) := by
  cases r with
  | cmd => exact ⟨fun _ => ⟨rfl, rfl, rfl⟩, nofun⟩
  | status =>
    refine ⟨fun hb => ?_, fun he => h.2 (Bool.and_elim_left he)⟩
    obtain ⟨hdone, herr, hcode⟩ := h.1 hb
    exact ⟨by simp [writeReg, hdone], by simp [writeReg, herr], hcode⟩
  | _ => exact h

theorem inv_writeReg {s : State} (h : State.Inv s) (hr : s.resetHeld = false) (r : Reg) (data : Word)
    (strb : BitVec 4) : State.Inv (writeReg r data strb s) := by
  obtain ⟨hstatus, hcontext, hmemory, _⟩ := h
  obtain ⟨hcfg, _, hparams, hdmem, hbuf, hpad, hdata, _, _, _, hheld, _⟩ := writeReg_keeps r data strb s
  exact ⟨statusOk_writeReg hstatus r data strb, contextOk_congr hcontext hcfg hbuf hpad hdata,
    memoryOk_congr hmemory hdmem hparams, resetOk_of_not_held (hheld.trans hr)⟩

/-- The reset state meets the invariant, with any DMEM in form. -/
theorem inv_assertReset {s : State} (h : State.MemoryOk s) : State.Inv (assertReset s) := by
  have hbuf : ∀ k, State.padByte (assertReset s) k = 0 := fun k => by
    rw [State.padByte, assertReset_padbuf, Vector.toList_replicate]
    exact zeros_getD 256 k
  exact ⟨statusOk_of_idle rfl nofun, contextOk_of_zero rfl rfl rfl hbuf, h, fun _ => rfl⟩

theorem inv_applyInput {s : State} (h : State.Inv s) (x : Input) : State.Inv (applyInput x s) := by
  rcases applyInput_cases x s with ⟨d, r, n, _, hd, e⟩ | ⟨_, data, strb, r, _, _, hr, _, e⟩
    | ⟨addr, data, strb, hr, e⟩ | ⟨_, e⟩ | e <;> rw [e]
  · exact inv_bus h hd s.schedule r n
  · exact inv_writeReg h hr r data strb
  · obtain ⟨hstatus, hcontext, hmemory, _⟩ := h
    exact ⟨hstatus, hcontext, memoryOk_writeDmemWord hmemory _ data strb, resetOk_of_not_held hr⟩
  · exact inv_assertReset h.2.2.1
  · obtain ⟨hstatus, hcontext, hmemory, _⟩ := h
    exact ⟨statusOk_of_idle rfl hstatus.2, hcontext, hmemory, resetOk_of_not_held rfl⟩

/-- Settles O17: every register is 0 and nothing is written in DMEM. -/
theorem invariantHoldsAtReset : Obligations.InvariantHoldsAtReset := by
  unfold Obligations.InvariantHoldsAtReset
  have h : State.MemoryOk State.reset := ⟨rfl, fun _ hc => absurd hc List.not_mem_nil⟩
  obtain ⟨hstatus, hcontext, hmemory, _⟩ := inv_assertReset h
  exact ⟨hstatus, hcontext, hmemory, resetOk_of_not_held rfl⟩

/-- Settles O18: the core's turn and every input keep the invariant, and the schedule is no part of it. -/
theorem stepKeepsInvariant : Obligations.StepKeepsInvariant := by
  unfold Obligations.StepKeepsInvariant
  intro s t h hstep
  rcases step_effect hstep with ⟨x, rest, _, rfl⟩ | ⟨ts, hcore⟩ | ⟨r, ts, rfl⟩
  · exact inv_applyInput (inv_bus h (fun _ => rfl) s.schedule.tail s.rdata s.draws) x
  · exact inv_coreTurn (inv_bus h (fun _ => rfl) ts s.rdata s.draws) hcore
  · exact inv_bus h (fun _ => rfl) ts r s.draws

/-! ## CFG, the tables and the parameters (R28, R29, R40) -/

/-- A command writes CFG only when it is INIT and succeeds. -/
theorem coreTurn_cfg {s t : State} (h : coreTurn s = .next t) :
    t.cfg = s.cfg ∨ ∃ w, s.phase = .running w ∧ decode w = some .init ∧ t.cfg.valid = true := by
  rcases coreTurn_cases h with ⟨_, rfl⟩ | ⟨w, hp, hw⟩
  · exact .inl rfl
  · rcases runWord_cases hw with ⟨i, hi, he⟩ | ⟨_, rfl⟩
    · rcases exec_cases he with ⟨_, rfl⟩ | ⟨c, _, rfl⟩
      · by_cases hinit : i = .init
        · subst hinit
          exact .inr ⟨w, hp, hi, rfl⟩
        · exact .inl (resultOf_cfg hinit s)
      · exact .inl rfl
    · exact .inl rfl

theorem applyInput_cfg (x : Input) (s : State) :
    (applyInput x s).cfg = s.cfg ∨ (x = .resetAssert ∧ (applyInput x s).cfg.valid = false) := by
  rcases applyInput_cases x s with ⟨_, _, _, _, _, e⟩ | ⟨_, data, strb, r, _, _, _, _, e⟩
    | ⟨_, _, _, _, e⟩ | ⟨hx, e⟩ | e <;> rw [e]
  · exact .inl rfl
  · exact .inl (writeReg_keeps r data strb s).1
  · exact .inl rfl
  · exact .inr ⟨hx, rfl⟩
  · exact .inl rfl

/-- Settles O19: the core's turn writes CFG by INIT, an input by asserting reset. -/
theorem onlyInitAndResetWriteCfg : Obligations.OnlyInitAndResetWriteCfg := by
  unfold Obligations.OnlyInitAndResetWriteCfg
  intro s t hstep hne
  rcases step_effect hstep with ⟨x, rest, hs, rfl⟩ | ⟨ts, hcore⟩ | ⟨r, ts, rfl⟩
  · rcases applyInput_cfg x (State.popTurn s) with hsame | ⟨rfl, hv⟩
    · exact absurd hsame hne
    · exact .inr ⟨by rw [hs]; rfl, hv⟩
  · exact .inl ((coreTurn_cfg hcore).resolve_left hne)
  · exact absurd rfl hne

theorem coreTurn_constants {s t : State} (h : coreTurn s = .next t) : t.rom = s.rom ∧ t.params = s.params := by
  rcases coreTurn_cases h with ⟨_, rfl⟩ | ⟨w, _, hw⟩
  · exact ⟨rfl, rfl⟩
  · rcases runWord_cases hw with ⟨i, _, he⟩ | ⟨_, rfl⟩
    · rcases exec_cases he with ⟨_, rfl⟩ | ⟨c, _, rfl⟩
      · exact ⟨resultOf_rom i s, resultOf_params i s⟩
      · exact ⟨rfl, rfl⟩
    · exact ⟨rfl, rfl⟩

theorem applyInput_constants (x : Input) (s : State) :
    (applyInput x s).rom = s.rom ∧ (applyInput x s).params = s.params := by
  rcases applyInput_cases x s with ⟨_, _, _, _, _, e⟩ | ⟨_, data, strb, r, _, _, _, _, e⟩
    | ⟨_, _, _, _, e⟩ | ⟨_, e⟩ | e <;> rw [e]
  · exact ⟨rfl, rfl⟩
  · obtain ⟨_, hrom, hparams, _⟩ := writeReg_keeps r data strb s
    exact ⟨hrom, hparams⟩
  all_goals exact ⟨rfl, rfl⟩

/-- Settles O21: neither the core's turn nor an input writes them. -/
theorem romNeverChanges : Obligations.RomNeverChanges := by
  unfold Obligations.RomNeverChanges
  intro s t hstep
  rcases step_effect hstep with ⟨x, rest, _, rfl⟩ | ⟨ts, hcore⟩ | ⟨r, ts, rfl⟩
  · exact applyInput_constants x (State.popTurn s)
  · have hkept := coreTurn_constants hcore
    exact hkept
  · exact ⟨rfl, rfl⟩

end Sys2Proof.Machine
end

section
/-! PROOFS. What the host reads back (spec/20_memory.md R60, R61, R63, R66, R67, spec/10_state.md R24, R36): a written
register or DMEM word, unmapped offsets and reserved bits, and the field each register shows. -/

namespace Sys2Proof.Machine

open Sys2Proof

/-! ## Reserved bits (R24, R26, R28, R33, R36, R37) -/

/-- A word whose bits under a mask are 0. -/
theorem and_mask_eq_zero {v mask : Word} (h : ∀ j < 32, mask.getLsbD j = true → v.getLsbD j = false) :
    v &&& mask = 0 := by
  refine BitVec.eq_of_getLsbD_eq fun j hj => ?_
  rw [BitVec.getLsbD_and]
  cases hm : mask.getLsbD j with
  | true => simp [h j hj hm]
  | false => simp

/-- A field of n bits shown in a word leaves the bits from n on 0. -/
theorem setWidth_and_mask {n : Nat} (x : BitVec n) {mask : Word} (h : ∀ j < 32, mask.getLsbD j = true → n ≤ j) :
    x.setWidth 32 &&& mask = 0 :=
  and_mask_eq_zero fun j hj hm => by rw [BitVec.getLsbD_setWidth, BitVec.getLsbD_of_ge x j (h j hj hm), Bool.and_false]

theorem ctrlWord_eq (s : State) : ctrlWord s = if s.ie then 1 else 0 := by
  rw [ctrlWord]
  cases s.ie <;> rfl

theorem ctrlWord_reserved (s : State) : ctrlWord s &&& 0xFFFFFFFE = 0 := by
  rw [ctrlWord_eq]
  cases s.ie <;> rfl

theorem statusWord_reserved (s : State) : statusWord s &&& 0xFFFFF0F0 = 0 := by
  have h : ∀ (c : BitVec 4) (d e r b : Bool),
      (0#20 ++ c ++ 0#4 ++ bit d ++ bit e ++ bit r ++ bit b : Word) &&& 0xFFFFF0F0 = 0 := by decide
  exact h ..

theorem cfgWord_reserved (c : Cfg) : Cfg.word c &&& 0x000CFC00 = 0 := by
  refine and_mask_eq_zero fun j hj hm => ?_
  have hbits : ∀ j < 32, (0x000CFC00 : Word).getLsbD j = true → (10 ≤ j ∧ j < 16) ∨ j = 18 ∨ j = 19 := by decide
  rw [Cfg.word]
  simp only [BitVec.getLsbD_append]
  rcases hbits j hj hm with ⟨hlo, hhi⟩ | rfl | rfl
  · interval_cases j <;> simp
  · simp
  · simp

/-- The reserved bits of a register read 0, whether the reset input is asserted or not. -/
theorem regRead_reserved {s : State} (hp : s.phase = .idle) {off : BitVec 12} {mask : Word}
    (h : regWord off s &&& mask = 0) :
    ∃ v, (applyInput (.regRead off) s).rdata = some v ∧ v &&& mask = 0 := by
  cases hr : s.resetHeld with
  | true => exact ⟨0, by simp [applyInput, hostReadReg, hr], BitVec.zero_and⟩
  | false => exact ⟨_, by rw [applyInput_regRead hp hr]; rfl, h⟩

/-- Settles O54: `regAt` answers no register, one the host does not write, or one with reserved bits. -/
theorem unmappedAndReadOnly : Obligations.UnmappedAndReadOnly := by
  unfold Obligations.UnmappedAndReadOnly
  refine ⟨fun s off h => hostReadReg_unmapped (regAt_unmapped h) s,
    fun s off data strb hr h => ⟨fun hp => ?_, fun hb => ?_⟩, fun s off mask hp hmem => ?_⟩
  · cases hreg : regAt off with
    | none => exact applyInput_regWrite_unmapped hp hr hreg data strb
    | some r => rw [applyInput_regWrite hp hr hreg, writeReg_readOnly hreg h]
  · simp [applyInput, hostWriteReg, hostWrite, hr, hb]
  · simp only [List.mem_cons, Prod.mk.injEq, List.not_mem_nil, or_false] at hmem
    rcases hmem with ⟨rfl, rfl⟩ | ⟨rfl, rfl⟩ | ⟨rfl, rfl⟩ | ⟨rfl, rfl⟩ | ⟨rfl, rfl⟩ | ⟨rfl, rfl⟩ <;>
      apply regRead_reserved hp
    · exact ctrlWord_reserved s
    · exact statusWord_reserved s
    · exact cfgWord_reserved s.cfg
    · exact setWidth_and_mask s.gfOps (by decide)
    · exact setWidth_and_mask s.gfRes (by decide)
    · exact setWidth_and_mask s.padNbytes (by decide)

/-! ## A register read back (R60) -/

/-- The registers and window words that hold what the host writes. -/
def storesWrites (r : Reg) : Prop := r = .ctrl ∨ isArgument r = true ∨ ∃ k, r = .stateWin k

/-- The bits such a register has. -/
def storedWidth : Reg → Nat
  | .ctrl => 1
  | .gfOps => 16
  | .cmd | .status | .cfg | .argOutbits | .msgAddr | .msgBitsLo | .msgBitsHi | .keyAddr | .keyBits | .synAddr
  | .blkAddr | .gfRes | .synNbytes | .padInfo | .dataNbytesLo | .dataNbytesHi => 32
  | .stateWin _ | .padbufWin _ | .digestWin _ => 32

theorem ctrlWord_getLsbD (s : State) (j : Nat) :
    (ctrlWord s).getLsbD j = if j < 1 then s.ie else false := by
  rw [ctrlWord_eq]
  cases j <;> cases s.ie <;> simp

theorem laneByte_getLsbD_mod (data : Word) (j : Nat) :
    (laneByte data (j / 8)).getLsbD (j % 8) = data.getLsbD j := by
  rw [laneByte_getLsbD _ _ (Nat.mod_lt j (by decide)), Nat.div_add_mod]

theorem windowWord_writeWindow_same {n : Nat} (w : Vector Byte n) {k : Nat} (hk : k + 4 ≤ n) (data : Word)
    (strb : BitVec 4) {j : Nat} (hj : j < 32) :
    (windowWord (writeWindow w k data strb) k).getLsbD j =
      if strb.getLsbD (j / 8) then data.getLsbD j else (windowWord w k).getLsbD j := by
  rw [windowWord_getLsbD _ _ hj, windowWord_getLsbD _ _ hj, writeWindow_getD_eq, Nat.add_sub_cancel_left]
  have hlane : k + j / 8 < n ∧ k ≤ k + j / 8 ∧ k + j / 8 < k + 4 := by omega
  simp only [hlane, true_and]
  split
  · exact laneByte_getLsbD_mod data j
  · rfl

theorem windowWord_writeWindow_other {n : Nat} (w : Vector Byte n) {k k' : Nat} (h : k' + 4 ≤ k ∨ k + 4 ≤ k')
    (data : Word) (strb : BitVec 4) : windowWord (writeWindow w k data strb) k' = windowWord w k' := by
  refine BitVec.eq_of_getLsbD_eq fun j hj => ?_
  rw [windowWord_getLsbD _ _ hj, windowWord_getLsbD _ _ hj, writeWindow_getD_eq, if_neg (by omega)]

/-- A register reads back the data on the enabled lanes, and what it held on the others. -/
theorem readReg_writeReg_same {r : Reg} (hr : storesWrites r) (hwf : r.wellFormed = true) (data : Word)
    (strb : BitVec 4) (s : State) {j : Nat} (hj : j < 32) :
    (readReg (writeReg r data strb s) r).getLsbD j =
      if j < storedWidth r then (if strb.getLsbD (j / 8) then data.getLsbD j else (readReg s r).getLsbD j)
      else false := by
  rcases hr with rfl | harg | ⟨k, rfl⟩
  · simp only [readReg, writeReg, storedWidth]
    rw [ctrlWord_getLsbD]
    refine ite_congr rfl (fun h => ?_) fun _ => rfl
    obtain rfl : j = 0 := by omega
    exact mergeLanes_getLsbD _ data strb hj
  · cases r with
    | gfOps =>
      simp only [readReg, writeReg, storedWidth]
      rw [BitVec.getLsbD_setWidth, BitVec.getLsbD_setWidth, mergeLanes_getLsbD _ _ _ hj]
      simp [hj]
    | argOutbits | msgAddr | msgBitsLo | msgBitsHi | keyAddr | keyBits | synAddr | blkAddr =>
      rw [storedWidth, if_pos hj]
      exact mergeLanes_getLsbD _ data strb hj
    | _ => exact absurd harg nofun
  · obtain ⟨_, hk⟩ := windowIndexOk_iff.1 hwf
    rw [storedWidth, if_pos hj]
    exact windowWord_writeWindow_same s.hashState (by omega) data strb hj

/-- A write leaves what every other register and window word shows. -/
theorem readReg_writeReg_other {r r' : Reg} (hr : storesWrites r) (hwf : r.wellFormed = true)
    (hwf' : r'.wellFormed = true) (hne : r' ≠ r) (data : Word) (strb : BitVec 4) (s : State) :
    readReg (writeReg r data strb s) r' = readReg s r' := by
  cases r with
  | stateWin k =>
    cases r' with
    | stateWin k' =>
      obtain ⟨hk, _⟩ := windowIndexOk_iff.1 hwf
      obtain ⟨hk', _⟩ := windowIndexOk_iff.1 hwf'
      have hkk : k' ≠ k := fun h => hne (h ▸ rfl)
      exact windowWord_writeWindow_other _ (by omega) data strb
    | _ => rfl
  | cmd | status => simp [storesWrites, isArgument] at hr
  | _ => cases r' <;> simp [readReg, writeReg, ctrlWord, statusWord, State.busy] at hne ⊢

/-- A write to such a register does not start a command. -/
theorem writeReg_keeps_phase {r : Reg} (hr : storesWrites r) (data : Word) (strb : BitVec 4) (s : State) :
    (writeReg r data strb s).phase = s.phase := by
  cases r with
  | cmd => simp [storesWrites, isArgument] at hr
  | _ => rfl

theorem regAt_storesWrites {off : BitVec 12}
    (h : off.toNat / 4 = 0 ∨ (0x010 ≤ off.toNat ∧ off.toNat < 0x034) ∨ (0x100 ≤ off.toNat ∧ off.toNat < 0x180)) :
    ∃ r, regAt off = some r ∧ storesWrites r := by
  rcases h with h | ⟨hlo, hhi⟩ | ⟨hlo, hhi⟩
  · exact ⟨.ctrl, regAt_of_regOffset rfl (congrArg (· * 4) h), .inl rfl⟩
  · obtain ⟨r, hreg, harg⟩ := regAt_argument hlo hhi
    exact ⟨r, hreg, .inr (.inl harg)⟩
  · exact ⟨_, regAt_stateWin hlo hhi, .inr (.inr ⟨_, rfl⟩)⟩

theorem storedWidth_of_regAt {off : BitVec 12} {r : Reg} (h : regAt off = some r) :
    storedWidth r = if off.toNat / 4 = 0 then 1 else if off.toNat / 4 = 12 then 16 else 32 := by
  obtain ⟨_, hoff⟩ := regOffset_of_regAt h
  cases r with
  | ctrl =>
    simp only [regOffset] at hoff
    rw [if_pos (by omega), storedWidth]
  | gfOps =>
    simp only [regOffset] at hoff
    rw [if_neg (by omega), if_pos (by omega), storedWidth]
  | _ =>
    simp only [regOffset] at hoff
    rw [if_neg (by omega), if_neg (by omega), storedWidth]

/-- Settles O53: the register at the offset reads back, and the word at another offset is another register's. -/
theorem registerWriteThenRead : Obligations.RegisterWriteThenRead := by
  unfold Obligations.RegisterWriteThenRead
  intro s off data strb width hp hr hoff hwidth
  obtain ⟨r, hreg, hst⟩ := regAt_storesWrites hoff
  obtain ⟨hwf, hat⟩ := regOffset_of_regAt hreg
  obtain rfl := hwidth.trans (storedWidth_of_regAt hreg).symm
  obtain ⟨_, _, _, hdmem, _, _, _, _, _, _, hheld, _⟩ := writeReg_keeps r data strb s
  have hp' := (writeReg_keeps_phase hst data strb s).trans hp
  have hr' := hheld.trans hr
  rw [applyInput_regWrite hp hr hreg]
  refine ⟨⟨readReg s r, readReg (writeReg r data strb s) r, ?_, ?_, fun j hj => ?_⟩, fun off' hne => ?_, hdmem⟩
  · rw [applyInput_regRead_idle hp hr hreg, answer_rdata]
  · rw [applyInput_regRead_idle hp' hr' hreg, answer_rdata]
  · exact readReg_writeReg_same hst hwf data strb s hj
  · rw [applyInput_regRead hp' hr', applyInput_regRead hp hr, answer_rdata, answer_rdata]
    cases hreg' : regAt off' with
    | none => rw [regWord_of_none hreg', regWord_of_none hreg']
    | some r' =>
      obtain ⟨hwf', hat'⟩ := regOffset_of_regAt hreg'
      have hrr : r' ≠ r := fun h => hne (Nat.eq_of_mul_eq_mul_right (by decide) (hat'.trans (h ▸ hat.symm)))
      rw [regWord_of_regAt hreg', regWord_of_regAt hreg', readReg_writeReg_other hst hwf hwf' hrr]

/-! ## DMEM words (R61, R63) -/

theorem byte_writeDmemWord (m : Memory) (size a : Nat) (data : Word) (strb : BitVec 4) (b : Nat) :
    Memory.byte (writeDmemWord size a data strb m) b =
      if a ≤ b ∧ b < a + 4 ∧ b < size ∧ strb.getLsbD (b - a) = true then laneByte data (b - a)
      else Memory.byte m b := by
  simp only [writeDmemWord, byte_writeLane]
  by_cases hin : a ≤ b ∧ b < a + 4
  · obtain ⟨j, rfl⟩ := Nat.exists_eq_add_of_le hin.1
    have hj : j < 4 := by omega
    simp only [Nat.add_left_cancel_iff, Nat.add_sub_cancel_left]
    interval_cases j <;> simp [and_comm]
  · rw [if_neg (by omega), if_neg (by omega), if_neg (by omega), if_neg (by omega), if_neg fun h => hin ⟨h.1, h.2.1⟩]

/-- Settles O56: lane by lane, and the read by bytes. -/
theorem dmemWordAccess : Obligations.DmemWordAccess := by
  unfold Obligations.DmemWordAccess
  intro s addr hp hr
  refine ⟨fun data strb a => ?_, fun data strb => ?_, fun j hj => ?_⟩
  · rw [applyInput_dmemWrite hp hr]
    exact byte_writeDmemWord ..
  · rw [applyInput_dmemWrite hp hr]
  · rw [applyInput_dmemRead_idle hp hr]
    exact congrArg some (laneByte_hostWord s _ hj)

/-! ## The fields of the register map (R66) -/

theorem regRead_at {s : State} (hp : s.phase = .idle) (hr : s.resetHeld = false) {off : BitVec 12} (r : Reg)
    (hwf : r.wellFormed = true) (hoff : off.toNat / 4 * 4 = regOffset r) :
    applyInput (.regRead off) s = { s with rdata := some (readReg s r) } :=
  applyInput_regRead_idle hp hr (regAt_of_regOffset hwf hoff)

theorem regWrite_at {s : State} (hp : s.phase = .idle) (hr : s.resetHeld = false) {off : BitVec 12} (r : Reg)
    (hwf : r.wellFormed = true) (hoff : off.toNat / 4 * 4 = regOffset r) (data : Word) (strb : BitVec 4) :
    applyInput (.regWrite off data strb) s = writeReg r data strb s :=
  applyInput_regWrite hp hr (regAt_of_regOffset hwf hoff) data strb

/-- A written CTRL holds bit 0 of the data where lane 0 is enabled. -/
theorem writeReg_ctrl (data : Word) (strb : BitVec 4) (s : State) :
    writeReg .ctrl data strb s = { s with ie := if strb.getLsbD 0 then data.getLsbD 0 else s.ie } := by
  have hbit : (mergeLanes (ctrlWord s) data strb).getLsbD 0 = if strb.getLsbD 0 then data.getLsbD 0 else s.ie := by
    rw [mergeLanes_getLsbD _ _ _ (by decide), ctrlWord_getLsbD]
    rfl
  rw [writeReg, hbit]

theorem dataNbytesLo_eq (s : State) : readReg s .dataNbytesLo = s.dataNbytes.setWidth 32 := rfl

theorem dataNbytesHi_eq (s : State) : readReg s .dataNbytesHi = (s.dataNbytes >>> 32).setWidth 32 := rfl

/-- A byte of STATE after a write of the word at byte index k of its window. -/
theorem writeReg_stateWin_byte (k : Nat) (data : Word) (strb : BitVec 4) (s : State) (x : Nat) :
    State.stateByte (writeReg (.stateWin k) data strb s) x =
      if x < 128 ∧ k ≤ x ∧ x < k + 4 ∧ strb.getLsbD (x - k) = true then laneByte data (x - k)
      else State.stateByte s x :=
  writeWindow_getD_eq s.hashState k data strb x

/-- Settles O60: at each offset the register that stands there, read and written. -/
theorem registerMapNamesFields : Obligations.RegisterMapNamesFields := by
  unfold Obligations.RegisterMapNamesFields
  intro s off data strb hp hr
  have hread := fun r hwf hoff => regRead_at (off := off) hp hr r hwf hoff
  have hwrite := fun r hwf hoff => regWrite_at (off := off) hp hr r hwf hoff data strb
  have hlanes := fun old => lanesWritten_mergeLanes old data strb
  refine ⟨fun h => ⟨?_, ?_⟩, hread .cmd rfl, hread .status rfl, fun h => ⟨_, hread .cfg rfl h, ?_⟩,
    fun h => ⟨hread .argOutbits rfl h, _, hlanes _, hwrite .argOutbits rfl h⟩,
    fun h => ⟨hread .msgAddr rfl h, _, hlanes _, hwrite .msgAddr rfl h⟩,
    fun h => ⟨hread .msgBitsLo rfl h, _, hlanes _, hwrite .msgBitsLo rfl h⟩,
    fun h => ⟨hread .msgBitsHi rfl h, _, hlanes _, hwrite .msgBitsHi rfl h⟩,
    fun h => ⟨hread .keyAddr rfl h, _, hlanes _, hwrite .keyAddr rfl h⟩,
    fun h => ⟨hread .keyBits rfl h, _, hlanes _, hwrite .keyBits rfl h⟩,
    fun h => ⟨hread .synAddr rfl h, _, hlanes _, hwrite .synAddr rfl h⟩,
    fun h => ⟨hread .blkAddr rfl h, _, hlanes _, hwrite .blkAddr rfl h⟩,
    fun h => ⟨hread .gfOps rfl h, _, hlanes _, hwrite .gfOps rfl h⟩,
    hread .gfRes rfl, hread .synNbytes rfl, hread .padInfo rfl, hread .dataNbytesLo rfl, hread .dataNbytesHi rfl,
    fun hlo hhi => ?_⟩
  · rw [hread .ctrl rfl h, readReg, ctrlWord_eq]
  · rw [hwrite .ctrl rfl h, writeReg_ctrl]
  · exact (cfgWord_toNat s.cfg).trans (by ring)
  · refine ⟨_, applyInput_regWrite hp hr (regAt_stateWin hlo hhi) data strb, rfl, fun k => ?_⟩
    have hsub : k - (off.toNat / 4 * 4 - 0x100) = 0x100 + k - off.toNat / 4 * 4 := by omega
    have hword : (k < 128 ∧ off.toNat / 4 * 4 - 0x100 ≤ k ∧ k < off.toNat / 4 * 4 - 0x100 + 4
          ∧ strb.getLsbD (0x100 + k - off.toNat / 4 * 4) = true) ↔
        (off.toNat / 4 * 4 ≤ 0x100 + k ∧ 0x100 + k < off.toNat / 4 * 4 + 4
          ∧ strb.getLsbD (0x100 + k - off.toNat / 4 * 4) = true) := by
      simp only [← and_assoc]
      exact and_congr_left fun _ => by omega
    rw [writeReg_stateWin_byte, hsub, if_congr hword rfl rfl]
    rfl

end Sys2Proof.Machine
end

section
/-! PROOFS. STATUS (spec/10_state.md R26, R38, R41, spec/60_exceptions.md R261): its word, the acknowledgement, what can
clear ERRCODE, and what can clear DROP (spec/70_reset_and_hazards.md R303); then the reset input (R290 to R292). -/

namespace Sys2Proof.Machine

open Sys2Proof

theorem phase_of_not_busy {s : State} (h : State.busy s = false) : s.phase = .idle := by
  cases hp : s.phase with
  | idle => rfl
  | running w => simp [State.busy, hp] at h

/-! ## What clears DROP (R303) -/

/-- The core's turn leaves DROP, the word last read and the draws as they are. -/
theorem coreTurn_keeps_bus {s t : State} (h : coreTurn s = .next t) :
    t.drop = s.drop ∧ t.rdata = s.rdata ∧ t.draws = s.draws := by
  have hsame := Host.Outcome.next.inj (h.symm.trans (coreTurn_bus h s.drop s.schedule s.rdata s.draws))
  rw [hsame]
  exact ⟨rfl, rfl, rfl⟩

/-- DROP goes by a write to STATUS with bit 3 set and lane 0 enabled, or by reset. -/
theorem applyInput_drop {x : Input} {s : State} (hs : s.drop = true) (ht : (applyInput x s).drop = false) :
    x = .resetAssert ∨ (s.phase = .idle ∧ ∃ off data strb, x = .regWrite off data strb
      ∧ off.toNat / 4 = 2 ∧ data.getLsbD 3 = true ∧ strb.getLsbD 0 = true) := by
  rcases applyInput_cases x s with ⟨d, _, _, hd, _, e⟩ | ⟨off, data, strb, r, rfl, hreg, _, hb, e⟩ | ⟨_, _, _, _, e⟩
    | ⟨hx, _⟩ | e
  · rw [e] at ht
    exact absurd (hd hs) (Bool.not_eq_true d ▸ ht)
  · rw [e] at ht
    cases r with
    | status =>
      obtain ⟨_, hoff⟩ := regOffset_of_regAt hreg
      have hbits : (maskLanes data strb).getLsbD 3 = true := by simpa [writeReg, ackStatus, hs] using ht
      rw [maskLanes_getLsbD _ _ (by decide), Bool.and_eq_true] at hbits
      exact .inr ⟨phase_of_not_busy hb, off, data, strb, rfl, Nat.eq_of_mul_eq_mul_right (by decide : 0 < 4) hoff,
        hbits.1, hbits.2⟩
    | _ => cases hs.symm.trans ht
  · rw [e] at ht
    cases hs.symm.trans ht
  · exact .inl hx
  · rw [e] at ht
    cases hs.symm.trans ht

/-- Settles O20: the core's turn and a poll keep DROP. -/
theorem dropIsSticky : Obligations.DropIsSticky := by
  unfold Obligations.DropIsSticky
  intro s t hstep hs ht
  rcases step_effect hstep with ⟨x, rest, hsch, rfl⟩ | ⟨ts, hcore⟩ | ⟨r, ts, rfl⟩
  · rw [hsch, List.head?_cons, Option.some.injEq]
    rcases applyInput_drop (s := State.popTurn s) hs ht with rfl | ⟨hp, off, data, strb, rfl, hwrite⟩
    · exact .inl rfl
    · exact .inr ⟨hp, off, data, strb, rfl, hwrite⟩
  · obtain ⟨hkept, _, _⟩ := coreTurn_keeps_bus hcore
    cases (hkept.trans hs).symm.trans ht
  · cases hs.symm.trans ht

/-! ## STATUS (R26, R38, R41, R261) -/

theorem statusWord_toNat (s : State) :
    (statusWord s).toNat =
      (State.busy s).toNat + 2 * s.done.toNat + 4 * s.err.toNat + 8 * s.drop.toNat + 256 * s.errCode.code.toNat := by
  have h : statusWord s =
      (0#20 ++ s.errCode.code ++ 0#4 ++ bit s.drop ++ bit s.err ++ bit s.done ++ bit (State.busy s) :
        BitVec (20 + 4 + 4 + 1 + 1 + 1 + 1)) := rfl
  rw [h]
  simp only [append_toNat, bit, BitVec.toNat_ofBool, BitVec.toNat_ofNat]
  omega

/-- The acknowledgement reads lane 0 of the data. -/
theorem ackStatus_maskLanes (data : Word) (strb : BitVec 4) (s : State) :
    ackStatus (maskLanes data strb) s =
      { s with
        done := s.done && !(data.getLsbD 1 && strb.getLsbD 0)
        err := s.err && !(data.getLsbD 2 && strb.getLsbD 0)
        drop := s.drop && !(data.getLsbD 3 && strb.getLsbD 0) } := by
  simp only [ackStatus, maskLanes_getLsbD _ _ (by decide : 1 < 32), maskLanes_getLsbD _ _ (by decide : 2 < 32),
    maskLanes_getLsbD _ _ (by decide : 3 < 32)]

/-- A command keeps ERRCODE, or raises an error with a code. -/
theorem coreTurn_errCode {s t : State} (h : coreTurn s = .next t) : t.errCode = s.errCode ∨ t.errCode ≠ .noError := by
  rcases coreTurn_cases h with ⟨_, rfl⟩ | ⟨w, _, hw⟩
  · exact .inl rfl
  · rcases runWord_cases hw with ⟨i, _, he⟩ | ⟨_, rfl⟩
    · rcases exec_cases he with ⟨_, rfl⟩ | ⟨c, hc, rfl⟩
      · exact .inl (resultOf_errCode i s)
      · exact .inr (code_ne_noError hc)
    · exact .inr nofun

/-- An input changes ERRCODE by acceptance or by reset. -/
theorem applyInput_errCode (x : Input) (s : State) :
    (applyInput x s).errCode = s.errCode ∨ x = .resetAssert
      ∨ (s.phase = .idle ∧ ∃ w, (applyInput x s).phase = .running w) := by
  rcases applyInput_cases x s with ⟨_, _, _, _, _, e⟩ | ⟨_, data, strb, r, _, _, _, hb, e⟩
    | ⟨_, _, _, _, e⟩ | ⟨hx, _⟩ | e
  · exact .inl (by rw [e])
  · rw [e]
    cases r with
    | cmd => exact .inr (.inr ⟨phase_of_not_busy hb, _, rfl⟩)
    | _ => exact .inl rfl
  · exact .inl (by rw [e])
  · exact .inr (.inl hx)
  · exact .inl (by rw [e]; rfl)

/-- Settles O52: the word by its fields, the codes, the acknowledgement by lane 0, and what clears ERRCODE. -/
theorem statusReadAndAcknowledge : Obligations.StatusReadAndAcknowledge := by
  unfold Obligations.StatusReadAndAcknowledge
  refine ⟨fun s => ⟨statusWord_toNat s, rfl⟩, rfl, fun s off data strb hp hr hoff => ?_, fun s t hstep hs ht => ?_⟩
  · have hreg : regAt off = some .status := regAt_of_regOffset rfl (congrArg (· * 4) hoff)
    rw [applyInput_regWrite hp hr hreg, writeReg, ackStatus_maskLanes]
  · rcases step_effect hstep with ⟨x, rest, hsch, rfl⟩ | ⟨ts, hcore⟩ | ⟨r, ts, rfl⟩
    · rcases applyInput_errCode x (State.popTurn s) with hkept | rfl | haccepted
      · exact absurd (hkept.symm.trans ht) hs
      · exact .inl (by rw [hsch, List.head?_cons])
      · exact .inr haccepted
    · rcases coreTurn_errCode hcore with hkept | hraised
      · exact absurd (hkept.symm.trans ht) hs
      · exact absurd ht hraised
    · exact absurd ht hs

/-! ## Reset (R290, R291, R292) -/

theorem windowWord_replicate_zero (n k : Nat) : windowWord (Vector.replicate n (0 : Byte)) k = 0 := by
  have hbyte : ∀ x, (Vector.replicate n (0 : Byte)).toList.getD x 0 = 0 := fun x => by
    rw [Vector.toList_replicate]
    exact zeros_getD n x
  rw [windowWord, hbyte, hbyte, hbyte, hbyte]
  rfl

/-- Every register and window word shows 0 after reset. -/
theorem readReg_reset (r : Reg) : readReg State.reset r = 0 := by
  cases r with
  | stateWin k | padbufWin k | digestWin k => exact windowWord_replicate_zero _ k
  | _ => rfl

/-- Settles O48: every field of the reset state is 0, and nothing is written in DMEM. -/
theorem resetClearsRegisters : Obligations.ResetClearsRegisters := by
  unfold Obligations.ResetClearsRegisters
  refine ⟨fun off => ?_, rfl, rfl, rfl, rfl, fun a => rfl, fun s a => rfl⟩
  rw [applyInput_regRead rfl rfl, answer_rdata]
  cases hreg : regAt off with
  | none => rw [regWord_of_none hreg]
  | some r => rw [regWord_of_regAt hreg, readReg_reset]

/-- Settles O49: the reset input's level is the first thing an access tests. -/
theorem resetInputHolds : Obligations.ResetInputHolds := by
  unfold Obligations.ResetInputHolds
  refine ⟨fun s => rfl, fun s x hr => ⟨fun hx => ?_, fun hx => ?_⟩, fun s hr => if_pos hr⟩
  · cases x with
    | regWrite | dmemWrite => exact if_pos hr
    | regRead | dmemRead | resetAssert | resetRelease => simp [Input.isWrite] at hx
  · cases x with
    | regRead | dmemRead => exact if_pos hr
    | regWrite | dmemWrite | resetAssert | resetRelease => simp [Input.isRead] at hx

end Sys2Proof.Machine
end

section
/-! PROOFS. The pseudo-instructions of spec/30_encoding.md R99: WAIT, DO, CLR, SET64 and LOADB, as runs of the turns
their lines stand for. -/

namespace Sys2Proof.Machine

open Sys2Proof

/-! ## Writes as turns (R97) -/

theorem regOffset_lt {r : Reg} (h : r.wellFormed = true) : regOffset r < 2 ^ 12 ∧ regOffset r % 4 = 0 := by
  cases r with
  | stateWin k | padbufWin k | digestWin k =>
    obtain ⟨_, hk⟩ := windowIndexOk_iff.1 h
    simp only [regOffset]
    omega
  | _ => decide

/-- A register stands at the offset a line writes it to. -/
theorem regAt_regOffset {r : Reg} (h : r.wellFormed = true) : regAt (BitVec.ofNat 12 (regOffset r)) = some r := by
  obtain ⟨hlt, hmod⟩ := regOffset_lt h
  refine regAt_of_regOffset h ?_
  rw [BitVec.toNat_ofNat, Nat.mod_eq_of_lt hlt]
  omega

/-- A run takes the input that is due. -/
theorem run_input {s : State} {x : Input} {rest : List Turn} (hs : s.schedule = .input x :: rest) (n : Nat) :
    Host.Core.run Sys2Proof.core (n + 1) s = Host.Core.run Sys2Proof.core n (applyInput x (State.popTurn s)) :=
  run_succ (step_input hs) n

/-- A line that writes a whole register. -/
theorem run_writeTurn {s : State} (hp : s.phase = .idle) (hr : s.resetHeld = false) {r : Reg}
    (hwf : r.wellFormed = true) {v : Nat} {rest : List Turn} (hs : s.schedule = writeTurn r v 0b1111 :: rest)
    (n : Nat) :
    Host.Core.run Sys2Proof.core (n + 1) s =
      Host.Core.run Sys2Proof.core n (writeReg r (BitVec.ofNat 32 v) 0b1111 (State.popTurn s)) := by
  rw [run_input hs, applyInput_regWrite (s := State.popTurn s) hp hr (regAt_regOffset hwf)]
  rfl

theorem mergeLanes_all (old data : Word) : mergeLanes old data 0b1111 = data := by
  refine BitVec.eq_of_getLsbD_eq fun j hj => ?_
  have hlane : ∀ i < 4, (0b1111 : BitVec 4).getLsbD i = true := by decide
  rw [mergeLanes_getLsbD _ _ _ hj, hlane _ (by omega), if_pos rfl]

/-! ## WAIT (R99) -/

theorem coreTurn_resetHeld {s t : State} (h : coreTurn s = .next t) : t.resetHeld = s.resetHeld := by
  rcases coreTurn_cases h with ⟨_, rfl⟩ | ⟨w, _, hw⟩
  · rfl
  · rcases runWord_cases hw with ⟨i, _, he⟩ | ⟨_, rfl⟩
    · rcases exec_cases he with ⟨_, rfl⟩ | ⟨c, _, rfl⟩
      · exact resultOf_resetHeld i s
      · rfl
    · rfl

/-- The core's turn with another schedule and another word last read. -/
theorem coreTurn_host {s t : State} (h : coreTurn s = .next t) (ts : List Turn) (r : Option Word) :
    coreTurn { s with schedule := ts, rdata := r } = .next { t with schedule := ts, rdata := r } := by
  obtain ⟨hdrop, _, hdraws⟩ := coreTurn_keeps_bus h
  have hbus := coreTurn_bus h s.drop ts r s.draws
  rw [← hdrop, ← hdraws] at hbus
  rw [← hbus, hdrop, hdraws]

theorem busy_of_idle {s : State} (hp : s.phase = .idle) : State.busy s = false := by rw [State.busy, hp]

theorem statusWord_mod_two (s : State) : (statusWord s).toNat % 2 = (State.busy s).toNat := by
  have hbusy := (State.busy s).toNat_lt
  rw [statusWord_toNat]
  omega

theorem statusWord_even_of_idle {s : State} (hp : s.phase = .idle) : (statusWord s).toNat % 2 = 0 := by
  rw [statusWord_mod_two, busy_of_idle hp]
  rfl

theorem statusWord_odd_of_running {s : State} {w : Word} (hp : s.phase = .running w) :
    (statusWord s).toNat % 2 = 1 := by
  rw [statusWord_mod_two, busy_of_running hp]
  rfl

/-- After the last poll the step is the core's turn. -/
theorem step_wait_zero {s : State} {w : Word} {rest : List Turn} (hs : s.schedule = .wait 0 :: rest)
    (hp : s.phase = .running w) : step s = coreTurn s := by
  rw [step_wait hs, waitTurn, busy_of_running hp]
  rfl

section
variable {s : State} {rest : List Turn} (hr : s.resetHeld = false)
include hr

theorem step_wait_idle {polls : Nat} (hs : s.schedule = .wait polls :: rest) (hp : s.phase = .idle) :
    step s = .next { s with rdata := some (statusWord s), schedule := rest } := by
  rw [step_wait hs, waitTurn, busy_of_idle hp, Bool.and_false, pollStatus_eq, hr, busy_of_idle hp]
  rfl

theorem step_wait_running {polls : Nat} {w : Word} (hs : s.schedule = .wait (polls + 1) :: rest)
    (hp : s.phase = .running w) :
    step s = .next { s with rdata := some (statusWord s), schedule := .wait polls :: rest } := by
  rw [step_wait hs, waitTurn, decide_eq_false (Nat.succ_ne_zero polls), Bool.false_and, pollStatus_eq, hr,
    busy_of_running hp]
  rfl

end

/-- The loop ends one read after the command, which ends after the polls that find BUSY = 1. -/
theorem run_wait {s t : State} {w : Word} {rest : List Turn} (polls : Nat) (hr : s.resetHeld = false)
    (hs : s.schedule = .wait polls :: rest) (hp : s.phase = .running w) (ht : coreTurn s = .next t) :
    Host.Core.run Sys2Proof.core (polls + 2) s = .next { t with rdata := some (statusWord t), schedule := rest } := by
  induction polls generalizing s t with
  | zero =>
    obtain ⟨u, hu, hidle⟩ := coreTurn_next s
    cases ht.symm.trans hu
    rw [run_succ ((step_wait_zero hs hp).trans ht)]
    exact run_succ (step_wait_idle ((coreTurn_resetHeld ht).trans hr) ((coreTurn_schedule ht).trans hs) hidle) 0
  | succ polls ih =>
    rw [Nat.succ_add, run_succ (step_wait_running hr hs hp)]
    have hend := coreTurn_host ht (.wait polls :: rest) (some (statusWord s))
    have hloop := ih (s := { s with rdata := some (statusWord s), schedule := .wait polls :: rest }) hr rfl hp hend
    exact hloop

/-- Settles O58: a turn of the loop, by the phase and the polls left, and the loop as a run. -/
theorem waitPollsUntilIdle : Obligations.WaitPollsUntilIdle := by
  unfold Obligations.WaitPollsUntilIdle
  refine fun s polls rest => ⟨rfl, fun hr hs => ⟨fun hp => ⟨step_wait_idle hr hs hp, ?_⟩, fun w hp =>
    ⟨fun hpos => ?_, fun hzero => ?_, ?_⟩⟩⟩
  · exact statusWord_even_of_idle hp
  · obtain ⟨n, rfl⟩ := Nat.exists_eq_add_one.2 hpos
    exact ⟨step_wait_running hr hs hp, statusWord_odd_of_running hp⟩
  · subst hzero
    exact step_wait_zero hs hp
  · obtain ⟨t, ht, hidle⟩ := coreTurn_next s
    exact ⟨t, ht, run_wait polls hr hs hp ht, statusWord_even_of_idle hidle⟩

/-! ## DO (R99) -/

/-- Settles O57: the word is accepted, and the loop runs to the end of its command. -/
theorem doLineRunsCommand : Obligations.DoLineRunsCommand := by
  unfold Obligations.DoLineRunsCommand
  intro s i polls hp hr hwf
  obtain ⟨t, ht, hidle⟩ := coreTurn_next (accept (encode i) s)
  have hexec : exec i (accept (encode i) s) = .next t := by
    rw [← runWord_some (decode_encode hwf), ← coreTurn_running (accept_phase (encode i) s)]
    exact ht
  have hword : BitVec.ofNat 32 (encode i).toNat = encode i := by rw [BitVec.ofNat_toNat, BitVec.setWidth_eq]
  have hstart : Host.Core.run Sys2Proof.core (polls + 3) (State.withProgram [.doCmd i polls] s) =
      Host.Core.run Sys2Proof.core (polls + 2)
        (accept (encode i) { s with schedule := .wait polls :: s.schedule }) := by
    rw [run_writeTurn (s := State.withProgram [.doCmd i polls] s) hp hr (r := .cmd) rfl rfl, hword, writeReg,
      maskLanes_all]
    rfl
  have hend := coreTurn_host ht (.wait polls :: s.schedule) s.rdata
  have hloop := run_wait (s := accept (encode i) { s with schedule := .wait polls :: s.schedule }) polls hr rfl rfl hend
  have hsch := coreTurn_schedule ht
  rw [accept_schedule] at hsch
  rw [← hsch] at hloop hstart
  have heven := statusWord_even_of_idle hidle
  exact ⟨t, _, hexec, hstart.trans hloop, rfl, heven⟩

/-! ## CLR and SET64 (R99) -/

theorem run_clr {s : State} (hp : s.phase = .idle) (hr : s.resetHeld = false) :
    Host.Core.run Sys2Proof.core 1 (State.withProgram [.clr] s) =
      .next { s with done := false, err := false, drop := false } := by
  rw [run_writeTurn (s := State.withProgram [.clr] s) hp hr (r := .status) rfl rfl, writeReg, maskLanes_all]
  simp [Host.Core.run, ackStatus, State.popTurn, State.withProgram, lineTurns]

/-- A SET64 line writes the two words of its value to the registers of its pair. -/
theorem run_set64 {s : State} (hp : s.phase = .idle) (hr : s.resetHeld = false) (p : RegPair) (v : Nat) :
    Host.Core.run Sys2Proof.core 2 (State.withProgram [.set64 p v] s) =
      .next (writeReg (pairHigh p) (BitVec.ofNat 32 (v / 2 ^ 32)) 0b1111
        (writeReg (pairLow p) (BitVec.ofNat 32 (v % 2 ^ 32)) 0b1111 s)) := by
  have hwf : (pairLow p).wellFormed = true ∧ (pairHigh p).wellFormed = true := by cases p <;> exact ⟨rfl, rfl⟩
  have hlow := run_writeTurn (s := State.withProgram [.set64 p v] s) hp hr hwf.1 rfl 1
  have hhigh := run_writeTurn
    (s := writeReg (pairLow p) (BitVec.ofNat 32 (v % 2 ^ 32)) 0b1111 (State.popTurn (State.withProgram [.set64 p v] s)))
    (by cases p <;> exact hp) (by cases p <;> exact hr) hwf.2 (v := v / 2 ^ 32) (rest := s.schedule)
    (by cases p <;> rfl) 0
  rw [hlow.trans hhigh]
  cases p <;> simp only [pairLow, pairHigh, writeReg, State.popTurn, State.withProgram] <;> rfl

/-! ## LOADB (R99) -/

/-- Byte j of the number that bytes spell is byte j, or 0 past the end. -/
theorem littleEndian_byte {bs : List Nat} (hbs : ∀ b ∈ bs, b < 256) (j : Nat) :
    littleEndian bs / 2 ^ (8 * j) % 256 = bs.getD j 0 := by
  induction bs generalizing j with
  | nil => simp [littleEndian]
  | cons b bs ih =>
    have hb := hbs b List.mem_cons_self
    cases j with
    | zero =>
      rw [littleEndian, List.getD_cons_zero]
      omega
    | succ j =>
      rw [littleEndian, List.getD_cons_succ, ← ih (fun c hc => hbs c (List.mem_cons_of_mem b hc)) j,
        show 8 * (j + 1) = 8 + 8 * j by ring, Nat.pow_add, ← Nat.div_div_eq_div_mul,
        show (b + 256 * littleEndian bs) / 2 ^ 8 = littleEndian bs by omega]

theorem laneByte_littleEndian {bs : List Nat} (hbs : ∀ b ∈ bs, b < 256) {j : Nat} (hj : j < 4) :
    laneByte (BitVec.ofNat 32 (littleEndian bs)) j = BitVec.ofNat 8 (bs.getD j 0) := by
  apply BitVec.eq_of_toNat_eq
  rw [laneByte_toNat, BitVec.toNat_ofNat, BitVec.toNat_ofNat, ← littleEndian_byte hbs j]
  interval_cases j <;> omega

/-- The byte enables of a chunk of n bytes are its lanes. -/
theorem chunkLanes_getLsbD {n j : Nat} (hn : n ≤ 4) (hj : j < 4) :
    (BitVec.ofNat 4 (2 ^ n - 1)).getLsbD j = decide (j < n) := by
  have hall : ∀ n ≤ 4, ∀ j < 4, (BitVec.ofNat 4 (2 ^ n - 1)).getLsbD j = decide (j < n) := by decide
  exact hall n hn j hj

/-- Byte a of DMEM, after the bytes bs have been written from addr on. -/
def Loaded (size addr : Nat) (bs : List Nat) (m m' : Memory) : Prop :=
  ∀ a, Memory.byte m' a =
    if addr ≤ a ∧ a < addr + bs.length ∧ a < size then BitVec.ofNat 8 (bs.getD (a - addr) 0) else Memory.byte m a

theorem Loaded.append {size addr : Nat} {bs cs : List Nat} {m m' m'' : Memory} (h : Loaded size addr bs m m')
    (h' : Loaded size (addr + bs.length) cs m' m'') : Loaded size addr (bs ++ cs) m m'' := by
  intro a
  rw [h' a, h a, List.length_append]
  by_cases hin : addr + bs.length ≤ a
  · rw [List.getD_append_right _ _ _ _ (by omega), Nat.sub_sub,
      if_neg (c := addr ≤ a ∧ a < addr + bs.length ∧ a < size) (by omega)]
    exact if_congr (by omega) rfl rfl
  · rw [if_neg (by omega)]
    by_cases hold : addr ≤ a ∧ a < size
    · rw [List.getD_append _ _ _ _ (by omega)]
      exact if_congr (by omega) rfl rfl
    · rw [if_neg (by omega), if_neg (by omega)]

/-- A DMEM write of a chunk of at most four bytes at a word's address. -/
theorem loaded_chunk {size addr : Nat} {bs : List Nat} (hlen : bs.length ≤ 4) (hbs : ∀ b ∈ bs, b < 256) (m : Memory) :
    Loaded size addr bs m
      (writeDmemWord size addr (BitVec.ofNat 32 (littleEndian bs)) (BitVec.ofNat 4 (2 ^ bs.length - 1)) m) := by
  intro a
  rw [byte_writeDmemWord]
  by_cases hin : addr ≤ a ∧ a < addr + 4
  · obtain ⟨j, rfl⟩ := Nat.exists_eq_add_of_le hin.1
    have hj : j < 4 := by omega
    rw [Nat.add_sub_cancel_left, chunkLanes_getLsbD hlen hj, laneByte_littleEndian hbs hj]
    refine if_congr ?_ rfl rfl
    rw [decide_eq_true_eq]
    omega
  · rw [if_neg (by omega), if_neg (by omega)]

/-- One DMEM line of a program at a word's address. -/
theorem run_dmemWriteTurn {s : State} (hp : s.phase = .idle) (hr : s.resetHeld = false) {addr v strb : Nat}
    {rest : List Turn} (hs : s.schedule = dmemWriteTurn addr v strb :: rest) (hword : addr % 4 = 0)
    (hfits : addr < 2 ^ 32) (n : Nat) :
    Host.Core.run Sys2Proof.core (n + 1) s =
      Host.Core.run Sys2Proof.core n
        { State.popTurn s with
          dmem := writeDmemWord (State.dmemBytes s) addr (BitVec.ofNat 32 v) (BitVec.ofNat 4 strb) s.dmem } := by
  have hbase : wordBase (BitVec.ofNat 32 (addr / 4 * 4)) = addr := by
    rw [wordBase, BitVec.toNat_ofNat]
    omega
  rw [run_input hs, applyInput_dmemWrite (s := State.popTurn s) hp hr, hbase]
  rfl

/-- A chunk of at least one byte and at most four is one write. -/
theorem loadBytes_chunk (addr : Nat) {tail : List Nat} (hempty : tail ≠ []) (hlen : tail.length < 4) :
    loadBytes addr tail = [dmemWriteTurn addr (littleEndian tail) (2 ^ tail.length - 1)] := by
  match tail, hempty, hlen with
  | [_], _, _ | [_, _], _, _ | [_, _, _], _, _ => rfl

theorem length_lt_four {tail : List Nat} (h : ∀ b0 b1 b2 b3 rest, tail = b0 :: b1 :: b2 :: b3 :: rest → False) :
    tail.length < 4 := by
  match tail, h with
  | [], _ | [_], _ | [_, _], _ | [_, _, _], _ => simp
  | b0 :: b1 :: b2 :: b3 :: rest, h => exact (h b0 b1 b2 b3 rest rfl).elim

/-- LOADB's lines write its bytes, four to a word. -/
theorem run_loadBytes {s : State} (hp : s.phase = .idle) (hr : s.resetHeld = false) {ts : List Turn} {addr : Nat}
    {bytes : List Nat} (hs : s.schedule = loadBytes addr bytes ++ ts) (hword : addr % 4 = 0)
    (hfits : addr + bytes.length ≤ 2 ^ 32) (hbytes : ∀ b ∈ bytes, b < 256) :
    ∃ m, Host.Core.run Sys2Proof.core ((bytes.length + 3) / 4) s = .next { s with dmem := m, schedule := ts }
      ∧ Loaded (State.dmemBytes s) addr bytes s.dmem m := by
  induction addr, bytes using loadBytes.induct generalizing s with
  | case1 addr =>
    refine ⟨s.dmem, ?_, fun a => (if_neg (by simp; omega)).symm⟩
    rw [← show s.schedule = ts from hs]
    rfl
  | case2 addr b0 b1 b2 b3 rest ih =>
    simp only [List.length_cons] at hfits
    have hchunk : ∀ b ∈ [b0, b1, b2, b3], b < 256 := fun b hb =>
      hbytes b (List.mem_append_left rest (by exact hb))
    obtain ⟨m, hrun, hloaded⟩ := ih
      (s := { State.popTurn s with
        dmem := writeDmemWord (State.dmemBytes s) addr (BitVec.ofNat 32 (littleEndian [b0, b1, b2, b3])) 0b1111
          s.dmem })
      hp hr (congrArg List.tail hs) (by omega) (by omega)
      fun b hb => hbytes b (List.mem_append_right [b0, b1, b2, b3] hb)
    refine ⟨m, ?_, (loaded_chunk (bs := [b0, b1, b2, b3]) (Nat.le_refl 4) hchunk s.dmem).append hloaded⟩
    have hsteps : ((b0 :: b1 :: b2 :: b3 :: rest).length + 3) / 4 = (rest.length + 3) / 4 + 1 := by
      simp only [List.length_cons]
      omega
    rw [hsteps, run_dmemWriteTurn hp hr hs hword (by omega)]
    exact hrun
  | case3 addr tail hempty hfour =>
    have hlen := length_lt_four hfour
    rw [loadBytes_chunk addr hempty hlen] at hs
    have hsteps : (tail.length + 3) / 4 = 1 := by
      have := List.length_pos_of_ne_nil hempty
      omega
    have hrun := run_dmemWriteTurn hp hr hs hword (by omega) 0
    rw [hsteps, hrun, ← show (State.popTurn s).schedule = ts from congrArg List.tail hs]
    exact ⟨_, rfl, loaded_chunk hlen.le hbytes s.dmem⟩

/-- A SET64 line leaves its value in MSG_BITS. -/
theorem msgBits_writeReg_pair {v : Nat} (hv : v < 2 ^ 64) (s : State) :
    (State.msgBits (writeReg .msgBitsHi (BitVec.ofNat 32 (v / 2 ^ 32)) 0b1111
      (writeReg .msgBitsLo (BitVec.ofNat 32 (v % 2 ^ 32)) 0b1111 s))).toNat = v := by
  simp only [msgBits_toNat, writeReg, mergeLanes_all, BitVec.toNat_ofNat]
  omega

/-- Settles O59: CLR, SET64 for each pair, and LOADB, whose lines write its bytes four at a time. -/
theorem pseudoWritesTakeEffect : Obligations.PseudoWritesTakeEffect := by
  unfold Obligations.PseudoWritesTakeEffect
  refine fun s hp hr => ⟨run_clr hp hr, fun v hv => ?_, fun v _ => run_set64 hp hr .dataNbytes v,
    fun addr bytes hwf => ?_⟩
  · exact ⟨_, run_set64 hp hr .msgBits v, rfl, msgBits_writeReg_pair (of_decide_eq_true hv) s⟩
  · simp only [Line.wellFormed, Bool.and_eq_true, decide_eq_true_eq, List.all_eq_true] at hwf
    obtain ⟨⟨hword, hfits⟩, hbytes⟩ := hwf
    have hs : (State.withProgram [.loadb addr bytes] s).schedule = loadBytes addr bytes ++ s.schedule := by
      simp [State.withProgram, lineTurns]
    obtain ⟨m, hrun, hloaded⟩ :=
      run_loadBytes (s := State.withProgram [.loadb addr bytes] s) hp hr hs hword hfits hbytes
    exact ⟨{ s with dmem := m }, hrun, rfl, hloaded⟩

end Sys2Proof.Machine
end
